-- ==== Sys2Proof/Config.lean ====
section
/-! DEFINITION. What an instance fixes when it is built: the one open parameter of the spec (R6, D5). -/

namespace Sys2Proof

/-- The parameters of one instance. `BUFCAP` is the only open one (R6); it is an argument of the model, carried in
State because `step` has no other argument, and no step changes it (R25). -/
structure Config where
  /-- `BUFCAP`, the capacity of the payload buffer in bytes (R6). -/
  bufcap : Nat
deriving DecidableEq, Repr

/-- The range R6 admits: 112 ≤ BUFCAP ≤ 65535. -/
abbrev Config.Admitted (c : Config) : Prop := 112 ≤ c.bufcap ∧ c.bufcap ≤ 65535

/-- `RECCAP`, the capacity of the result memory in records: max(28, BUFCAP) (R6, D40). -/
def Config.reccap (c : Config) : Nat := max 28 c.bufcap

/-- DESIGN CHOICE, unsafe for a claim that rests on the number: the capacity R6 and D5 suggest (log entry 3). -/
def Config.suggested : Config := ⟨4096⟩

end Sys2Proof
end

