-- ==== Sys2Proof/Word.lean ====
section
/-! DEFINITION. The word types of the block: a byte of the payload and a word of the command port. -/

namespace Sys2Proof

/-- A byte of the payload; bit 7 is its most significant bit (R7). -/
abbrev Byte := BitVec 8

/-- A word of the command port; bit 31 is its most significant bit (R60, R61). -/
abbrev Word := BitVec 32

end Sys2Proof
end

