-- ==== Sys2Proof/Syntax.lean ====
section
/-! DEFINITION. The commands of the BFX command set, version 1: one constructor per row of the opcode table (R64). -/

namespace Sys2Proof

/-- The document's VariantKind, a closed enumeration (R20). -/
inductive VariantKind where
  | spectrum
  | statistics
  | pgram
deriving DecidableEq, Repr

/-- A command with its operands as they stand in their fields (R63). An operand outside the range its command accepts
is still this command (R66). -/
inductive Instr where
  /-- `NOP` (R156). -/
  | nop
  /-- `LOAD`: the length `L` in bytes and the payload words as delivered, pad lanes included (R67, R81). -/
  | load (len : BitVec 16) (payload : List Word)
  /-- `MARKBAD` (R83). -/
  | markbad
  /-- `RDB n`, `n` the number of bits (R85). -/
  | rdb (n : BitVec 8)
  /-- `DEQ b`, `b` the field width (R102). -/
  | deq (b : BitVec 8)
  /-- `ANSI k`, `k` the band index (R112). -/
  | ansi (k : BitVec 8)
  /-- `SETDF df`, `df` in mHz (R114). -/
  | setdf (df : BitVec 24)
  /-- `HYB k`, `k` the index in the emitted sequence (R117). -/
  | hyb (k : BitVec 16)
  /-- `DSPEC` (R132). -/
  | dspec
  /-- `DSTAT` (R133). -/
  | dstat
  /-- `DPGRAM` (R134). -/
  | dpgram
  /-- `VSEL ev, tlen`: the explicit variant, if one is given, and the length of the encoded text (R151). -/
  | vsel (ev : Option VariantKind) (tlen : BitVec 16)
  /-- `DVAR` (R137). -/
  | dvar
  /-- `GET r`, `r` a register number (R158). -/
  | get (r : BitVec 8)
  /-- `GETREC j, i`: field `j` of record `i` (R159). -/
  | getrec (j : BitVec 8) (i : BitVec 16)
  /-- `SRST` (R157). -/
  | srst
deriving DecidableEq, Repr

end Sys2Proof
end

