-- ==== Sys2Proof/Machine/State.lean ====
section
/-! DEFINITION. The architectural state of one instance (R10), the reset state (R201), and the reasons a step can stop. -/

namespace Sys2Proof.Machine

/-- `BST`, the buffer status (R13). -/
inductive BufStatus where
  /-- NONE: no payload since reset. -/
  | noPayload
  /-- VALID: a payload was loaded. -/
  | valid
  /-- BAD: the host reported that the text of this line could not be converted to bytes. -/
  | bad
deriving DecidableEq, Repr

/-- The fault codes 1 to 7, in their order (R170). -/
inductive FaultCode where
  | outOfRange
  | truncated
  | malformed
  | illegalCommand
  | illegalOperand
  | empty
  | overflow
deriving DecidableEq, Repr

/-- The completion status of a command (R170): `OK`, or a fault code. -/
inductive Status where
  | ok
  | fault (c : FaultCode)
deriving DecidableEq, Repr

/-- A response: the pair (status, data) a command ends with (R60, R70). -/
structure Response where
  status : Status
  data : BitVec 64
deriving DecidableEq, Repr

/-- What arrives at the block: a word on the command port, or an assertion of the reset input (R60, R200). -/
inductive PortEvent where
  | word (w : Word)
  | reset
deriving DecidableEq, Repr

/-- One record of the result memory: `REC[i] = (F, V[0], ..., V[RECW-1])`, `F` in mHz, the levels signed, in cdB
(R22). -/
structure Entry where
  f : BitVec 64
  v : List (BitVec 16)
deriving DecidableEq, Repr

/-- `REC`, the result memory: the triple (RECN, RECW, entries) (R22). The model holds no entry at index `RECN` or above,
since none can be read (log entry 6). -/
structure Record where
  recn : BitVec 16
  recw : BitVec 3
  entries : List Entry
deriving DecidableEq, Repr

/-- `REC` empty: RECN = 0, RECW = 0 (R22). -/
def Record.empty : Record := ⟨0#16, 0#3, []⟩

/-- A byte memory in canonical form: pairs (address, byte), the addresses strictly rising. An address that is not listed
holds no value (log entry 4). -/
abbrev Memory := List Host.Cell

/-- The whole state: the tuple of R10, the instance's parameter, and the two ports. -/
structure State where
  /-- The instance's parameter `BUFCAP` (R6). The model's own field: no step writes it (log entry 3). -/
  cfg : Config
  /-- `BUF`, the payload buffer (R11). -/
  buf : Memory
  /-- `LEN`, the payload length in bytes (R12). -/
  len : BitVec 16
  /-- `BST`, the buffer status (R13). -/
  bst : BufStatus
  /-- `CUR`, the cursor, a bit address (R14). -/
  cur : BitVec 20
  /-- `RAW`, the latest extracted field, or empty (R15). -/
  raw : Option (BitVec 32)
  /-- `SPL`, the latest level, signed, in cdB, or empty (R16). -/
  spl : Option (BitVec 16)
  /-- `FRQ`, the latest frequency in mHz, or empty (R17). -/
  frq : Option (BitVec 64)
  /-- `DF`, the bin spacing in mHz (R18). -/
  df : BitVec 24
  /-- `DFU`: `DF` was written by `SETDF` since reset (R19). -/
  dfu : Bool
  /-- `VAR`, the selected variant, or none (R20). -/
  var : Option VariantKind
  /-- `FLT`, the sticky fault mask (R21). -/
  flt : BitVec 8
  /-- `REC`, the result memory (R22). -/
  record : Record
  /-- The command port and the reset input: what has been delivered and not yet consumed, oldest first (R60). The
  model's own field (log entry 1). -/
  port : List PortEvent
  /-- The response port: the responses returned, oldest first (R60). No command reads it. The model's own field (log
  entry 2). -/
  out : List Response
deriving DecidableEq, Repr

/-- The state right after reset at power-on (R201): every register as the table of R201 gives it, `BUF` listing nothing,
nothing delivered, nothing returned, and `BUFCAP` the suggested value (R6, log entry 3). -/
def State.reset : State where
  cfg := Config.suggested
  buf := []
  len := 0#16
  bst := .noPayload
  cur := 0#20
  raw := none
  spl := none
  frq := none
  df := 7629#24
  dfu := false
  var := none
  flt := 0#8
  record := Record.empty
  port := []
  out := []

/-- The reasons the model stops. They are not the block's faults, which complete a command (`FaultCode`, R176). -/
inductive Fault where
  /-- A byte of `BUF` below `LEN` holds no value. Raised by `RDB`, `DSPEC`, `DSTAT`, `DPGRAM`, `DVAR`. Safe: in every
  state a run from reset reaches, `LOAD` has written every byte below `LEN` (R11), and elsewhere the spec gives no
  value to read. -/
  | payloadByteAbsent
  /-- A field below `RECN` and `RECW` is not in the result memory. Raised by `GETREC`. Safe: in every state a run from
  reset reaches, the record is complete (R22), and elsewhere the spec gives no value to read. -/
  | recordFieldAbsent
deriving DecidableEq, Repr

/-- The reasons a term of `Instr` has no meaning. -/
inductive Refusal where
  /-- The instruction of that mnemonic has no meaning yet. Raised by no arm of `exec`. Safe. -/
  | notModelled (mnemonic : String)
  /-- A `LOAD` term whose word list does not fit its length. Raised by `LOAD`. Safe: decoding gives no such term
  (R67, R68). -/
  | illFormedLoad
deriving DecidableEq, Repr

end Sys2Proof.Machine
end

