-- ==== Sys2Proof/Machine/Flags.lean ====
section
/-! DEFINITION. Codes and flags: the numbers of the statuses and variants, the fault mask and the `STATUS` view. -/

namespace Sys2Proof.Machine

/-- The number of a fault code, 1 to 7 (R170). -/
def FaultCode.code : FaultCode → Nat
  | .outOfRange => 1
  | .truncated => 2
  | .malformed => 3
  | .illegalCommand => 4
  | .illegalOperand => 5
  | .empty => 6
  | .overflow => 7

/-- The 3-bit completion status on the response port (R60, R170). -/
def Status.code : Status → BitVec 3
  | .ok => 0#3
  | .fault c => BitVec.ofNat 3 c.code

/-- The 2 bits of `BST` (R13). -/
def BufStatus.code : BufStatus → BitVec 2
  | .noPayload => 0#2
  | .valid => 1#2
  | .bad => 2#2

/-- The 2 bits of `VAR` (R20). -/
def variantCode : Option VariantKind → BitVec 2
  | none => 0#2
  | some .spectrum => 1#2
  | some .statistics => 2#2
  | some .pgram => 3#2

/-- `FLT[code] <- 1` (R21, R176). -/
def setFault (flt : BitVec 8) (c : FaultCode) : BitVec 8 := flt ||| (1#8 <<< c.code)

/-- `STATUS`, the read-only view of the flags (R23): bits 15:8 zero, then FRQV, SPLV, RAWV, VAR, DFU, BST. -/
def State.statusWord (s : State) : BitVec 16 :=
  (0#8 ++ BitVec.ofBool s.frq.isSome ++ BitVec.ofBool s.spl.isSome ++ BitVec.ofBool s.raw.isSome ++
    variantCode s.var ++ BitVec.ofBool s.dfu ++ s.bst.code : BitVec (8 + 1 + 1 + 1 + 2 + 1 + 2))

end Sys2Proof.Machine
end

