-- ==== Sys2Proof/Machine/Units.lean ====
section
/-! DEFINITION. The pure functions of the three units: the bit order and `MemRead`, the dequantization law, the band ROM
and the hybrid generator. -/

namespace Sys2Proof.Machine

/-! ## Bit Reader -/

/-- `bit(p)` of a payload: bit `7 - (p mod 8)` of byte `p div 8` (R42). At and beyond the payload's end, where the spec
defines no bit, this function takes the byte for 0 (DESIGN CHOICE, log entry 11): safe for every claim about a command, since
none evaluates it there. -/
def bitAt (bytes : List Byte) (p : Nat) : Nat :=
  (bytes.getD (p / 8) 0#8).toNat / 2 ^ (7 - p % 8) % 2

/-- `MemRead(p, n)`: the `n` bits from bit address `p`, the first one most significant, by the recursion of R43. R43 leaves
it undefined for `p + n > 8 * LEN`; there this function takes the missing bytes for 0 (DESIGN CHOICE, log entry 11): safe for
every claim about a command, since `RDB` and the macro decodes test the length first (R85, R131). -/
def memRead (bytes : List Byte) (p : Nat) : Nat → Nat
  | 0 => 0
  | n + 1 => 2 * memRead bytes p n + bitAt bytes (p + n)

/-! ## Dequantizer -/

/-- `MINSPL` in mdB, a literal (R100, R25). -/
def minSpl : Int := -6358

/-- `DYN` in mdB (R25). -/
def dynamicRange : Int := 192000

/-- `deq(raw, b)` in cdB (R103): the exact value N / M mdB, rounded to the nearest cdB. The divisor is positive for
`b ≥ 1`, and there `/` on `Int` is the floor division of R7. -/
def deq (raw b : Nat) : Int :=
  let m : Int := 2 ^ b - 1
  let n : Int := dynamicRange * raw + minSpl * m
  (2 * n + 10 * m) / (20 * m)

/-! ## Band tables -/

/-- The ANSI ROM in Hz, 28 literals (R110). -/
def ansiTable : List Nat :=
  [40, 50, 63, 80, 100, 125, 160, 200, 250, 315, 400, 500, 630, 800] ++
  [1000, 1250, 1600, 2000, 2500, 3150, 4000, 5000, 6300, 8000, 10000, 12500, 16000, 20000]

/-- `1000 * ANSI[k]`, in mHz (R110, R112). -/
def ansiFreq (k : Nat) : Nat := 1000 * ansiTable.getD k 0

/-- `LCNT`, the document's linearCount (R115). -/
def linearCount : Nat := 35

/-- `BPO`, the document's bandsPerOctave (R25). -/
def bandsPerOctave : Nat := 24

/-- The digits of an integer 24th root below `acc`'s, from bit `bits - 1` down: the greatest `y = acc + d`, `d < 2 ^ bits`,
with `y ^ 24 ≤ x`, when `acc ^ 24 ≤ x`. -/
def rootFrom (x : Nat) : (bits acc : Nat) → Nat
  | 0, acc => acc
  | bits + 1, acc =>
    if (acc + 2 ^ bits) ^ bandsPerOctave ≤ x then rootFrom x bits (acc + 2 ^ bits) else rootFrom x bits acc

/-- The integer 24th root, rounded down, of a number below `2 ^ (24 * bits)` (R118). -/
def root24 (bits x : Nat) : Nat := rootFrom x bits 0

/-- The logarithmic entry for `C = 35 * DF` and `n = k - 33` (R118): `y` is the greatest number with
`y ^ 24 ≤ (2 * C) ^ 24 * 2 ^ n`, and the entry is `(y + 1) div 2`. With `DF` of 24 bits, `2 * C < 2 ^ 31`, so
`32 + n / 24` bits hold `y`. -/
def hybLog (df n : Nat) : Nat :=
  (root24 (32 + n / bandsPerOctave) ((2 * (linearCount * df)) ^ bandsPerOctave * 2 ^ n) + 1) / 2

/-- `hyb(DF, k)`, entry `k` of the emitted sequence, in mHz (R118). -/
def hyb (df k : Nat) : Nat :=
  if k ≤ linearCount - 3 then (k + 2) * df else hybLog df (k - (linearCount - 2))

/-! ## Variant Selector -/

/-- The first threshold on the encoded text length (R25, R150). -/
def threshold1 : Nat := 100

/-- The second threshold (R25, R150). -/
def threshold2 : Nat := 200

end Sys2Proof.Machine
end

