-- ==== Sys2Proof/Machine/Operands.lean ====
section
/-! DEFINITION. Operand forms: the payload bytes of `LOAD`, the operand ranges, the 64-bit extensions, the registers `GET`
names, the classification of `VSEL`. -/

namespace Sys2Proof.Machine

/-! ## The payload words of LOAD (R67) -/

/-- The four byte lanes of a payload word, most significant first (R67). -/
def wordBytes (w : Word) : List Byte :=
  [w.extractLsb' 24 8, w.extractLsb' 16 8, w.extractLsb' 8 8, w.extractLsb' 0 8]

/-- Every byte lane of the payload words, in stream order. -/
def laneBytes : List Word → List Byte
  | [] => []
  | w :: ws => wordBytes w ++ laneBytes ws

/-- `d[0] .. d[L-1]`, the payload (R67, R81). -/
def payloadBytes (len : BitVec 16) (payload : List Word) : List Byte := (laneBytes payload).take len.toNat

/-- The unused low byte lanes of the last payload word (R67). -/
def padBytes (len : BitVec 16) (payload : List Word) : List Byte := (laneBytes payload).drop len.toNat

/-- Every pad byte is zero (R67). -/
def padIsZero (len : BitVec 16) (payload : List Word) : Bool := (padBytes len payload).all fun b => b == 0#8

/-! ## Extensions to the 64 bits of a response (R7, R70) -/

/-- `zext_64`. -/
def zext64 {w : Nat} (v : BitVec w) : BitVec 64 := v.setWidth 64

/-- `sext_64`. -/
def sext64 {w : Nat} (v : BitVec w) : BitVec 64 := v.signExtend 64

/-- A level as `SPL` and the result memory hold it: 16 bits, two's complement (R16, R103). -/
def level (raw b : Nat) : BitVec 16 := BitVec.ofInt 16 (deq raw b)

/-! ## GET (R24, R158) -/

/-- What a register number of `GET` finds. -/
inductive RegisterRead where
  /-- Numbers 10 to 255 name no register (R24). -/
  | noRegister
  /-- The register holds no value (R158). -/
  | holdsNothing
  /-- The value, extended to 64 bits as R24 says. -/
  | value (v : BitVec 64)
deriving DecidableEq, Repr

/-- A register that can be empty, read by `GET`. -/
def optionalRead {w : Nat} (extend : BitVec w → BitVec 64) : Option (BitVec w) → RegisterRead
  | none => .holdsNothing
  | some v => .value (extend v)

/-- Register `r` of R24. -/
def readRegister (s : State) (r : BitVec 8) : RegisterRead :=
  match r.toNat with
  | 0 => .value (zext64 s.statusWord)
  | 1 => .value (zext64 s.flt)
  | 2 => .value (zext64 s.len)
  | 3 => .value (zext64 s.cur)
  | 4 => optionalRead zext64 s.raw
  | 5 => optionalRead sext64 s.spl
  | 6 => optionalRead zext64 s.frq
  | 7 => .value (zext64 s.df)
  | 8 => .value (zext64 s.record.recn)
  | 9 => .value (zext64 s.record.recw)
  | _ => .noRegister

/-! ## GETREC (R159) -/

/-- Field `j` of an entry, extended: 0 the frequency, unsigned, `j ≥ 1` the level `V[j-1]`, signed (R159). -/
def Entry.field (e : Entry) (j : Nat) : Option (BitVec 64) :=
  match j with
  | 0 => some (zext64 e.f)
  | j + 1 => (e.v[j]?).map sext64

/-- Field `j` of record `i` (R159). -/
def Record.field (r : Record) (i j : Nat) : Option (BitVec 64) :=
  match r.entries[i]? with
  | none => none
  | some e => e.field j

/-! ## VSEL (R150, R151) -/

/-- `select`: the explicit variant if one is given, else by the encoded text length (R151). -/
def selectVariant (ev : Option VariantKind) (tlen : BitVec 16) : VariantKind :=
  match ev with
  | some v => v
  | none =>
    if tlen.toNat < threshold1 then .spectrum
    else if tlen.toNat < threshold2 then .statistics
    else .pgram

end Sys2Proof.Machine
end

