-- ==== Sys2Proof/Machine/Ops.lean ====
section
/-! DEFINITION. The named operations over memory and registers: the payload buffer, completing a command, taking a fault,
reset, the prologue of a macro decode, and what the host does at the ports. -/

namespace Sys2Proof.Machine

/-- What a step or a meaning answers. -/
abbrev Result := Host.Outcome State Fault Refusal

/-! ## Memory -/

/-- The byte at an address, none where nothing has been written (R11, log entry 4). -/
def Memory.read : Memory → Nat → Option Byte
  | [], _ => none
  | (a, b) :: m, i => if a = i then some b else Memory.read m i

/-- `MemWrite(i, 1, v)`: one byte, the canonical form kept (R7). -/
def Memory.write : Memory → Nat → Byte → Memory
  | [], i, v => [(i, v)]
  | (a, b) :: m, i, v =>
    if i < a then (i, v) :: (a, b) :: m
    else if i = a then (i, v) :: m
    else (a, b) :: Memory.write m i v

/-- Bytes at consecutive addresses from `i` on. -/
def cellsFrom : (i : Nat) → List Byte → Memory
  | _, [] => []
  | i, b :: bs => (i, b) :: cellsFrom (i + 1) bs

/-- The loop of `LOAD`, `for t in 0 .. L-1: MemWrite(t, 1, d[t])` (R81), as one update: the bytes at addresses 0 to L-1,
and what the memory held above them. -/
def Memory.writeBlock (m : Memory) (bytes : List Byte) : Memory :=
  cellsFrom 0 bytes ++ m.filter fun c => decide (bytes.length ≤ c.1)

/-- The `n` bytes from address `i` on, none where one of them holds no value. The addresses of a memory rise, so one pass
finds them. -/
def Memory.readBytes : Memory → (i n : Nat) → Option (List Byte)
  | _, _, 0 => some []
  | [], _, _ + 1 => none
  | (a, b) :: m, i, n + 1 =>
    if a = i then (Memory.readBytes m (i + 1) n).map (b :: ·)
    else if a < i then Memory.readBytes m i (n + 1)
    else none

/-- The canonical form: addresses strictly rising. Since an unlisted address holds no value, no entry equals what an
unlisted address reads as. -/
def Memory.wf : Memory → Bool
  | [] => true
  | (a, _) :: m => (m.all fun c => decide (a < c.1)) && Memory.wf m

/-- The payload, `BUF[0] .. BUF[LEN-1]` (R11). -/
def State.payload (s : State) : Option (List Byte) := s.buf.readBytes 0 s.len.toNat

/-- What `readBits` finds. -/
inductive FieldRead where
  /-- Fewer than `n` bits remain: no value, and the cursor does not move (R48, R84). -/
  | outOfRange
  /-- A byte of the payload holds no value: in no state a run from reset reaches. -/
  | absent
  /-- The value and the new cursor. -/
  | field (v c : Nat)
deriving DecidableEq, Repr

/-- `readBits` at bit address `c` (R84): fails when fewer than `n` of the `8 * LEN` bits remain. -/
def State.readBits (s : State) (c n : Nat) : FieldRead :=
  if c + n > 8 * s.len.toNat then .outOfRange
  else
    match s.payload with
    | none => .absent
    | some bytes => .field (memRead bytes c n) (c + n)

/-! ## Completing a command -/

/-- `respond(v)`: the command ends with status OK and data `v` (R7, R70). -/
def State.respond (s : State) (v : BitVec 64) : State := { s with out := s.out ++ [⟨.ok, v⟩] }

/-- Taking a fault, `raise F(code)`: the block's whole trap entry (R176). There is no return from it: the next command
runs from this state (R181). -/
def State.raise (s : State) (c : FaultCode) : State :=
  { s with flt := setFault s.flt c, out := s.out ++ [⟨.fault c, 0#64⟩] }

/-- A command that completes with OK. -/
def finish (s : State) (v : BitVec 64) : Result := .next (s.respond v)

/-- A command that ends with a fault. -/
def fail (s : State) (c : FaultCode) : Result := .next (s.raise c)

/-! ## Emptying -/

/-- The registers that hold values of one decode: `CUR <- 0`, `RAW`, `SPL`, `FRQ` and `REC` empty. The prologue of a macro
decode (R131), performed also when the decode then faults. -/
def State.prologue (s : State) : State :=
  { s with record := Record.empty, cur := 0#20, raw := none, spl := none, frq := none }

/-- What `LOAD` and `MARKBAD` empty: the state of the previous line, `VAR` with it (R81, R83). -/
def State.clearLine (s : State) : State := { s.prologue with var := none }

/-! ## Reset -/

/-- The one reset of R200: every register takes its reset value (R201, R157), `BUF` is not written (R157). The ports and
the instance's parameter are not registers. -/
def State.resetRegisters (s : State) : State :=
  { State.reset with cfg := s.cfg, buf := s.buf, port := s.port, out := s.out }

/-! ## Results of a decode -/

/-- The registers after the last field of a decode: the cursor behind it, `RAW` the field, `SPL` its level, `FRQ` its
band's frequency (R132 to R135). -/
def State.afterField (s : State) (cur raw b freq : Nat) : State :=
  { s with
    cur := BitVec.ofNat 20 cur
    raw := some (BitVec.ofNat 32 raw)
    spl := some (level raw b)
    frq := some (BitVec.ofNat 64 freq) }

/-- The records of a decode, all at once (R22). -/
def State.storeRecord (s : State) (recw : BitVec 3) (entries : List Entry) : State :=
  { s with record := ⟨BitVec.ofNat 16 entries.length, recw, entries⟩ }

/-! ## The ports -/

/-- The host or the platform delivers events, after those already there (R60, R51). -/
def State.deliver (s : State) (events : List PortEvent) : State := { s with port := s.port ++ events }

/-- The words delivered before the first assertion of the reset input. -/
def wordsBeforeReset : List PortEvent → List Word
  | [] => []
  | .reset :: _ => []
  | .word w :: p => w :: wordsBeforeReset p

/-- What follows the first assertion of the reset input, none if there is no assertion. -/
def afterReset : List PortEvent → Option (List PortEvent)
  | [] => none
  | .reset :: p => some p
  | .word _ :: p => afterReset p

/-- The port without the first words of it, `rest` being the words still left before the first reset. -/
def portAfter (port : List PortEvent) (rest : List Word) : List PortEvent :=
  port.drop ((wordsBeforeReset port).length - rest.length)

end Sys2Proof.Machine
end

