-- ==== Sys2Proof/Machine/BandTables.lean ====
section
/-! DEFINITION. The Band Tables family: `ANSI`, `SETDF`, `HYB`. -/

namespace Sys2Proof.Machine

/-- `ANSI k` (R112): one entry of the band ROM, in mHz. -/
def execAnsi (k : BitVec 8) (s : State) : Result :=
  if k.toNat > 27 then fail s .illegalOperand
  else finish { s with frq := some (BitVec.ofNat 64 (ansiFreq k.toNat)) } (BitVec.ofNat 64 (ansiFreq k.toNat))

/-- `SETDF df` (R114). -/
def execSetdf (df : BitVec 24) (s : State) : Result :=
  if df = 0#24 then fail s .illegalOperand
  else finish { s with df := df, dfu := true } (zext64 df)

/-- `HYB k` (R117): entry `k` of the emitted sequence for the current `DF`, if 64 bits hold it. -/
def execHyb (k : BitVec 16) (s : State) : Result :=
  if hyb s.df.toNat k.toNat ≥ 2 ^ 64 then fail s .overflow
  else
    finish { s with frq := some (BitVec.ofNat 64 (hyb s.df.toNat k.toNat)) } (BitVec.ofNat 64 (hyb s.df.toNat k.toNat))

end Sys2Proof.Machine
end

