-- ==== Sys2Proof/WellFormed.lean ====
section
/-! DEFINITION. Which terms of `Instr` are commands. Every operand field is bounded by its type; the one check left is
that a `LOAD` carries as many payload words as its length asks for. -/

namespace Sys2Proof

/-- A `LOAD` of `L` bytes carries exactly `ceil(L / 4)` payload words (R67), that is the least number of words whose
lanes hold `L` bytes. Every other term is a command. -/
def Instr.wellFormed : Instr → Bool
  | .load len payload => decide (len.toNat ≤ 4 * payload.length ∧ 4 * payload.length < len.toNat + 4)
  | .nop => true
  | .markbad => true
  | .rdb _ => true
  | .deq _ => true
  | .ansi _ => true
  | .setdf _ => true
  | .hyb _ => true
  | .dspec => true
  | .dstat => true
  | .dpgram => true
  | .vsel _ _ => true
  | .dvar => true
  | .get _ => true
  | .getrec _ _ => true
  | .srst => true

end Sys2Proof
end

