-- ==== Sys2Proof/Machine/BitReader.lean ====
section
/-! DEFINITION. The Bit Reader family: `LOAD`, `MARKBAD`, `RDB`. -/

namespace Sys2Proof.Machine

/-- `LOAD` (R81): the pad test, the capacity test, then the payload in place of the old one. A term whose words do not fit
its length is no command (R67). -/
def execLoad (len : BitVec 16) (payload : List Word) (s : State) : Result :=
  if (Instr.load len payload).wellFormed = false then .refused .illFormedLoad
  else if padIsZero len payload = false then fail s .illegalCommand
  else if len.toNat > s.cfg.bufcap then fail s .illegalOperand
  else
    finish { s.clearLine with buf := s.buf.writeBlock (payloadBytes len payload), len := len, bst := .valid }
      (zext64 len)

/-- `MARKBAD` (R83). `BUF` is not written. -/
def execMarkbad (s : State) : Result :=
  finish { s.clearLine with len := 0#16, bst := .bad } 0#64

/-- `RDB n` (R85): `readBits(n)` at the cursor, which then stands behind the field. -/
def execRdb (n : BitVec 8) (s : State) : Result :=
  if n.toNat > 32 then fail s .illegalOperand
  else
    match s.bst with
    | .noPayload => fail s .empty
    | .bad => fail s .malformed
    | .valid =>
      match s.readBits s.cur.toNat n.toNat with
      | .outOfRange => fail s .outOfRange
      | .absent => .fault .payloadByteAbsent
      | .field v c =>
        finish { s with raw := some (BitVec.ofNat 32 v), cur := BitVec.ofNat 20 c } (BitVec.ofNat 64 v)

end Sys2Proof.Machine
end

