-- ==== Sys2Proof/Machine/Dequantizer.lean ====
section
/-! DEFINITION. The Dequantizer family: `DEQ`. -/

namespace Sys2Proof.Machine

/-- `DEQ b` (R102): the level of `RAW` at width `b`. `RAW` is kept. -/
def execDeq (b : BitVec 8) (s : State) : Result :=
  if b.toNat = 0 ∨ b.toNat > 32 then fail s .illegalOperand
  else
    match s.raw with
    | none => fail s .empty
    | some raw =>
      if raw.toNat ≥ 2 ^ b.toNat then fail s .illegalOperand
      else finish { s with spl := some (level raw.toNat b.toNat) } (sext64 (level raw.toNat b.toNat))

end Sys2Proof.Machine
end

