-- ==== Sys2Proof/Machine/RecordDecoders.lean ====
section
/-! DEFINITION. The Record Decoder family: `DSPEC`, `DSTAT`, `DPGRAM`, `DVAR`. -/

namespace Sys2Proof.Machine

/-- The common skeleton (R131): the prologue, the checks in order, the body over the payload, the response `RECN`. -/
def macroDecode (need : Nat) (overflows : Bool) (body : List Byte → State → State) (s : State) : Result :=
  match s.bst with
  | .noPayload => fail s.prologue .empty
  | .bad => fail s.prologue .malformed
  | .valid =>
    if 8 * s.len.toNat < need then fail s.prologue .truncated
    else if overflows then fail s.prologue .overflow
    else
      match s.payload with
      | none => .fault .payloadByteAbsent
      | some bytes => finish (body bytes s.prologue) (zext64 (body bytes s.prologue).record.recn)

/-! ## Spectrum (R132) -/

/-- `REC[k]` of a Spectrum record: band `k` and the level of the 12-bit field `k` (R132). -/
def spectrumEntry (bytes : List Byte) (k : Nat) : Entry :=
  ⟨BitVec.ofNat 64 (ansiFreq k), [level (memRead bytes (12 * k) 12) 12]⟩

/-- The body of `DSPEC` (R132): 28 records, and the registers after the last field. -/
def spectrumBody (bytes : List Byte) (s : State) : State :=
  (s.storeRecord 1#3 ((List.range 28).map (spectrumEntry bytes))).afterField 336 (memRead bytes 324 12) 12 (ansiFreq 27)

/-- Decoding a Spectrum payload (R131, R132). -/
def decodeSpectrum (s : State) : Result := macroDecode 336 false spectrumBody s

/-! ## Statistics (R133) -/

/-- `REC[k]` of a Statistics record: band `k` and the levels of its four bytes, Q1, Q2, Q3, Mean (R133, D38). -/
def statisticsEntry (bytes : List Byte) (k : Nat) : Entry :=
  ⟨BitVec.ofNat 64 (ansiFreq k), (List.range 4).map fun j => level (memRead bytes (32 * k + 8 * j) 8) 8⟩

/-- The body of `DSTAT` (R133). -/
def statisticsBody (bytes : List Byte) (s : State) : State :=
  (s.storeRecord 4#3 ((List.range 28).map (statisticsEntry bytes))).afterField 896 (memRead bytes 888 8) 8 (ansiFreq 27)

/-- Decoding a Statistics payload (R131, R133). -/
def decodeStatistics (s : State) : Result := macroDecode 896 false statisticsBody s

/-! ## Pgram (R134) -/

/-- `REC[k]` of a Pgram record: entry `k` of the emitted sequence and the level of byte `k` (R134). -/
def pgramEntry (df : Nat) (bytes : List Byte) (k : Nat) : Entry :=
  ⟨BitVec.ofNat 64 (hyb df k), [level (memRead bytes (8 * k) 8) 8]⟩

/-- The body of `DPGRAM` (R134): `N = LEN` records, and for `N ≥ 1` the registers after the last field. -/
def pgramBody (bytes : List Byte) (s : State) : State :=
  match s.len.toNat with
  | 0 => s.storeRecord 1#3 []
  | n + 1 =>
    (s.storeRecord 1#3 ((List.range (n + 1)).map (pgramEntry s.df.toNat bytes))).afterField (8 * (n + 1))
      (memRead bytes (8 * n) 8) 8 (hyb s.df.toNat n)

/-- The last, and largest, frequency of the record does not fit 64 bits (R131, R178). -/
def pgramOverflows (s : State) : Bool :=
  decide (1 ≤ s.len.toNat ∧ hyb s.df.toNat (s.len.toNat - 1) ≥ 2 ^ 64)

/-- Decoding a Pgram payload (R131, R134). -/
def decodePgram (s : State) : Result := macroDecode 0 (pgramOverflows s) pgramBody s

/-! ## The commands -/

/-- `DSPEC` (R132). -/
def execDspec (s : State) : Result := decodeSpectrum s

/-- `DSTAT` (R133). -/
def execDstat (s : State) : Result := decodeStatistics s

/-- `DPGRAM` (R134). -/
def execDpgram (s : State) : Result := decodePgram s

/-- `DVAR` (R137): the decoder `VAR` names, its prologue included; with no variant selected `Empty`, before any
prologue. -/
def execDvar (s : State) : Result :=
  match s.var with
  | none => fail s .empty
  | some .spectrum => decodeSpectrum s
  | some .statistics => decodeStatistics s
  | some .pgram => decodePgram s

end Sys2Proof.Machine
end

