-- ==== Sys2Proof/Machine/System.lean ====
section
/-! DEFINITION. The system and read-out commands: `NOP`, `SRST`, `GET`, `GETREC`. -/

namespace Sys2Proof.Machine

/-- `NOP` (R156). -/
def execNop (s : State) : Result := finish s 0#64

/-- `SRST` (R157). -/
def execSrst (s : State) : Result := finish s.resetRegisters 0#64

/-- `GET r` (R158). -/
def execGet (r : BitVec 8) (s : State) : Result :=
  match readRegister s r with
  | .noRegister => fail s .illegalOperand
  | .holdsNothing => fail s .empty
  | .value v => finish s v

/-- `GETREC j, i` (R159). -/
def execGetrec (j : BitVec 8) (i : BitVec 16) (s : State) : Result :=
  if i.toNat ≥ s.record.recn.toNat ∨ j.toNat > s.record.recw.toNat then fail s .illegalOperand
  else
    match s.record.field i.toNat j.toNat with
    | none => .fault .recordFieldAbsent
    | some v => finish s v

end Sys2Proof.Machine
end

