-- ==== Sys2Proof/Machine/VariantSelector.lean ====
section
/-! DEFINITION. The Variant Selector family: `VSEL`. -/

namespace Sys2Proof.Machine

/-- `VSEL ev, tlen` (R151). It cannot fault. -/
def execVsel (ev : Option VariantKind) (tlen : BitVec 16) (s : State) : Result :=
  finish { s with var := some (selectVariant ev tlen) } (zext64 (variantCode (some (selectVariant ev tlen))))

end Sys2Proof.Machine
end

