-- ==== Sys2Proof/Machine/Dispatch.lean ====
section
/-! DEFINITION. One arm per command: its meaning. -/

namespace Sys2Proof.Machine

/-- The meaning of each command. -/
def exec (i : Instr) (s : State) : Host.Outcome State Fault Refusal :=
  match i with
  | .nop => Sys2Proof.Machine.execNop s
  | .load len payload => Sys2Proof.Machine.execLoad len payload s
  | .markbad => Sys2Proof.Machine.execMarkbad s
  | .rdb n => Sys2Proof.Machine.execRdb n s
  | .deq b => Sys2Proof.Machine.execDeq b s
  | .ansi k => Sys2Proof.Machine.execAnsi k s
  | .setdf df => Sys2Proof.Machine.execSetdf df s
  | .hyb k => Sys2Proof.Machine.execHyb k s
  | .dspec => Sys2Proof.Machine.execDspec s
  | .dstat => Sys2Proof.Machine.execDstat s
  | .dpgram => Sys2Proof.Machine.execDpgram s
  | .vsel ev tlen => Sys2Proof.Machine.execVsel ev tlen s
  | .dvar => Sys2Proof.Machine.execDvar s
  | .get r => Sys2Proof.Machine.execGet r s
  | .getrec j k => Sys2Proof.Machine.execGetrec j k s
  | .srst => Sys2Proof.Machine.execSrst s

end Sys2Proof.Machine
end

