-- ==== Sys2Proof/Decode.lean ====
section
/-! DEFINITION. Decoding: from the words of the command port to commands (R61 to R69), and the encoder beside it. -/

namespace Sys2Proof

/-! ## The header word -/

/-- `op`, bits 31:24 of a header word (R61). -/
def headerOp (w : Word) : BitVec 8 := w.extractLsb' 24 8

/-- `a`, bits 23:16 (R61). -/
def headerA (w : Word) : BitVec 8 := w.extractLsb' 16 8

/-- `imm`, bits 15:0 (R61). -/
def headerImm (w : Word) : BitVec 16 := w.extractLsb' 0 16

/-- `imm24`, bits 23:0, the fields `a` and `imm` read as one (R61). -/
def headerImm24 (w : Word) : BitVec 24 := w.extractLsb' 0 24

/-- A header word from its three fields (R61). -/
def headerWord (op a : BitVec 8) (imm : BitVec 16) : Word := (op ++ a ++ imm : BitVec (8 + 8 + 16))

/-- A header word of format W (R62). -/
def headerWordW (op : BitVec 8) (imm24 : BitVec 24) : Word := (op ++ imm24 : BitVec (8 + 24))

/-- `ceil(L / 4)`, the number of payload words of a `LOAD` of `L` bytes (R67). -/
def payloadWordCount (len : BitVec 16) : Nat := (len.toNat + 3) / 4

/-- The length in words of the command that starts at header word `w`, a function of `w` alone (R68). -/
def commandLength (w : Word) : Nat :=
  if w &&& 0xFFFF0000#32 = 0x01000000#32 then 1 + payloadWordCount (headerImm w) else 1

/-- The explicit variant that two bits name (R151): 0 none, 1 Spectrum, 2 Statistics, 3 Pgram. -/
def decodeVariant (ev : BitVec 2) : Option VariantKind :=
  match ev.toNat with
  | 1 => some .spectrum
  | 2 => some .statistics
  | 3 => some .pgram
  | _ => none

/-- The two bits that name an explicit variant (R151), the same code as `VAR` has (R20). -/
def encodeVariant : Option VariantKind → BitVec 2
  | none => 0#2
  | some .spectrum => 1#2
  | some .statistics => 2#2
  | some .pgram => 3#2

/-! ## Decoding -/

/-- Why a header word is no command (R65). -/
inductive IllegalWord where
  /-- Case (a): the `op` value is not in the table. -/
  | unassignedOpcode
  /-- Case (b): a table opcode with a non-zero reserved field. -/
  | reservedFieldNotZero
deriving DecidableEq, Repr

/-- What one header word says. -/
inductive Header where
  /-- A command of one word. -/
  | single (i : Instr)
  /-- The header of a `LOAD` of `len` bytes: its payload words follow (R67). -/
  | load (len : BitVec 16)
  /-- No command (R65). -/
  | illegal (why : IllegalWord)
deriving DecidableEq, Repr

/-- The header word of a command whose reserved field must be zero (R62, R65). -/
def whenZero (reserved : Nat) (h : Header) : Header :=
  if reserved = 0 then h else .illegal .reservedFieldNotZero

/-- The opcode map (R64), each format with its reserved field (R62, R65). -/
def decodeHeader (w : Word) : Header :=
  match (headerOp w).toNat with
  | 0x00 => whenZero (headerImm24 w).toNat (.single .nop)
  | 0x01 => whenZero (headerA w).toNat (.load (headerImm w))
  | 0x02 => whenZero (headerImm24 w).toNat (.single .markbad)
  | 0x03 => whenZero (headerImm w).toNat (.single (.rdb (headerA w)))
  | 0x10 => whenZero (headerImm w).toNat (.single (.deq (headerA w)))
  | 0x20 => whenZero (headerImm w).toNat (.single (.ansi (headerA w)))
  | 0x21 => .single (.setdf (headerImm24 w))
  | 0x22 => whenZero (headerA w).toNat (.single (.hyb (headerImm w)))
  | 0x30 => whenZero (headerImm24 w).toNat (.single .dspec)
  | 0x31 => whenZero (headerImm24 w).toNat (.single .dstat)
  | 0x32 => whenZero (headerImm24 w).toNat (.single .dpgram)
  | 0x33 => whenZero ((headerA w).extractLsb' 2 6).toNat
      (.single (.vsel (decodeVariant ((headerA w).extractLsb' 0 2)) (headerImm w)))
  | 0x34 => whenZero (headerImm24 w).toNat (.single .dvar)
  | 0x40 => whenZero (headerImm w).toNat (.single (.get (headerA w)))
  | 0x41 => .single (.getrec (headerA w) (headerImm w))
  | 0x7F => whenZero (headerImm24 w).toNat (.single .srst)
  | _ => .illegal .unassignedOpcode

/-- What the words on the command port begin with (R68). -/
inductive Decoded where
  /-- A whole command, and the words after it. -/
  | command (i : Instr) (rest : List Word)
  /-- A word that is no command, itself one word long (R65), and the words after it. -/
  | illegal (why : IllegalWord) (rest : List Word)
  /-- No word, or a `LOAD` whose payload words have not all arrived (R68). -/
  | incomplete
deriving DecidableEq, Repr

/-- Cuts the first command off a sequence of words (R68). Total: every sequence begins with a command, with an illegal
word, or is incomplete. -/
def decode : List Word → Decoded
  | [] => .incomplete
  | w :: ws =>
    match decodeHeader w with
    | .single i => .command i ws
    | .illegal why => .illegal why ws
    | .load len =>
      if payloadWordCount len ≤ ws.length then
        .command (.load len (ws.take (payloadWordCount len))) (ws.drop (payloadWordCount len))
      else .incomplete

/-! ## Encoding -/

/-- The words of a command, by the opcode map (R64) and, for `LOAD`, its payload words after the header (R67). -/
def encode : Instr → List Word
  | .nop => [headerWord 0x00 0 0]
  | .load len payload => headerWord 0x01 0 len :: payload
  | .markbad => [headerWord 0x02 0 0]
  | .rdb n => [headerWord 0x03 n 0]
  | .deq b => [headerWord 0x10 b 0]
  | .ansi k => [headerWord 0x20 k 0]
  | .setdf df => [headerWordW 0x21 df]
  | .hyb k => [headerWord 0x22 0 k]
  | .dspec => [headerWord 0x30 0 0]
  | .dstat => [headerWord 0x31 0 0]
  | .dpgram => [headerWord 0x32 0 0]
  | .vsel ev tlen => [headerWord 0x33 ((0#6 ++ encodeVariant ev : BitVec (6 + 2))) tlen]
  | .dvar => [headerWord 0x34 0 0]
  | .get r => [headerWord 0x40 r 0]
  | .getrec j i => [headerWord 0x41 j i]
  | .srst => [headerWord 0x7F 0 0]

/-! ## The opcode table as mask and match -/

/-- A row of R64: a header word `w` selects the row when `w &&& mask = pattern`. -/
structure OpcodeRow where
  mnemonic : String
  pattern : Word
  mask : Word
deriving DecidableEq, Repr

/-- The sixteen rows of R64, in its order. -/
def opcodeTable : List OpcodeRow :=
  [⟨"NOP", 0x00000000#32, 0xFFFFFFFF#32⟩, ⟨"LOAD", 0x01000000#32, 0xFFFF0000#32⟩,
   ⟨"MARKBAD", 0x02000000#32, 0xFFFFFFFF#32⟩, ⟨"RDB", 0x03000000#32, 0xFF00FFFF#32⟩,
   ⟨"DEQ", 0x10000000#32, 0xFF00FFFF#32⟩, ⟨"ANSI", 0x20000000#32, 0xFF00FFFF#32⟩,
   ⟨"SETDF", 0x21000000#32, 0xFF000000#32⟩, ⟨"HYB", 0x22000000#32, 0xFFFF0000#32⟩] ++
  [⟨"DSPEC", 0x30000000#32, 0xFFFFFFFF#32⟩, ⟨"DSTAT", 0x31000000#32, 0xFFFFFFFF#32⟩,
   ⟨"DPGRAM", 0x32000000#32, 0xFFFFFFFF#32⟩, ⟨"VSEL", 0x33000000#32, 0xFFFC0000#32⟩,
   ⟨"DVAR", 0x34000000#32, 0xFFFFFFFF#32⟩, ⟨"GET", 0x40000000#32, 0xFF00FFFF#32⟩,
   ⟨"GETREC", 0x41000000#32, 0xFF000000#32⟩, ⟨"SRST", 0x7F000000#32, 0xFFFFFFFF#32⟩]

/-- A header word selects a row (R64). -/
def OpcodeRow.selects (r : OpcodeRow) (w : Word) : Bool := w &&& r.mask == r.pattern

/-- The mnemonic of a command, as R64 spells it. -/
def Instr.mnemonic : Instr → String
  | .nop => "NOP"
  | .load _ _ => "LOAD"
  | .markbad => "MARKBAD"
  | .rdb _ => "RDB"
  | .deq _ => "DEQ"
  | .ansi _ => "ANSI"
  | .setdf _ => "SETDF"
  | .hyb _ => "HYB"
  | .dspec => "DSPEC"
  | .dstat => "DSTAT"
  | .dpgram => "DPGRAM"
  | .vsel _ _ => "VSEL"
  | .dvar => "DVAR"
  | .get _ => "GET"
  | .getrec _ _ => "GETREC"
  | .srst => "SRST"

/-- The mnemonic of the command whose header word this is, none for an illegal word. -/
def Header.mnemonic : Header → Option String
  | .single i => some i.mnemonic
  | .load _ => some "LOAD"
  | .illegal _ => none

/-! ## Instructions numbered as the opcode table numbers them -/

/-- The words of the instruction whose bits are the low `nbits` of `w`, every bit above them 0: the first word is bits
31:0, and a `LOAD`'s payload words count on from there. -/
def tableWords (nbits w : Nat) : List Word :=
  let v := w % 2 ^ nbits
  let header : Word := BitVec.ofNat 32 v
  header :: (List.range (commandLength header - 1)).map fun k => BitVec.ofNat 32 (v / 2 ^ (32 * (k + 1)))

/-- The instruction the decoder reads from those words; none where it refuses. -/
def decodeTableWord (nbits w : Nat) : Option Instr :=
  match decode (tableWords nbits w) with
  | .command i _ => some i
  | .illegal _ _ => none
  | .incomplete => none

end Sys2Proof
end

