-- ==== Sys2Proof/Machine/Fetch.lean ====
section
/-! DEFINITION. What the block takes from its ports next: a command, an illegal word, the reset input, or nothing yet. -/

namespace Sys2Proof.Machine

/-- The next thing that happens at the ports, with the state after the words it took. -/
inductive Fetched where
  /-- A whole command, its words consumed (R67, R68). -/
  | command (i : Instr) (s : State)
  /-- A word that is no command, that one word consumed (R65). -/
  | illegal (s : State)
  /-- The reset input is asserted before another command is complete: the words of a partly delivered command are
  discarded with it (R200). -/
  | reset (s : State)
  /-- No complete command and no reset: the block takes no step (R68, R188). -/
  | waiting
deriving DecidableEq, Repr

/-- Cuts the next command off the command port (R68, R200). Commands whose last word came before the reset input was
asserted run first (R180, log entry 5). -/
def State.fetch (s : State) : Fetched :=
  match decode (wordsBeforeReset s.port) with
  | .command i rest => .command i { s with port := portAfter s.port rest }
  | .illegal _ rest => .illegal { s with port := portAfter s.port rest }
  | .incomplete =>
    match afterReset s.port with
    | some p => .reset { s with port := p }
    | none => .waiting

/-- A word that is no command ends with `IllegalCommand` and changes nothing but `FLT` (R65, R174). -/
def takeIllegal (s : State) : Result := fail s .illegalCommand

/-- The reset input: the reset state, and no response (R200). -/
def takeReset (s : State) : Result := .next s.resetRegisters

/-- No complete command: the block holds its state (R68, R188, log entry 7). -/
def wait (s : State) : Result := .next s

/-- The port with words put before everything on it: they are the next to be fetched. -/
def State.putWords (s : State) (ws : List Word) : State := { s with port := ws.map .word ++ s.port }

end Sys2Proof.Machine
end

