-- ==== Sys2Proof/Machine/Step.lean ====
section
/-! DEFINITION. One step of the block: the next command, illegal word or reset at its ports, or a wait. -/

namespace Sys2Proof.Machine

/-- One atomic step (R8, R51): what stands next at the ports is taken whole. -/
def step (s : State) : Host.Outcome State Fault Refusal :=
  match s.fetch with
  | .command i t => exec i t
  | .illegal t => takeIllegal t
  | .reset t => takeReset t
  | .waiting => wait s

/-- The instruction whose bits are the low `nbits` of `w`, put where the next step fetches: at the front of the command
port. -/
def State.withFetchWord (s : State) (nbits w : Nat) : State := s.putWords (tableWords nbits w)

end Sys2Proof.Machine
end

