-- ==== Sys2Proof/Machine/Assembler.lean ====
section
/-! DEFINITION. The assembler syntax and the pseudo-commands (R71, R72): one line of text to a command. Notation of the
spec, over the commands; no step of the block reads text. -/

namespace Sys2Proof.Machine

/-- What the assembler makes of a line. -/
inductive AsmLine where
  /-- An empty line, or a comment only. -/
  | blank
  /-- A command. -/
  | command (i : Instr)
  /-- No line of R71 or R72, or an operand that does not fit its field (R71). -/
  | rejected
deriving DecidableEq, Repr

/-! ## Characters and numbers -/

/-- White space within a line. -/
def isBlank (c : Char) : Bool := c == ' ' || c == '\t'

/-- A line without white space at its two ends. -/
def trimChars (cs : List Char) : List Char := ((cs.dropWhile isBlank).reverse.dropWhile isBlank).reverse

/-- The value of a digit in a base of at most 16. -/
def digitValue (base : Nat) (c : Char) : Option Nat :=
  let v :=
    if '0' ≤ c ∧ c ≤ '9' then c.toNat - '0'.toNat
    else if 'a' ≤ c ∧ c ≤ 'f' then c.toNat - 'a'.toNat + 10
    else if 'A' ≤ c ∧ c ≤ 'F' then c.toNat - 'A'.toNat + 10
    else 16
  if v < base then some v else none

/-- The digits of a number after the value read so far. -/
def digitsFrom (base : Nat) : (acc : Nat) → List Char → Option Nat
  | acc, [] => some acc
  | acc, c :: cs =>
    match digitValue base c with
    | some d => digitsFrom base (base * acc + d) cs
    | none => none

/-- A number, decimal or with `0x` hexadecimal (R71). -/
def numberOf : List Char → Option Nat
  | [] => none
  | ['0', 'x'] => none
  | '0' :: 'x' :: cs => digitsFrom 16 0 cs
  | cs => digitsFrom 10 0 cs

/-- An operand in a field of `w` bits, as it stands if it fits (R71). -/
def fitField (w n : Nat) : Option (BitVec w) := if n < 2 ^ w then some (BitVec.ofNat w n) else none

/-- A numeric operand in a field of `w` bits. -/
def numberOperand (w : Nat) (cs : List Char) : Option (BitVec w) := (numberOf cs).bind (fitField w)

/-- The variant names of `VSET` (R72). -/
def variantName (cs : List Char) : Option VariantKind :=
  match String.ofList cs with
  | "SPECTRUM" => some .spectrum
  | "STATISTICS" => some .statistics
  | "PGRAM" => some .pgram
  | _ => none

/-- The operand `ev` of `VSEL`: a name or a number 0 to 3 (R71). -/
def variantOperand (cs : List Char) : Option (Option VariantKind) :=
  match variantName cs with
  | some v => some (some v)
  | none => if String.ofList cs = "NONE" then some none else (numberOperand 2 cs).map decodeVariant

/-- The operand `r` of `GET`: a register name of R24, or a number (R71). -/
def registerOperand (cs : List Char) : Option (BitVec 8) :=
  match String.ofList cs with
  | "STATUS" => some 0
  | "FLT" => some 1
  | "LEN" => some 2
  | "CUR" => some 3
  | "RAW" => some 4
  | "SPL" => some 5
  | "FRQ" => some 6
  | "DF" => some 7
  | "RECN" => some 8
  | "RECW" => some 9
  | _ => numberOperand 8 cs

/-! ## The payload of LOAD -/

/-- An even number of hexadecimal digits, two per byte, first byte first, with optional spaces between bytes (R71). -/
def hexBytes : List Char → Option (List Byte)
  | [] => some []
  | [_] => none
  | h :: l :: cs =>
    if isBlank h then hexBytes (l :: cs)
    else match digitValue 16 h, digitValue 16 l, hexBytes cs with
    | some h, some l, some bs => some (BitVec.ofNat 8 (16 * h + l) :: bs)
    | _, _, _ => none

/-- Payload words from bytes, most significant lane first, pad lanes zero (R67). -/
def packWords : List Byte → List Word
  | [] => []
  | [a] => [(a ++ 0#24 : BitVec (8 + 24))]
  | [a, b] => [(a ++ b ++ 0#16 : BitVec (8 + 8 + 16))]
  | [a, b, c] => [(a ++ b ++ c ++ 0#8 : BitVec (8 + 8 + 8 + 8))]
  | a :: b :: c :: d :: bs => (a ++ b ++ c ++ d : BitVec (8 + 8 + 8 + 8)) :: packWords bs

/-- The `LOAD` of a payload, if its length fits the field `imm`. -/
def loadOf (bytes : List Byte) : Option Instr :=
  (fitField 16 bytes.length).map fun len => .load len (packWords bytes)

/-- The operand of `LOAD`: `-` for the empty payload, or the bytes in hexadecimal (R71). -/
def loadOperand : List Char → Option Instr
  | [] => none
  | ['-'] => loadOf []
  | cs => (hexBytes cs).bind loadOf

/-! ## A line -/

/-- Operands separated by a comma, white space around them dropped; no operands from no text. -/
def splitOperands (cs : List Char) : List (List Char) :=
  match trimChars cs with
  | [] => []
  | cs => (cs.splitOn ',').map trimChars

/-- The command of a mnemonic or pseudo-command and its operands (R71, R72). -/
def commandOf (mnemonic : String) (text : List Char) : Option Instr :=
  match mnemonic, splitOperands text with
  | "NOP", [] => some .nop
  | "LOAD", _ => loadOperand (trimChars text)
  | "MARKBAD", [] => some .markbad
  | "RDB", [n] => (numberOperand 8 n).map .rdb
  | "DEQ", [b] => (numberOperand 8 b).map .deq
  | "ANSI", [k] => (numberOperand 8 k).map .ansi
  | "SETDF", [df] => (numberOperand 24 df).map .setdf
  | "HYB", [k] => (numberOperand 16 k).map .hyb
  | "DSPEC", [] => some .dspec
  | "DSTAT", [] => some .dstat
  | "DPGRAM", [] => some .dpgram
  | "VSEL", [ev, tlen] => (variantOperand ev).bind fun ev => (numberOperand 16 tlen).map (.vsel ev)
  | "DVAR", [] => some .dvar
  | "GET", [r] => (registerOperand r).map .get
  | "GETREC", [j, i] => (numberOperand 8 j).bind fun j => (numberOperand 16 i).map (.getrec j)
  | "SRST", [] => some .srst
  | "RD12", [] => some (.rdb 12)
  | "RD8", [] => some (.rdb 8)
  | "DQ12", [] => some (.deq 12)
  | "DQ8", [] => some (.deq 8)
  | "VAUTO", [tlen] => (numberOperand 16 tlen).map (.vsel none)
  | "VSET", [v] => (variantName v).map fun v => .vsel (some v) 0
  | _, _ => none

/-- One line of assembler text (R71): the comment dropped, then a mnemonic and its operands. -/
def assemble (line : String) : AsmLine :=
  let cs := trimChars (line.toList.takeWhile fun c => c != ';')
  match cs with
  | [] => .blank
  | cs =>
    match commandOf (String.ofList (cs.takeWhile fun c => !isBlank c)) (cs.dropWhile fun c => !isBlank c) with
    | some i => .command i
    | none => .rejected

end Sys2Proof.Machine
end

