-- ==== Sys2Proof/Safety.lean ====
section
/-! DEFINITION. The terms the claims are stated in: the invariant of R27, the states a run reaches, a sequence of commands,
what a host collects from its responses, and the text of a `LOAD` line. -/

namespace Sys2Proof.Machine

/-- What every reachable state satisfies: R27, and the forms of `BUF` and `REC` the model relies on. `BST ≠ 3` and
`VAR ≤ 3` hold by type. -/
structure Inv (s : State) : Prop where
  /-- `BUFCAP` is in the range of R6. -/
  admitted : s.cfg.Admitted
  /-- `BUF` keeps its canonical form. -/
  bufCanonical : s.buf.wf = true
  /-- `BUF` has `BUFCAP` bytes (R11). -/
  bufWithinCapacity : ∀ c ∈ s.buf, c.1 < s.cfg.bufcap
  /-- `BUF[0]` to `BUF[LEN-1]` hold the payload (R11). -/
  payloadHeld : ∃ bytes, s.payload = some bytes
  /-- R27 item 1. -/
  lenLe : s.len.toNat ≤ s.cfg.bufcap
  /-- R27 item 1. -/
  curLe : s.cur.toNat ≤ 8 * s.len.toNat
  /-- R27 item 2. -/
  noPayloadEmpty : s.bst = .noPayload → s.len = 0#16
  /-- R27 item 2. -/
  badEmpty : s.bst = .bad → s.len = 0#16 ∧ s.cur = 0#20
  /-- R27 item 3. -/
  dfPositive : 1 ≤ s.df.toNat
  /-- R27 item 3. -/
  dfDefault : s.dfu = false → s.df = 7629#24
  /-- R27 item 4. -/
  splRange : ∀ v, s.spl = some v → -636 ≤ v.toInt ∧ v.toInt ≤ 18564
  /-- R27 item 5. -/
  recwLegal : s.record.recw = 0#3 ∨ s.record.recw = 1#3 ∨ s.record.recw = 4#3
  /-- R27 item 5. -/
  recwZero : s.record.recw = 0#3 → s.record.recn = 0#16
  /-- R27 item 5. -/
  recwFour : s.record.recw = 4#3 → s.record.recn = 28#16
  /-- R27 item 5. -/
  recnLe : s.record.recn.toNat ≤ s.cfg.reccap
  /-- Every record below `RECN` is there (R22). -/
  recordsHeld : s.record.entries.length = s.record.recn.toNat
  /-- Every record has `RECW` levels (R22). -/
  levelsHeld : ∀ e ∈ s.record.entries, e.v.length = s.record.recw.toNat
  /-- R27 item 6. -/
  recordsValid : s.record.recn ≠ 0#16 → s.bst = .valid
  /-- R27 item 6. -/
  frequenciesRise : s.record.entries.Pairwise fun e e' => e.f.toNat < e'.f.toNat
  /-- R27 item 7. -/
  fltBitZero : s.flt.getLsbD 0 = false

/-- The reset state of an instance built with a given parameter. -/
def State.resetOf (c : Config) : State := { State.reset with cfg := c }

/-- The states an admitted instance reaches from power-on, whatever is delivered at its ports and whenever. -/
inductive Reachable : State → Prop where
  | powerOn (c : Config) (h : c.Admitted) : Reachable (State.resetOf c)
  | deliver (s : State) (events : List PortEvent) (h : Reachable s) : Reachable (s.deliver events)
  | step (s t : State) (h : Reachable s) (hs : Sys2Proof.Machine.step s = .next t) : Reachable t

/-- Commands one after the other, each to completion (R51). -/
def execAll : List Instr → State → Result
  | [], s => .next s
  | i :: is, s =>
    match exec i s with
    | .next t => execAll is t
    | .fault r => .fault r
    | .refused r => .refused r

/-- `DSPEC`, `DSTAT`, `DPGRAM`, and `DVAR` with a variant selected: the commands that perform the prologue (R131, R176). -/
def runsPrologue (i : Instr) (s : State) : Bool :=
  match i with
  | .dspec => true
  | .dstat => true
  | .dpgram => true
  | .dvar => s.var.isSome
  | .nop => false
  | .load _ _ => false
  | .markbad => false
  | .rdb _ => false
  | .deq _ => false
  | .ansi _ => false
  | .setdf _ => false
  | .hyb _ => false
  | .vsel _ _ => false
  | .get _ => false
  | .getrec _ _ => false
  | .srst => false

/-- The command ends with the fault `c`: the next state's last response is (c, 0), the one response it adds (R70). -/
def EndsWith (i : Instr) (s : State) (c : FaultCode) : Prop :=
  ∃ t, exec i s = .next t ∧ t.out = s.out ++ [⟨.fault c, 0#64⟩]

/-- The rows a host collects from the responses of `RDB; DEQ; ANSI k` or `RDB; DEQ; HYB k`, round after round (R135). -/
def hostRows1 : List Response → List Entry
  | _ :: d :: f :: rs => ⟨f.data, [d.data.setWidth 16]⟩ :: hostRows1 rs
  | _ => []

/-- The rows a host collects from four rounds of `RDB; DEQ` and one `ANSI k`, round after round (R135). -/
def hostRows4 : List Response → List Entry
  | _ :: d0 :: _ :: d1 :: _ :: d2 :: _ :: d3 :: f :: rs =>
    ⟨f.data, [d0.data.setWidth 16, d1.data.setWidth 16, d2.data.setWidth 16, d3.data.setWidth 16]⟩ :: hostRows4 rs
  | _ => []

/-- A hexadecimal digit as the assembler text writes it (R71). -/
def hexDigit (n : Nat) : Char :=
  ['0', '1', '2', '3', '4', '5', '6', '7', '8', '9', 'A', 'B', 'C', 'D', 'E', 'F'].getD n '0'

/-- A byte in hexadecimal: two digits, the more significant first (R71). -/
def hexByte (b : Byte) : List Char := [hexDigit (b.toNat / 16), hexDigit (b.toNat % 16)]

/-- The operand `<hex>` of R71: a first byte, and further bytes, each after a number of spaces. -/
def hexText (b : Byte) (more : List (Nat × Byte)) : List Char :=
  hexByte b ++ more.flatMap fun c => List.replicate c.1 ' ' ++ hexByte c.2

/-- The line `LOAD <hex>` of R71. -/
def loadLine (b : Byte) (more : List (Nat × Byte)) : String :=
  String.ofList (['L', 'O', 'A', 'D', ' '] ++ hexText b more)

end Sys2Proof.Machine
end

