-- ==== Sys2Proof/Certificates/Slice0/Obligations.lean ====
section
/-! DEFINITION. The statements for the provers. Each docstring names the rule or section of `spec/` it formalises. -/

open Sys2Proof Sys2Proof.Machine

/-! ## Encoding and decoding -/

/-- Every command, with every operand its fields admit, is read back from its words, and the words after it are left
(30_encoding.md sections 2, 4 and 6). -/
def Obligations.DecodeOfEncodedCommand : Prop :=
  ∀ (i : Instr) (rest : List Word), i.wellFormed = true → decode (encode i ++ rest) = .command i rest

/-- What decodes to a command is that command's encoding: no bit of a command's words is ignored (30_encoding.md sections
2, 5 and 6; decision D22). -/
def Obligations.EncodeOfDecodedCommand : Prop :=
  ∀ (ws rest : List Word) (i : Instr), decode ws = .command i rest → i.wellFormed = true ∧ encode i ++ rest = ws

/-- The decoder gives a header word the command of exactly the row whose mask and match it meets, and no word meets two
rows (30_encoding.md section 4). -/
def Obligations.DecoderFollowsMaskAndMatch : Prop :=
  (∀ (w : Word), ∀ r ∈ opcodeTable, (r.selects w = true ↔ (decodeHeader w).mnemonic = some r.mnemonic)) ∧
  (∀ (w : Word), ∀ r ∈ opcodeTable, ∀ r' ∈ opcodeTable, r.selects w = true → r'.selects w = true → r = r')

/-- R65: a header word that matches no row is an illegal command of one word, ends with status 4 and changes nothing but
`FLT`; the words of its cases (a) and (b) match no row. -/
def Obligations.WordOfNoRowIsIllegalCommand : Prop :=
  (∀ (s : State) (w : Word) (p : List PortEvent), s.port = .word w :: p → (∀ r ∈ opcodeTable, r.selects w = false) →
    step s = .next { s with
      port := p
      flt := s.flt ||| 0x10#8
      out := s.out ++ [⟨.fault .illegalCommand, 0#64⟩] }) ∧
  (Status.fault .illegalCommand).code = 4#3 ∧
  (∀ (w : Word), (headerOp w).toNat ∉ [0x00, 0x01, 0x02, 0x03, 0x10, 0x20, 0x21, 0x22, 0x30, 0x31, 0x32, 0x33, 0x34, 0x40,
    0x41, 0x7F] → ∀ r ∈ opcodeTable, r.selects w = false) ∧
  (∀ (w : Word), (headerOp w).toNat ∈ [0x00, 0x02, 0x30, 0x31, 0x32, 0x34, 0x7F] → headerImm24 w ≠ 0#24 →
    ∀ r ∈ opcodeTable, r.selects w = false) ∧
  (∀ (w : Word), (headerOp w).toNat ∈ [0x03, 0x10, 0x20, 0x40] → headerImm w ≠ 0#16 →
    ∀ r ∈ opcodeTable, r.selects w = false) ∧
  (∀ (w : Word), (headerOp w).toNat ∈ [0x01, 0x22] → headerA w ≠ 0#8 → ∀ r ∈ opcodeTable, r.selects w = false) ∧
  (∀ (w : Word), (headerOp w).toNat = 0x33 → w.extractLsb' 18 6 ≠ 0#6 → ∀ r ∈ opcodeTable, r.selects w = false)

/-- Words written out from the encodings of 30_encoding.md section 4 (95_test_vectors.md sections 2.9 and 1.6) decode to
the commands they stand for: one of each family. -/
def Obligations.WrittenOutWordsDecode : Prop :=
  decode [0x01000003#32, 0x61CBAB00#32] = .command (.load 3#16 [0x61CBAB00#32]) [] ∧
  decode [0x030C0000#32] = .command (.rdb 12#8) [] ∧
  decode [0x10080000#32] = .command (.deq 8#8) [] ∧
  decode [0x21001DCD#32] = .command (.setdf 7629#24) [] ∧
  decode [0x34000000#32] = .command .dvar [] ∧
  decode [0x330300C8#32] = .command (.vsel (some .pgram) 200#16) [] ∧
  decode [0x4101001B#32] = .command (.getrec 1#8 27#16) [] ∧
  decode [0x01010000#32] = .illegal .reservedFieldNotZero [] ∧
  decode [0x7E000000#32] = .illegal .unassignedOpcode []

/-- The length of a command is a function of its header word alone, and cutting by it is total: a command takes exactly
that many words, an illegal word is one word long, and words are incomplete exactly when fewer are there
(30_encoding.md section 6). -/
def Obligations.HeaderWordTellsCommandLength : Prop :=
  ∀ (w : Word) (ws : List Word),
    (decode (w :: ws) = .incomplete ↔ ws.length + 1 < commandLength w) ∧
    (∀ i rest, decode (w :: ws) = .command i rest →
      encode i = (w :: ws).take (commandLength w) ∧ rest = (w :: ws).drop (commandLength w)) ∧
    (∀ why rest, decode (w :: ws) = .illegal why rest → commandLength w = 1 ∧ rest = ws)

/-! ## The step -/

/-- When the words on the command port begin with the command `i`, the step is `exec i` on the state whose port holds what
comes after it (30_encoding.md section 6; 20_memory.md section 6). What comes after may hold an assertion of the reset input:
that a command wholly there runs before that reset is the model's reading, log entry 5, from "A command, once its last word
has arrived, always completes" (60_exceptions.md section 4). -/
def Obligations.StepRunsDecodedCommand : Prop :=
  ∀ (s : State) (ws rest : List Word) (p : List PortEvent) (i : Instr),
    s.port = ws.map .word ++ p → decode ws = .command i rest →
    step s = exec i { s with port := rest.map .word ++ p }

/-- With no complete command on the port and no reset, the block holds its state and gives no response (30_encoding.md
section 6, 60_exceptions.md section 6). That a wait is a step with nothing changed is the model's reading: log entry 7. -/
def Obligations.IncompleteCommandChangesNothing : Prop :=
  ∀ (s : State) (ws : List Word), s.port = ws.map .word → decode ws = .incomplete → step s = .next s

/-- The reset input: the words of a partly delivered command are discarded, the registers take the values of R201, there
is no response, and the next word is a header word (70_reset_and_hazards.md section 1). That `BUF` keeps its bytes is the
model's reading, log entry 4: the spec leaves `BUF` after reset unspecified, and says that the reset input has the effect of
`SRST`, which writes everything but `BUF` (45_system.md). -/
def Obligations.ResetInputDiscardsPartialCommand : Prop :=
  ∀ (s : State) (ws : List Word) (p : List PortEvent),
    s.port = ws.map .word ++ .reset :: p → decode ws = .incomplete →
    step s = .next { s with
      len := 0#16, bst := .noPayload, cur := 0#20, raw := none, spl := none, frq := none, df := 7629#24, dfu := false,
      var := none, flt := 0#8, record := ⟨0#16, 0#3, []⟩, port := p }

/-! ## What each command does -/

/-- R156, whole: `NOP` responds 0 and writes nothing, its word is zero, and a word with `op` 0 and another bit set is no
`NOP`. -/
def Obligations.NopOnlyResponds : Prop :=
  (∀ (s : State), exec .nop s = .next { s with out := s.out ++ [⟨.ok, 0#64⟩] }) ∧
  encode .nop = [0x00000000#32] ∧
  decodeHeader 0x00000000#32 = .single .nop ∧
  (∀ (w : Word), headerOp w = 0#8 → w ≠ 0#32 → decodeHeader w = .illegal .reservedFieldNotZero)

/-- `LOAD` of a payload that fits, with zero pad lanes: byte `t` of the payload, from word `t div 4` and lane
`t mod 4`, most significant lane first, is stored at address `t`; every other byte of `BUF` is as before; the registers
become those of the new line and no other register changes (40_bit_reader.md section 3, 30_encoding.md section 6). -/
def Obligations.LoadStoresPayload : Prop :=
  ∀ (s : State) (len : BitVec 16) (ws : List Word),
    (Instr.load len ws).wellFormed = true → len.toNat ≤ s.cfg.bufcap →
    (∀ k, len.toNat ≤ k → k < 4 * ws.length → (ws.getD (k / 4) 0#32).toNat / 2 ^ (24 - 8 * (k % 4)) % 256 = 0) →
    ∃ t, exec (.load len ws) s = .next t ∧
      t = { s with
        buf := t.buf, len := len, bst := .valid, cur := 0#20, raw := none, spl := none, frq := none, var := none,
        record := ⟨0#16, 0#3, []⟩, out := s.out ++ [⟨.ok, BitVec.ofNat 64 len.toNat⟩] } ∧
      (∀ a, t.buf.read a =
        if a < len.toNat then some (BitVec.ofNat 8 ((ws.getD (a / 4) 0#32).toNat / 2 ^ (24 - 8 * (a % 4))))
        else s.buf.read a) ∧
      (s.buf.wf = true → t.buf.wf = true ∧ ∃ bytes, t.payload = some bytes ∧ bytes.length = len.toNat ∧
        ∀ a, a < len.toNat → t.buf.read a = bytes[a]?)

/-- `LOAD` with a non-zero pad lane ends with `IllegalCommand`, and `LOAD` of more than `BUFCAP` bytes with
`IllegalOperand`; on either nothing is loaded and only `FLT` changes (40_bit_reader.md section 3). -/
def Obligations.LoadFaultsLoadNothing : Prop :=
  (∀ (s : State) (len : BitVec 16) (ws : List Word) (k : Nat),
    (Instr.load len ws).wellFormed = true → len.toNat ≤ k → k < 4 * ws.length →
    (ws.getD (k / 4) 0#32).toNat / 2 ^ (24 - 8 * (k % 4)) % 256 ≠ 0 →
    exec (.load len ws) s = .next { s with
      flt := s.flt ||| 0x10#8, out := s.out ++ [⟨.fault .illegalCommand, 0#64⟩] }) ∧
  (∀ (s : State) (len : BitVec 16) (ws : List Word),
    (Instr.load len ws).wellFormed = true → s.cfg.bufcap < len.toNat →
    (∀ k, len.toNat ≤ k → k < 4 * ws.length → (ws.getD (k / 4) 0#32).toNat / 2 ^ (24 - 8 * (k % 4)) % 256 = 0) →
    exec (.load len ws) s = .next { s with
      flt := s.flt ||| 0x20#8, out := s.out ++ [⟨.fault .illegalOperand, 0#64⟩] })

/-- Where the model stops, and by which name: a payload byte, or a record field, that the state does not hold, and a
`LOAD` term that no words decode to. The model's own choice, in states no run reaches (log entries 4, 6 and 8). -/
def Obligations.ModelStopsByName : Prop :=
  (∀ (s : State) (n : BitVec 8), n.toNat ≤ 32 → s.bst = .valid → s.cur.toNat + n.toNat ≤ 8 * s.len.toNat →
    s.payload = none → exec (.rdb n) s = .fault .payloadByteAbsent) ∧
  (∀ (s : State) (i : Instr), i = .dspec ∨ i = .dvar ∧ s.var = some .spectrum → s.bst = .valid → 42 ≤ s.len.toNat →
    s.payload = none → exec i s = .fault .payloadByteAbsent) ∧
  (∀ (s : State) (i : Instr), i = .dstat ∨ i = .dvar ∧ s.var = some .statistics → s.bst = .valid → 112 ≤ s.len.toNat →
    s.payload = none → exec i s = .fault .payloadByteAbsent) ∧
  (∀ (s : State) (i : Instr), i = .dpgram ∨ i = .dvar ∧ s.var = some .pgram → s.bst = .valid →
    (s.len.toNat = 0 ∨ hyb s.df.toNat (s.len.toNat - 1) < 2 ^ 64) →
    s.payload = none → exec i s = .fault .payloadByteAbsent) ∧
  (∀ (s : State) (j : BitVec 8) (i : BitVec 16), i.toNat < s.record.recn.toNat → j.toNat ≤ s.record.recw.toNat →
    s.record.field i.toNat j.toNat = none → exec (.getrec j i) s = .fault .recordFieldAbsent) ∧
  (∀ (s : State) (len : BitVec 16) (ws : List Word), (Instr.load len ws).wellFormed = false →
    exec (.load len ws) s = .refused .illFormedLoad)

/-- `MARKBAD` (40_bit_reader.md section 4). -/
def Obligations.MarkbadEmptiesTheLine : Prop :=
  ∀ (s : State), exec .markbad s = .next { s with
    len := 0#16, bst := .bad, cur := 0#20, raw := none, spl := none, frq := none, var := none,
    record := ⟨0#16, 0#3, []⟩, out := s.out ++ [⟨.ok, 0#64⟩] }

/-- `RDB n` with its bits there: `RAW` and the response are the field, the cursor moves by exactly `n`, nothing else
changes (40_bit_reader.md section 5). -/
def Obligations.RdbReadsFieldAndAdvances : Prop :=
  ∀ (s : State) (n : BitVec 8) (bytes : List Byte),
    n.toNat ≤ 32 → s.bst = .valid → s.payload = some bytes → s.cur.toNat + n.toNat ≤ 8 * s.len.toNat →
    ∃ t, exec (.rdb n) s = .next t ∧
      t = { s with
        raw := some (BitVec.ofNat 32 (memRead bytes s.cur.toNat n.toNat)), cur := t.cur,
        out := s.out ++ [⟨.ok, BitVec.ofNat 64 (memRead bytes s.cur.toNat n.toNat)⟩] } ∧
      t.cur.toNat = s.cur.toNat + n.toNat ∧
      memRead bytes s.cur.toNat n.toNat < 2 ^ n.toNat

/-- `DEQ b` inside its domain: `SPL` is the level of `RAW` at width `b`, the response its sign extension, `RAW` is kept,
nothing else changes (41_dequantizer.md section 2). -/
def Obligations.DeqConvertsRaw : Prop :=
  ∀ (s : State) (b : BitVec 8) (raw : BitVec 32),
    1 ≤ b.toNat → b.toNat ≤ 32 → s.raw = some raw → raw.toNat < 2 ^ b.toNat →
    exec (.deq b) s = .next { s with
      spl := some (BitVec.ofInt 16 (deq raw.toNat b.toNat)),
      out := s.out ++ [⟨.ok, (BitVec.ofInt 16 (deq raw.toNat b.toNat)).signExtend 64⟩] }

/-- `ANSI k`: `FRQ` and the response are 1000 times entry `k` of the document's 28 values, nothing else changes
(42_band_tables.md section 1). -/
def Obligations.AnsiReadsBandRom : Prop :=
  ∀ (s : State) (k : BitVec 8) (hz : Nat),
    [40, 50, 63, 80, 100, 125, 160, 200, 250, 315, 400, 500, 630, 800, 1000, 1250, 1600, 2000, 2500, 3150, 4000, 5000, 6300,
      8000, 10000, 12500, 16000, 20000][k.toNat]? = some hz →
    exec (.ansi k) s = .next { s with
      frq := some (BitVec.ofNat 64 (1000 * hz)), out := s.out ++ [⟨.ok, BitVec.ofNat 64 (1000 * hz)⟩] }

/-- `SETDF df` with a positive `df` (42_band_tables.md section 2). -/
def Obligations.SetdfSetsDfAndDfu : Prop :=
  ∀ (s : State) (df : BitVec 24), 1 ≤ df.toNat →
    exec (.setdf df) s = .next { s with
      df := df, dfu := true, out := s.out ++ [⟨.ok, BitVec.ofNat 64 df.toNat⟩] }

/-- `HYB k` with a frequency that fits: `FRQ` and the response are entry `k` for the current `DF`, nothing else changes
(42_band_tables.md section 2). -/
def Obligations.HybComputesEntry : Prop :=
  ∀ (s : State) (k : BitVec 16), hyb s.df.toNat k.toNat < 2 ^ 64 →
    exec (.hyb k) s = .next { s with
      frq := some (BitVec.ofNat 64 (hyb s.df.toNat k.toNat)),
      out := s.out ++ [⟨.ok, BitVec.ofNat 64 (hyb s.df.toNat k.toNat)⟩] }

/-- `DSPEC`, and `DVAR` with Spectrum selected, on 42 bytes or more: 28 records, record `k` the band `k` and the level of
the 12-bit field `k`; the registers as after the last field; nothing else changes (43_record_decoders.md sections 1, 2 and
6). -/
def Obligations.DspecDecodesSpectrum : Prop :=
  ∀ (s : State) (i : Instr) (bytes : List Byte),
    (i = .dspec ∨ i = .dvar ∧ s.var = some .spectrum) →
    s.bst = .valid → s.payload = some bytes → 42 ≤ s.len.toNat →
    ∃ t, exec i s = .next t ∧
      t = { s with
        record := t.record, cur := 336#20, raw := some (BitVec.ofNat 32 (memRead bytes 324 12)),
        spl := some (BitVec.ofInt 16 (deq (memRead bytes 324 12) 12)), frq := some 20000000#64,
        out := s.out ++ [⟨.ok, 28#64⟩] } ∧
      t.record.recn = 28#16 ∧ t.record.recw = 1#3 ∧ t.record.entries.length = 28 ∧
      ∀ k, k < 28 → t.record.entries[k]? =
        some ⟨BitVec.ofNat 64 (1000 * ansiTable.getD k 0), [BitVec.ofInt 16 (deq (memRead bytes (12 * k) 12) 12)]⟩

/-- `DSTAT`, and `DVAR` with Statistics selected, on 112 bytes or more: 28 records, record `k` the band `k` and the levels
of bytes 4k, 4k+1, 4k+2, 4k+3; the registers as after the last field; nothing else changes (43_record_decoders.md sections
1, 3 and 6). -/
def Obligations.DstatDecodesStatistics : Prop :=
  ∀ (s : State) (i : Instr) (bytes : List Byte),
    (i = .dstat ∨ i = .dvar ∧ s.var = some .statistics) →
    s.bst = .valid → s.payload = some bytes → 112 ≤ s.len.toNat →
    ∃ t, exec i s = .next t ∧
      t = { s with
        record := t.record, cur := 896#20, raw := some (BitVec.ofNat 32 (bytes.getD 111 0#8).toNat),
        spl := some (BitVec.ofInt 16 (deq (bytes.getD 111 0#8).toNat 8)), frq := some 20000000#64,
        out := s.out ++ [⟨.ok, 28#64⟩] } ∧
      t.record.recn = 28#16 ∧ t.record.recw = 4#3 ∧ t.record.entries.length = 28 ∧
      ∀ k, k < 28 → t.record.entries[k]? =
        some ⟨BitVec.ofNat 64 (1000 * ansiTable.getD k 0),
          [BitVec.ofInt 16 (deq (bytes.getD (4 * k) 0#8).toNat 8), BitVec.ofInt 16 (deq (bytes.getD (4 * k + 1) 0#8).toNat 8),
           BitVec.ofInt 16 (deq (bytes.getD (4 * k + 2) 0#8).toNat 8),
           BitVec.ofInt 16 (deq (bytes.getD (4 * k + 3) 0#8).toNat 8)]⟩

/-- `DPGRAM`, and `DVAR` with Pgram selected, when the last frequency fits: one record a byte, record `k` the entry `k` of
the emitted sequence and the level of byte `k`; the registers as after the last field, and empty when there is none;
nothing else changes (43_record_decoders.md sections 1, 4 and 6). -/
def Obligations.DpgramDecodesPgram : Prop :=
  ∀ (s : State) (i : Instr) (bytes : List Byte),
    (i = .dpgram ∨ i = .dvar ∧ s.var = some .pgram) →
    s.bst = .valid → s.payload = some bytes → (s.len.toNat = 0 ∨ hyb s.df.toNat (s.len.toNat - 1) < 2 ^ 64) →
    ∃ t, exec i s = .next t ∧
      t = { s with
        record := t.record, cur := BitVec.ofNat 20 (8 * s.len.toNat),
        raw := bytes.getLast?.map fun b => BitVec.ofNat 32 b.toNat,
        spl := bytes.getLast?.map fun b => BitVec.ofInt 16 (deq b.toNat 8),
        frq := if s.len.toNat = 0 then none else some (BitVec.ofNat 64 (hyb s.df.toNat (s.len.toNat - 1))),
        out := s.out ++ [⟨.ok, BitVec.ofNat 64 s.len.toNat⟩] } ∧
      t.record.recn = s.len ∧ t.record.recw = 1#3 ∧ t.record.entries.length = s.len.toNat ∧
      ∀ k, k < s.len.toNat → t.record.entries[k]? =
        some ⟨BitVec.ofNat 64 (hyb s.df.toNat k), [BitVec.ofInt 16 (deq (bytes.getD k 0#8).toNat 8)]⟩

/-- `VSEL`: an explicit variant always wins; without one, length below 100 is Spectrum, below 200 Statistics, from 200 on
Pgram; `VAR` and the response are the selection, nothing else changes, and no state makes it fault
(44_variant_selector.md). -/
def Obligations.VselSelectsVariant : Prop :=
  (∀ (s : State) (v : VariantKind) (tlen : BitVec 16),
    exec (.vsel (some v) tlen) s = .next { s with
      var := some v, out := s.out ++ [⟨.ok, match v with | .spectrum => 1#64 | .statistics => 2#64 | .pgram => 3#64⟩] }) ∧
  (∀ (s : State) (tlen : BitVec 16), tlen.toNat < 100 →
    exec (.vsel none tlen) s = .next { s with var := some .spectrum, out := s.out ++ [⟨.ok, 1#64⟩] }) ∧
  (∀ (s : State) (tlen : BitVec 16), 100 ≤ tlen.toNat → tlen.toNat < 200 →
    exec (.vsel none tlen) s = .next { s with var := some .statistics, out := s.out ++ [⟨.ok, 2#64⟩] }) ∧
  (∀ (s : State) (tlen : BitVec 16), 200 ≤ tlen.toNat →
    exec (.vsel none tlen) s = .next { s with var := some .pgram, out := s.out ++ [⟨.ok, 3#64⟩] })

/-- `GET r`: the value of register `r`, extended as R24 says; nothing else changes (10_state.md section 7,
45_system.md). -/
def Obligations.GetReadsRegister : Prop :=
  ∀ (s : State),
    exec (.get 0#8) s = .next { s with out := s.out ++ [⟨.ok, s.statusWord.setWidth 64⟩] } ∧
    exec (.get 1#8) s = .next { s with out := s.out ++ [⟨.ok, s.flt.setWidth 64⟩] } ∧
    exec (.get 2#8) s = .next { s with out := s.out ++ [⟨.ok, s.len.setWidth 64⟩] } ∧
    exec (.get 3#8) s = .next { s with out := s.out ++ [⟨.ok, s.cur.setWidth 64⟩] } ∧
    (∀ v, s.raw = some v → exec (.get 4#8) s = .next { s with out := s.out ++ [⟨.ok, v.setWidth 64⟩] }) ∧
    (∀ v, s.spl = some v → exec (.get 5#8) s = .next { s with out := s.out ++ [⟨.ok, v.signExtend 64⟩] }) ∧
    (∀ v, s.frq = some v → exec (.get 6#8) s = .next { s with out := s.out ++ [⟨.ok, v⟩] }) ∧
    exec (.get 7#8) s = .next { s with out := s.out ++ [⟨.ok, s.df.setWidth 64⟩] } ∧
    exec (.get 8#8) s = .next { s with out := s.out ++ [⟨.ok, s.record.recn.setWidth 64⟩] } ∧
    exec (.get 9#8) s = .next { s with out := s.out ++ [⟨.ok, s.record.recw.setWidth 64⟩] }

/-- `GETREC j, i` of a record and field that exist: field 0 is the frequency, field `j ≥ 1` the level `V[j-1]` sign
extended; nothing else changes (45_system.md). -/
def Obligations.GetrecReadsField : Prop :=
  (∀ (s : State) (i : BitVec 16) (e : Entry), i.toNat < s.record.recn.toNat → s.record.entries[i.toNat]? = some e →
    exec (.getrec 0#8 i) s = .next { s with out := s.out ++ [⟨.ok, e.f⟩] }) ∧
  (∀ (s : State) (j : BitVec 8) (i : BitVec 16) (e : Entry) (v : BitVec 16), i.toNat < s.record.recn.toNat →
    1 ≤ j.toNat → j.toNat ≤ s.record.recw.toNat → s.record.entries[i.toNat]? = some e → e.v[j.toNat - 1]? = some v →
    exec (.getrec j i) s = .next { s with out := s.out ++ [⟨.ok, v.signExtend 64⟩] })

/-- `SRST`: every register takes its reset value, `BUF` and the parameter keep theirs, the response is (OK, 0)
(45_system.md). -/
def Obligations.SrstResetsRegisters : Prop :=
  ∀ (s : State), exec .srst s = .next { s with
    len := 0#16, bst := .noPayload, cur := 0#20, raw := none, spl := none, frq := none, df := 7629#24, dfu := false,
    var := none, flt := 0#8, record := ⟨0#16, 0#3, []⟩, out := s.out ++ [⟨.ok, 0#64⟩] }

/-! ## When each fault is raised, and what it does -/

/-- R171: when `Empty` is raised. -/
def Obligations.EmptyRaisedExactlyWhen : Prop :=
  ∀ (i : Instr) (s : State), EndsWith i s .empty ↔
    (s.bst = .noPayload ∧
      ((∃ n, i = .rdb n ∧ n.toNat ≤ 32) ∨ i = .dspec ∨ i = .dstat ∨ i = .dpgram ∨ (i = .dvar ∧ s.var ≠ none))) ∨
    (∃ b, i = .deq b ∧ 1 ≤ b.toNat ∧ b.toNat ≤ 32 ∧ s.raw = none) ∨
    (i = .get 4#8 ∧ s.raw = none) ∨ (i = .get 5#8 ∧ s.spl = none) ∨ (i = .get 6#8 ∧ s.frq = none) ∨
    (i = .dvar ∧ s.var = none)

/-- R172: `OutOfRange` is raised by `RDB` alone, exactly when fewer than `n` bits remain. -/
def Obligations.OutOfRangeRaisedExactlyWhen : Prop :=
  ∀ (i : Instr) (s : State), EndsWith i s .outOfRange ↔
    ∃ n, i = .rdb n ∧ n.toNat ≤ 32 ∧ s.bst = .valid ∧ s.cur.toNat + n.toNat > 8 * s.len.toNat

/-- R173: when `Truncated` is raised (with a payload there: `Empty` and `Malformed` come first, R179). -/
def Obligations.TruncatedRaisedExactlyWhen : Prop :=
  ∀ (i : Instr) (s : State), EndsWith i s .truncated ↔
    s.bst = .valid ∧
      (((i = .dspec ∨ i = .dvar ∧ s.var = some .spectrum) ∧ 8 * s.len.toNat < 336) ∨
       ((i = .dstat ∨ i = .dvar ∧ s.var = some .statistics) ∧ 8 * s.len.toNat < 896))

/-- R177, its causes in the state: when `Malformed` is raised. -/
def Obligations.MalformedRaisedExactlyWhen : Prop :=
  ∀ (i : Instr) (s : State), EndsWith i s .malformed ↔
    s.bst = .bad ∧
      ((∃ n, i = .rdb n ∧ n.toNat ≤ 32) ∨ i = .dspec ∨ i = .dstat ∨ i = .dpgram ∨ (i = .dvar ∧ s.var ≠ none))

/-- R174: `IllegalCommand` is raised for a header word that is no command, and for a `LOAD` with a non-zero pad byte, by the
words alone; and it is the only such fault: for each other code some command ends with it in one reachable state and not in
another. -/
def Obligations.IllegalCommandRaisedExactlyWhen : Prop :=
  (∀ (i : Instr) (s : State), EndsWith i s .illegalCommand ↔
    ∃ len ws k, i = .load len ws ∧ (Instr.load len ws).wellFormed = true ∧ len.toNat ≤ k ∧ k < 4 * ws.length ∧
      (ws.getD (k / 4) 0#32).toNat / 2 ^ (24 - 8 * (k % 4)) % 256 ≠ 0) ∧
  (∀ (s : State) (w : Word) (p : List PortEvent), s.port = .word w :: p → (∃ why, decodeHeader w = .illegal why) →
    step s = .next { s with
      port := p, flt := s.flt ||| 0x10#8, out := s.out ++ [⟨.fault .illegalCommand, 0#64⟩] }) ∧
  (∀ (i : Instr) (s s' : State), EndsWith i s .illegalCommand → EndsWith i s' .illegalCommand) ∧
  (∀ (c : FaultCode), c ≠ .illegalCommand →
    ∃ (i : Instr) (s s' : State), Reachable s ∧ Reachable s' ∧ EndsWith i s c ∧ ¬ EndsWith i s' c)

/-- R175: when `IllegalOperand` is raised. -/
def Obligations.IllegalOperandRaisedExactlyWhen : Prop :=
  ∀ (i : Instr) (s : State), EndsWith i s .illegalOperand ↔
    (∃ len ws, i = .load len ws ∧ (Instr.load len ws).wellFormed = true ∧ s.cfg.bufcap < len.toNat ∧
      ∀ k, len.toNat ≤ k → k < 4 * ws.length → (ws.getD (k / 4) 0#32).toNat / 2 ^ (24 - 8 * (k % 4)) % 256 = 0) ∨
    (∃ n, i = .rdb n ∧ 32 < n.toNat) ∨
    (∃ b, i = .deq b ∧ (b.toNat = 0 ∨ 32 < b.toNat ∨ ∃ raw, s.raw = some raw ∧ 2 ^ b.toNat ≤ raw.toNat)) ∨
    (∃ k, i = .ansi k ∧ 27 < k.toNat) ∨ i = .setdf 0#24 ∨ (∃ r, i = .get r ∧ 9 < r.toNat) ∨
    (∃ j k, i = .getrec j k ∧ (s.record.recn.toNat ≤ k.toNat ∨ s.record.recw.toNat < j.toNat))

/-- R178: when `Overflow` is raised (with a payload there: `Empty` and `Malformed` come first, R179). -/
def Obligations.OverflowRaisedExactlyWhen : Prop :=
  ∀ (i : Instr) (s : State), EndsWith i s .overflow ↔
    (∃ k, i = .hyb k ∧ 2 ^ 64 ≤ hyb s.df.toNat k.toNat) ∨
    (s.bst = .valid ∧ (i = .dpgram ∨ i = .dvar ∧ s.var = some .pgram) ∧ 1 ≤ s.len.toNat ∧
      2 ^ 64 ≤ hyb s.df.toNat (s.len.toNat - 1))

/-- R176: a command that ends with a fault sets its bit of `FLT`, answers (code, 0), and changes nothing else, but that a
macro decode's prologue has been performed. -/
def Obligations.FaultChangesOnlyFltAndPrologue : Prop :=
  ∀ (i : Instr) (s t : State) (c : FaultCode), exec i s = .next t → t.out = s.out ++ [⟨.fault c, 0#64⟩] →
    t = { (if runsPrologue i s then
            { s with record := ⟨0#16, 0#3, []⟩, raw := none, spl := none, frq := none, cur := 0#20 }
          else s) with
          flt := t.flt, out := t.out } ∧
    ∀ k, k < 8 → t.flt.getLsbD k = (s.flt.getLsbD k ||
      decide (k = match c with
        | .outOfRange => 1 | .truncated => 2 | .malformed => 3 | .illegalCommand => 4 | .illegalOperand => 5
        | .empty => 6 | .overflow => 7))

/-- Every command that completes gives exactly one response, after those already given, and a fault's data is 0
(30_encoding.md sections 1 and 7); the 3-bit status is 0 for `OK` and 1 to 7 for the faults, numbered as the table of
60_exceptions.md section 1 numbers them. -/
def Obligations.EachCommandGivesOneResponse : Prop :=
  (∀ (i : Instr) (s t : State), exec i s = .next t →
    ∃ r, t.out = s.out ++ [r] ∧ ∀ c, r.status = .fault c → r.data = 0#64) ∧
  Status.ok.code = 0#3 ∧
  (∀ (c : FaultCode), (Status.fault c).code = match c with
    | .outOfRange => 1#3 | .truncated => 2#3 | .malformed => 3#3 | .illegalCommand => 4#3 | .illegalOperand => 5#3
    | .empty => 6#3 | .overflow => 7#3)

/-! ## What no command changes -/

/-- R82: between a `LOAD` and the next `LOAD`, `MARKBAD` or reset, no command changes a byte of `BUF`, or `LEN`. -/
def Obligations.PayloadIsImmutable : Prop :=
  ∀ (i : Instr) (s t : State), (∀ len ws, i ≠ .load len ws) → i ≠ .markbad → i ≠ .srst → exec i s = .next t →
    (∀ a, t.buf.read a = s.buf.read a) ∧ t.len = s.len ∧ t.payload = s.payload

/-- A bit of `FLT`, once set, stays set through every step that is neither `SRST` nor the reset input; each of those two
clears all of it (10_state.md section 5, 60_exceptions.md section 3). -/
def Obligations.FaultBitsAreSticky : Prop :=
  ∀ (s t : State), step s = .next t →
    ((∀ u, s.fetch ≠ .command .srst u) → (∀ u, s.fetch ≠ .reset u) →
      ∀ k, s.flt.getLsbD k = true → t.flt.getLsbD k = true) ∧
    ((∃ u, s.fetch = .command .srst u) ∨ (∃ u, s.fetch = .reset u) → t.flt = 0#8)

/-- No command, `GET FLT` among them, depends on what stands at the ports, and none but `GET FLT` on the fault mask: with
other events, responses and mask, it answers the same and leaves the same registers (10_state.md sections 5 and 11). -/
def Obligations.FaultMaskAndPortsDecideNothing : Prop :=
  (∀ (i : Instr) (s t : State) (p : List PortEvent) (o : List Response), exec i s = .next t →
    ∃ t' r, exec i { s with port := p, out := o } = .next t' ∧
      t.out = s.out ++ [r] ∧ t'.out = o ++ [r] ∧ t.port = s.port ∧ t'.port = p ∧
      { t' with port := t.port, out := t.out } = t) ∧
  (∀ (i : Instr) (s t : State) (p : List PortEvent) (o : List Response) (f : BitVec 8), i ≠ .get 1#8 →
    exec i s = .next t →
    ∃ t' r, exec i { s with port := p, out := o, flt := f } = .next t' ∧
      t.out = s.out ++ [r] ∧ t'.out = o ++ [r] ∧ t.port = s.port ∧ t'.port = p ∧
      { t' with port := t.port, out := t.out, flt := t.flt } = t)

/-! ## The macro decodes -/

/-- A macro decode depends on the payload, `BST` and `DF` alone, `DVAR` on `VAR` too; issued twice it gives the same record
and response; and a payload longer than the layout gives the record of its first 42 or 112 bytes, the cursor at 336 or 896
(43_record_decoders.md sections 5 and 7). `DVAR` with no variant selected decodes nothing: the same response in every such
state, and the record stays. -/
def Obligations.MacroDecodeDependsOnPayloadAndDf : Prop :=
  (∀ (i : Instr) (s s' t : State),
    i = .dspec ∨ i = .dstat ∨ i = .dpgram ∨ (i = .dvar ∧ s.var ≠ none ∧ s'.var = s.var) →
    s'.buf = s.buf → s'.len = s.len → s'.bst = s.bst → s'.df = s.df → exec i s = .next t →
    ∃ t' r, exec i s' = .next t' ∧ t'.record = t.record ∧ t'.cur = t.cur ∧ t'.raw = t.raw ∧ t'.spl = t.spl ∧
      t'.frq = t.frq ∧ t.out = s.out ++ [r] ∧ t'.out = s'.out ++ [r]) ∧
  (∀ (s s' t : State), s.var = none → s'.var = none → exec .dvar s = .next t →
    ∃ t' r, exec .dvar s' = .next t' ∧ t'.record = s'.record ∧ t.out = s.out ++ [r] ∧ t'.out = s'.out ++ [r]) ∧
  (∀ (i : Instr) (s t : State), i = .dspec ∨ i = .dstat ∨ i = .dpgram ∨ i = .dvar → exec i s = .next t →
    ∃ u r, exec i t = .next u ∧ u.record = t.record ∧ t.out = s.out ++ [r] ∧ u.out = t.out ++ [r]) ∧
  (∀ (i : Instr) (n : Nat) (s s' : State) (bytes bytes' : List Byte),
    (i = .dspec ∨ i = .dvar ∧ s.var = some .spectrum ∧ s'.var = some .spectrum) ∧ n = 42 ∨
      (i = .dstat ∨ i = .dvar ∧ s.var = some .statistics ∧ s'.var = some .statistics) ∧ n = 112 →
    s.bst = .valid → s'.bst = .valid → s.payload = some bytes →
    s'.payload = some bytes' → n ≤ s.len.toNat → n ≤ s'.len.toNat → bytes.take n = bytes'.take n →
    ∃ t t', exec i s = .next t ∧ exec i s' = .next t' ∧ t.record = t'.record ∧ t.cur.toNat = 8 * n ∧ t'.cur.toNat = 8 * n)

/-- After a macro decode either the response is OK and the record is complete, in the shape of its variant, or the response
is a fault and no record is left (43_record_decoders.md sections 1 and 7). -/
def Obligations.MacroDecodeIsAllOrNothing : Prop :=
  ∀ (i : Instr) (s t : State), runsPrologue i s = true → exec i s = .next t →
    (t.out = s.out ++ [⟨.ok, t.record.recn.setWidth 64⟩] ∧ t.record.entries.length = t.record.recn.toNat ∧
      (∀ e ∈ t.record.entries, e.v.length = t.record.recw.toNat) ∧
      ((i = .dspec ∨ i = .dvar ∧ s.var = some .spectrum) → t.record.recn = 28#16 ∧ t.record.recw = 1#3) ∧
      ((i = .dstat ∨ i = .dvar ∧ s.var = some .statistics) → t.record.recn = 28#16 ∧ t.record.recw = 4#3) ∧
      ((i = .dpgram ∨ i = .dvar ∧ s.var = some .pgram) → t.record.recn = s.len ∧ t.record.recw = 1#3)) ∨
    (∃ c, t.out = s.out ++ [⟨.fault c, 0#64⟩] ∧ t.record = ⟨0#16, 0#3, []⟩ ∧ t.cur = 0#20 ∧ t.raw = none ∧
      t.spl = none ∧ t.frq = none)

/-- `DSPEC` leaves the record a host would collect, and the registers as they would be, after 28 rounds of
`RDB 12; DEQ 12; ANSI k` (43_record_decoders.md section 5). -/
def Obligations.DspecEqualsPrimitives : Prop :=
  ∀ (s : State) (bytes : List Byte), s.bst = .valid → s.payload = some bytes → s.cur = 0#20 → 42 ≤ s.len.toNat →
    ∃ t u, execAll ((List.range 28).flatMap fun k => [.rdb 12#8, .deq 12#8, .ansi (BitVec.ofNat 8 k)]) s = .next t ∧
      exec .dspec s = .next u ∧ t.cur = u.cur ∧ t.raw = u.raw ∧ t.spl = u.spl ∧ t.frq = u.frq ∧
      u.record.entries = hostRows1 (t.out.drop s.out.length) ∧ u.record.entries.length = 28

/-- `DSTAT` leaves the record a host would collect, and the registers as they would be, after 28 rounds of four
`RDB 8; DEQ 8` and `ANSI k` (43_record_decoders.md section 5). -/
def Obligations.DstatEqualsPrimitives : Prop :=
  ∀ (s : State) (bytes : List Byte), s.bst = .valid → s.payload = some bytes → s.cur = 0#20 → 112 ≤ s.len.toNat →
    ∃ t u, execAll ((List.range 28).flatMap fun k =>
        ((List.range 4).flatMap fun _ => [.rdb 8#8, .deq 8#8]) ++ [.ansi (BitVec.ofNat 8 k)]) s = .next t ∧
      exec .dstat s = .next u ∧ t.cur = u.cur ∧ t.raw = u.raw ∧ t.spl = u.spl ∧ t.frq = u.frq ∧
      u.record.entries = hostRows4 (t.out.drop s.out.length) ∧ u.record.entries.length = 28

/-- `DPGRAM` leaves the record a host would collect, and the registers as they would be, after `LEN` rounds of
`RDB 8; DEQ 8; HYB k` straight after the `LOAD` (43_record_decoders.md section 5). -/
def Obligations.DpgramEqualsPrimitives : Prop :=
  ∀ (s : State) (bytes : List Byte), s.bst = .valid → s.payload = some bytes → s.cur = 0#20 → s.raw = none →
    s.spl = none → s.frq = none → (s.len.toNat = 0 ∨ hyb s.df.toNat (s.len.toNat - 1) < 2 ^ 64) →
    ∃ t u, execAll ((List.range s.len.toNat).flatMap fun k => [.rdb 8#8, .deq 8#8, .hyb (BitVec.ofNat 16 k)]) s = .next t ∧
      exec .dpgram s = .next u ∧ t.cur = u.cur ∧ t.raw = u.raw ∧ t.spl = u.spl ∧ t.frq = u.frq ∧
      u.record.entries = hostRows1 (t.out.drop s.out.length) ∧ u.record.entries.length = s.len.toNat

/-! ## The Bit Reader -/

/-- Two reads of `a` then `b` bits return `x` then `y` exactly when one read of `a + b` bits returns `x * 2^b + y`
(40_bit_reader.md section 6, law 2). -/
def Obligations.ConsecutiveReadsJoin : Prop :=
  ∀ (s : State) (a b : BitVec 8) (x y : Nat), a.toNat + b.toNat ≤ 32 → x < 2 ^ a.toNat → y < 2 ^ b.toNat →
    ((∃ t u, exec (.rdb a) s = .next t ∧ exec (.rdb b) t = .next u ∧
        u.out = s.out ++ [⟨.ok, BitVec.ofNat 64 x⟩, ⟨.ok, BitVec.ofNat 64 y⟩]) ↔
      ∃ v, exec (.rdb (a + b)) s = .next v ∧ v.out = s.out ++ [⟨.ok, BitVec.ofNat 64 (x * 2 ^ b.toNat + y)⟩])

/-- After a `LOAD`, reads whose widths fit the payload all succeed, each returning the field at the sum of the widths
before it, and the cursor ends at their sum (40_bit_reader.md section 6, law 1). -/
def Obligations.ReadSequenceWalksPayload : Prop :=
  ∀ (s : State) (bytes : List Byte) (ns : List (BitVec 8)), s.bst = .valid → s.payload = some bytes → s.cur = 0#20 →
    (∀ n ∈ ns, n.toNat ≤ 32) → (ns.map BitVec.toNat).sum ≤ 8 * s.len.toNat →
    ∃ t, execAll (ns.map .rdb) s = .next t ∧ t.cur.toNat = (ns.map BitVec.toNat).sum ∧
      t.out = s.out ++ (List.range ns.length).map fun k =>
        ⟨.ok, BitVec.ofNat 64 (memRead bytes ((ns.take k).map BitVec.toNat).sum (ns.getD k 0#8).toNat)⟩

/-- R43, over the bits of R42: `MemRead(p, n)` is the sum of its bits, the first most significant; it obeys the recursion
of R43 and is below `2^n`. -/
def Obligations.MemReadIsSumOfBits : Prop :=
  ∀ (bytes : List Byte) (p n : Nat), n ≤ 32 → p + n ≤ 8 * bytes.length →
    memRead bytes p n =
      ∑ j ∈ Finset.range n, (((bytes.getD ((p + j) / 8) 0#8).toNat >>> (7 - (p + j) % 8)) &&& 1) * 2 ^ (n - 1 - j) ∧
    memRead bytes p 0 = 0 ∧
    (∀ m, n = m + 1 → memRead bytes p n =
      2 * memRead bytes p m + (((bytes.getD ((p + m) / 8) 0#8).toNat >>> (7 - (p + m) % 8)) &&& 1)) ∧
    memRead bytes p n ≤ 2 ^ n - 1

/-- R44, items 1 to 5, for reads that lie inside the payload: beyond its end R43 leaves `MemRead` undefined, and what the
model's function gives there (log entry 11) is not stated. The bytes a field touches are those at `p / 8 + k` whose first bit
lies before its end; five are enough. -/
def Obligations.MemReadSplitsAndReadsBigEndian : Prop :=
  ∀ (bytes bytes' : List Byte),
    (∀ p a b, p + a + b ≤ 8 * bytes.length →
      memRead bytes p (a + b) = memRead bytes p a * 2 ^ b + memRead bytes (p + a) b) ∧
    (∀ p, p % 8 = 0 → p + 8 ≤ 8 * bytes.length → memRead bytes p 8 = (bytes.getD (p / 8) 0#8).toNat) ∧
    (∀ p, p % 8 = 0 → p + 16 ≤ 8 * bytes.length →
      memRead bytes p 16 = (bytes.getD (p / 8) 0#8).toNat * 256 + (bytes.getD (p / 8 + 1) 0#8).toNat) ∧
    (∀ p, p % 8 = 0 → p + 32 ≤ 8 * bytes.length →
      memRead bytes p 32 = (bytes.getD (p / 8) 0#8).toNat * 2 ^ 24 + (bytes.getD (p / 8 + 1) 0#8).toNat * 2 ^ 16 +
        (bytes.getD (p / 8 + 2) 0#8).toNat * 2 ^ 8 + (bytes.getD (p / 8 + 3) 0#8).toNat) ∧
    (∀ m, 24 * m + 12 ≤ 8 * bytes.length → memRead bytes (24 * m) 12 =
        (bytes.getD (3 * m) 0#8).toNat * 16 + ((bytes.getD (3 * m + 1) 0#8).toNat >>> 4)) ∧
    (∀ m, 24 * m + 24 ≤ 8 * bytes.length → memRead bytes (24 * m + 12) 12 =
        ((bytes.getD (3 * m + 1) 0#8).toNat &&& 15) * 256 + (bytes.getD (3 * m + 2) 0#8).toNat) ∧
    (∀ p n, n ≤ 32 → p + n ≤ 8 * bytes.length → p + n ≤ 8 * bytes'.length →
      (∀ k, k < 5 → 8 * (p / 8 + k) < p + n → bytes.getD (p / 8 + k) 0#8 = bytes'.getD (p / 8 + k) 0#8) →
      memRead bytes p n = memRead bytes' p n)

/-! ## The Dequantizer -/

/-- R103: `deq(raw, b)` is the exact value of R101 in cdB, rounded by `floor(x + 1/2)`, with the floor division the rule
writes; `N`, the numerator, is below 2^50 in magnitude; the result is the nearest hundredth, lies in [-636, 18564] and is what the 16-bit
register holds. -/
def Obligations.DeqIsNearestHundredth : Prop :=
  ∀ (raw b : Nat), 1 ≤ b → b ≤ 32 → raw < 2 ^ b →
    deq raw b = Int.fdiv (2 * (192000 * (raw : ℤ) - 6358 * (2 ^ b - 1)) + 10 * (2 ^ b - 1)) (20 * (2 ^ b - 1)) ∧
    deq raw b = ⌊((192000 * (raw : ℚ) - 6358 * (2 ^ b - 1)) / (10 * (2 ^ b - 1)) + 1 / 2 : ℚ)⌋ ∧
    |192000 * (raw : ℤ) - 6358 * (2 ^ b - 1)| < 2 ^ 50 ∧
    |(deq raw b : ℚ) / 100 - (-6358 / 1000 + (raw : ℚ) * 192 / (2 ^ b - 1))| < 1 / 200 ∧
    -636 ≤ deq raw b ∧ deq raw b ≤ 18564 ∧
    (BitVec.ofInt 16 (deq raw b)).toInt = deq raw b

/-- The law is monotonic, strictly so up to 14 bits, and has the document's boundary values at every width
(41_dequantizer.md section 2). -/
def Obligations.DeqIsMonotonicBetweenBoundaries : Prop :=
  (∀ (raw raw' b : Nat), 1 ≤ b → raw < raw' → raw' < 2 ^ b → deq raw b ≤ deq raw' b) ∧
  (∀ (raw raw' b : Nat), 1 ≤ b → b ≤ 14 → raw < raw' → raw' < 2 ^ b → deq raw b < deq raw' b) ∧
  (∀ (b : Nat), 1 ≤ b → deq 0 b = -636 ∧ deq (2 ^ b - 1) b = 18564)

/-! ## The band tables -/

/-- R111: the table ascends, each band at least 5/4 of the one before; the smallest ratio is exactly 5/4 and the largest
exactly 32/25. -/
def Obligations.AnsiTableRatios : Prop :=
  ansiTable.length = 28 ∧
  (∀ k : Fin 27, ansiTable.getD k 0 < ansiTable.getD (k + 1) 0 ∧
    5 * ansiTable.getD k 0 ≤ 4 * ansiTable.getD (k + 1) 0 ∧ 25 * ansiTable.getD (k + 1) 0 ≤ 32 * ansiTable.getD k 0) ∧
  (∃ k : Fin 27, 5 * ansiTable.getD k 0 = 4 * ansiTable.getD (k + 1) 0) ∧
  (∃ k : Fin 27, 25 * ansiTable.getD (k + 1) 0 = 32 * ansiTable.getD k 0)

/-- R118: the linear entries are exact; a logarithmic entry is the exact value of R116 in mHz rounded to the nearest,
`floor(x + 1/2)` over the real numbers; it comes from the integer 24th root, and is the one number between whose half
steps the exact value lies. -/
def Obligations.HybIsRoundedExactFrequency : Prop :=
  ∀ (df k : Nat), df < 2 ^ 24 →
    (k ≤ 32 → hyb df k = (k + 2) * df) ∧
    (33 ≤ k →
      (hyb df k : ℤ) = ⌊(35 * (df : ℝ) * (2 : ℝ) ^ (((k : ℝ) - 33) / 24) + 1 / 2 : ℝ)⌋ ∧
      (∃ y, y ^ 24 ≤ (2 * (35 * df)) ^ 24 * 2 ^ (k - 33) ∧ (2 * (35 * df)) ^ 24 * 2 ^ (k - 33) < (y + 1) ^ 24 ∧
        hyb df k = (y + 1) / 2) ∧
      (1 ≤ df → ∀ x, 1 ≤ x →
        ((2 * x - 1) ^ 24 ≤ (2 * (35 * df)) ^ 24 * 2 ^ (k - 33) ∧
          (2 * (35 * df)) ^ 24 * 2 ^ (k - 33) < (2 * x + 1) ^ 24 ↔ x = hyb df k)))

/-- The document's identities of the emitted sequence, the exact octaves, and that the sequence rises strictly
(42_band_tables.md section 2). -/
def Obligations.HybSequenceRises : Prop :=
  ∀ (df : Nat), df < 2 ^ 24 →
    hyb df 0 = 2 * df ∧ hyb df 32 = 34 * df ∧ hyb df 33 = 35 * df ∧
    (∀ q, hyb df (33 + 24 * q) = 35 * df * 2 ^ q) ∧
    (1 ≤ df → ∀ k k', k < k' → hyb df k < hyb df k')

/-- R122: where the sequence passes 64 bits: never in the linear region, for every positive `DF` at some index of the
logarithmic region, at the four indices the rule names, and from there on. -/
def Obligations.HybOverflowIndices : Prop :=
  (∀ df k, df < 2 ^ 24 → k ≤ 32 → hyb df k < 2 ^ 30) ∧
  (∀ df, 1 ≤ df → df < 2 ^ 24 → ∃ k, 33 ≤ k ∧ hyb df k < 2 ^ 64 ∧ 2 ^ 64 ≤ hyb df (k + 1)) ∧
  hyb 7629 1136 = 18254609343773209639 ∧ hyb 7629 1136 < 2 ^ 64 ∧ 2 ^ 64 ≤ hyb 7629 1137 ∧
  hyb 10000 1126 < 2 ^ 64 ∧ 2 ^ 64 ≤ hyb 10000 1127 ∧
  hyb (2 ^ 24 - 1) 869 < 2 ^ 64 ∧ 2 ^ 64 ≤ hyb (2 ^ 24 - 1) 870 ∧
  hyb 1 1445 < 2 ^ 64 ∧ 2 ^ 64 ≤ hyb 1 1446 ∧
  (∀ df k k', df < 2 ^ 24 → 2 ^ 64 ≤ hyb df k → k ≤ k' → 2 ^ 64 ≤ hyb df k') ∧
  hyb 7629 270 / 10 ^ 3 = 250730

/-! ## Memory and state -/

/-- The one block update of `LOAD` is the rule's loop of one-byte writes, on every memory in canonical form
(40_bit_reader.md section 3). -/
def Obligations.BlockWriteIsLoopOfByteWrites : Prop :=
  ∀ (m : Memory) (bytes : List Byte), m.wf = true →
    m.writeBlock bytes = (List.range bytes.length).foldl (fun m t => m.write t (bytes.getD t 0#8)) m

/-- The invariant of R27 holds in the reset state of every admitted instance (10_state.md section 10). That `State.reset`
has BUFCAP 4096 is the model's choice: log entry 3. -/
def Obligations.InvariantHoldsAtReset : Prop :=
  Inv State.reset ∧ ∀ (c : Config), c.Admitted → Inv (State.resetOf c)

/-- Every step keeps the invariant of R27 (10_state.md section 10). -/
def Obligations.InvariantKeptByStep : Prop :=
  ∀ (s t : State), Inv s → step s = .next t → Inv t

/-- Whatever is delivered at the ports and whenever, every state reached from power-on satisfies the invariant of R27, and
the next step completes: no sequence of words and resets stops the block (10_state.md section 10, 70_reset_and_hazards.md
section 3). -/
def Obligations.ReachableStatesNeverStop : Prop :=
  ∀ (s : State), Reachable s → Inv s ∧ ∃ t, step s = .next t

/-- R23: the `STATUS` view that `GET 0` reads, field by field. -/
def Obligations.StatusViewLayout : Prop :=
  (∀ (s : State), exec (.get 0#8) s = .next { s with out := s.out ++ [⟨.ok, s.statusWord.setWidth 64⟩] }) ∧
  (∀ (s : State),
    s.statusWord.extractLsb' 0 2 = (match s.bst with | .noPayload => 0#2 | .valid => 1#2 | .bad => 2#2) ∧
    s.statusWord.getLsbD 2 = s.dfu ∧
    s.statusWord.extractLsb' 3 2 =
      (match s.var with | none => 0#2 | some .spectrum => 1#2 | some .statistics => 2#2 | some .pgram => 3#2) ∧
    s.statusWord.getLsbD 5 = s.raw.isSome ∧ s.statusWord.getLsbD 6 = s.spl.isSome ∧
    s.statusWord.getLsbD 7 = s.frq.isSome ∧ s.statusWord.extractLsb' 8 8 = 0#8) ∧
  State.reset.statusWord = 0#16

/-- R201: the reset state, register by register. -/
def Obligations.ResetStateValues : Prop :=
  State.reset.len = 0#16 ∧ State.reset.bst = .noPayload ∧ State.reset.cur = 0#20 ∧ State.reset.raw = none ∧
  State.reset.spl = none ∧ State.reset.frq = none ∧ State.reset.df = 7629#24 ∧ State.reset.dfu = false ∧
  State.reset.var = none ∧ State.reset.flt = 0#8 ∧ State.reset.record.recn = 0#16 ∧ State.reset.record.recw = 0#3 ∧
  State.reset.statusWord = 0#16

/-! ## The assembler -/

/-- What the assembler makes of a `LOAD` line: `LOAD -` is the empty payload; the bytes in hexadecimal, with any number of
spaces between two of them, give a command that carries exactly those bytes, its pad lanes zero, if their number fits the
length field, and a rejected line if it does not (30_encoding.md sections 6 and 8). -/
def Obligations.AssembledLoadCarriesPayload : Prop :=
  assemble "LOAD -" = .command (.load 0#16 []) ∧
  (∀ (b : Byte) (more : List (Nat × Byte)), more.length + 1 < 2 ^ 16 →
    ∃ len ws, assemble (loadLine b more) = .command (.load len ws) ∧ (Instr.load len ws).wellFormed = true ∧
      len.toNat = more.length + 1 ∧ payloadBytes len ws = b :: more.map Prod.snd ∧ padIsZero len ws = true) ∧
  (∀ (b : Byte) (more : List (Nat × Byte)), 2 ^ 16 ≤ more.length + 1 → assemble (loadLine b more) = .rejected)
end

