-- ==== Sys2Proof/Laws/Assembler.lean ====
section
/-! SUPPORT. The small lemmas of the assembler: packing a payload, hexadecimal text, a `LOAD` line. -/

namespace Sys2Proof.Machine

/-- The lanes of four bytes put together are those bytes (R67). -/
theorem wordBytes_append (a b c d : Byte) : wordBytes (a ++ b ++ c ++ d : BitVec (8 + 8 + 8 + 8)) = [a, b, c, d] := by
  simp only [wordBytes, List.cons.injEq, and_true]
  refine ⟨?_, ?_, ?_, ?_⟩ <;>
  · apply BitVec.eq_of_toNat_eq
    have := a.isLt; have := b.isLt; have := c.isLt; have := d.isLt
    simp only [BitVec.extractLsb'_toNat, BitVec.toNat_append, Nat.shiftLeft_eq, Nat.shiftRight_eq_div_pow,
      Nat.mul_comm _ (2 ^ 8), ← Nat.two_pow_add_eq_or_of_lt (BitVec.isLt _)]
    omega

theorem append_zeros_24 (a : Byte) :
    (a ++ 0#24 : BitVec (8 + 24)) = (a ++ 0#8 ++ 0#8 ++ 0#8 : BitVec (8 + 8 + 8 + 8)) := by
  apply BitVec.eq_of_toNat_eq
  simp only [BitVec.toNat_append, BitVec.toNat_ofNat, Nat.zero_mod, Nat.or_zero, Nat.shiftLeft_eq]
  omega

theorem append_zeros_16 (a b : Byte) :
    (a ++ b ++ 0#16 : BitVec (8 + 8 + 16)) = (a ++ b ++ 0#8 ++ 0#8 : BitVec (8 + 8 + 8 + 8)) := by
  apply BitVec.eq_of_toNat_eq
  simp only [BitVec.toNat_append, BitVec.toNat_ofNat, Nat.zero_mod, Nat.or_zero, Nat.shiftLeft_eq]
  omega

/-- Packing bytes into words keeps them in order, adds only zero lanes, and takes as few words as hold them (R67). -/
theorem laneBytes_packWords (bs : List Byte) :
    ∃ pad, laneBytes (packWords bs) = bs ++ pad ∧ (∀ b ∈ pad, b = 0#8) ∧ (packWords bs).length = (bs.length + 3) / 4 := by
  induction bs using packWords.induct with
  | case1 => exact ⟨[], rfl, by simp, by simp [packWords]⟩
  | case2 a =>
    exact ⟨[0#8, 0#8, 0#8], by rw [packWords, laneBytes, append_zeros_24, wordBytes_append]; rfl, by simp,
      by simp [packWords]⟩
  | case3 a b =>
    exact ⟨[0#8, 0#8], by rw [packWords, laneBytes, append_zeros_16, wordBytes_append]; rfl, by simp, by simp [packWords]⟩
  | case4 a b c => exact ⟨[0#8], by rw [packWords, laneBytes, wordBytes_append]; rfl, by simp, by simp [packWords]⟩
  | case5 a b c d bs ih =>
    obtain ⟨pad, h, hz, hl⟩ := ih
    refine ⟨pad, ?_, hz, ?_⟩
    · rw [packWords, laneBytes, wordBytes_append, h]; rfl
    · rw [packWords, List.length_cons, hl]; simp only [List.length_cons]; omega

/-- A `LOAD` line is its operand. -/
theorem commandOf_load (text : List Char) : commandOf "LOAD" text = loadOperand (trimChars text) := by
  unfold commandOf
  cases splitOperands text <;> rfl

/-- A payload whose length fits the field is a `LOAD` that carries it (R67). -/
theorem loadOf_short {bs : List Byte} (h : bs.length < 2 ^ 16) :
    ∃ len ws, loadOf bs = some (.load len ws) ∧ (Instr.load len ws).wellFormed = true ∧ len.toNat = bs.length ∧
      payloadBytes len ws = bs ∧ padIsZero len ws = true := by
  obtain ⟨pad, hp, hz, hl⟩ := laneBytes_packWords bs
  have hn : (BitVec.ofNat 16 bs.length).toNat = bs.length := by simp; omega
  refine ⟨_, _, by rw [loadOf, fitField, if_pos h]; rfl, ?_, hn, ?_, ?_⟩
  · simp only [Instr.wellFormed, decide_eq_true_eq, hn, hl]; omega
  · rw [payloadBytes, hn, hp, List.take_left]
  · rw [padIsZero, padBytes, hn, hp, List.drop_left]; simpa using hz

/-- A longer payload is none. -/
theorem loadOf_long {bs : List Byte} (h : 2 ^ 16 ≤ bs.length) : loadOf bs = none := by
  rw [loadOf, fitField, if_neg (by omega)]; rfl

/-- A hexadecimal digit is read as its value, and is neither a blank nor the comment sign. -/
theorem digitValue_hexDigit : ∀ n : Fin 16, digitValue 16 (hexDigit n) = some n.val ∧ isBlank (hexDigit n) = false ∧
    (hexDigit n != ';') = true := by decide

/-- A byte in hexadecimal, whatever follows it, is read as that byte. -/
theorem hexBytes_hexByte (b : Byte) (cs : List Char) :
    hexBytes (hexByte b ++ cs) = (hexBytes cs).map (b :: ·) := by
  have h1 := digitValue_hexDigit ⟨b.toNat / 16, by have := b.isLt; omega⟩
  have h2 := digitValue_hexDigit ⟨b.toNat % 16, by omega⟩
  simp only [hexByte, List.cons_append, List.nil_append, hexBytes, h1.2.1, h1.1, h2.1, Bool.false_eq_true, if_false]
  have hb : BitVec.ofNat 8 (16 * (b.toNat / 16) + b.toNat % 16) = b := by
    rw [Nat.div_add_mod, BitVec.ofNat_toNat, BitVec.setWidth_eq]
  cases hexBytes cs <;> simp [hb]

/-- Spaces before a byte are skipped. -/
theorem hexBytes_blanks (n : Nat) (c : Char) (cs : List Char) :
    hexBytes (List.replicate n ' ' ++ c :: cs) = hexBytes (c :: cs) := by
  induction n with
  | zero => rfl
  | succ n ih =>
    rw [← ih, List.replicate_succ, List.cons_append]
    cases n <;> (rw [hexBytes.eq_def]; rfl)

/-- Bytes in hexadecimal, each after a number of spaces, are read as those bytes (R71). -/
theorem hexBytes_cells (more : List (Nat × Byte)) :
    hexBytes (more.flatMap fun c => List.replicate c.1 ' ' ++ hexByte c.2) = some (more.map Prod.snd) := by
  induction more with
  | nil => rfl
  | cons c more ih =>
    rw [List.flatMap_cons, List.append_assoc]
    have : ∀ cs, hexBytes (List.replicate c.1 ' ' ++ (hexByte c.2 ++ cs)) = hexBytes (hexByte c.2 ++ cs) :=
      fun cs => hexBytes_blanks _ _ _
    rw [this, hexBytes_hexByte, ih]; rfl

/-- Text with no blank at its ends is left as it is. -/
theorem trimChars_of_ends {cs : List Char} (h : ∀ c ∈ cs.head?, isBlank c = false) (h' : ∀ c ∈ cs.getLast?, isBlank c = false) :
    trimChars cs = cs := by
  have key : ∀ l : List Char, (∀ c ∈ l.head?, isBlank c = false) → l.dropWhile isBlank = l := by
    intro l hl
    cases l with
    | nil => rfl
    | cons a l => exact List.dropWhile_cons_of_neg (by simp [hl a rfl])
  rw [trimChars, key cs h, key _ (by simpa using h'), List.reverse_reverse]

/-- The text of a byte holds no blank and no comment sign. -/
theorem isBlank_hexByte (b : Byte) : ∀ c ∈ hexByte b, isBlank c = false ∧ (c != ';') = true := by
  have h1 := digitValue_hexDigit ⟨b.toNat / 16, by have := b.isLt; omega⟩
  have h2 := digitValue_hexDigit ⟨b.toNat % 16, by omega⟩
  intro c hc
  simp only [hexByte, List.mem_cons, List.not_mem_nil, or_false] at hc
  rcases hc with rfl | rfl
  · exact h1.2
  · exact h2.2

end Sys2Proof.Machine
end

