-- ==== Sys2Proof/Laws/Encoding.lean ====
section
/-! SUPPORT. The fields of a header word put together from fields. -/

namespace Sys2Proof

theorem headerWord_toNat (op a : BitVec 8) (imm : BitVec 16) :
    (headerWord op a imm).toNat = op.toNat * 2 ^ 24 + a.toNat * 2 ^ 16 + imm.toNat := by
  have ha := a.isLt
  have hi := imm.isLt
  unfold headerWord
  rw [BitVec.toNat_append, BitVec.toNat_append, Nat.shiftLeft_eq, Nat.shiftLeft_eq,
    Nat.mul_comm op.toNat, ← Nat.two_pow_add_eq_or_of_lt ha, Nat.mul_comm _ (2 ^ 16),
    ← Nat.two_pow_add_eq_or_of_lt hi]
  omega

theorem headerWordW_toNat (op : BitVec 8) (imm24 : BitVec 24) :
    (headerWordW op imm24).toNat = op.toNat * 2 ^ 24 + imm24.toNat := by
  have hi := imm24.isLt
  unfold headerWordW
  rw [BitVec.toNat_append, Nat.shiftLeft_eq, Nat.mul_comm op.toNat, ← Nat.two_pow_add_eq_or_of_lt hi]

@[simp] theorem headerOp_headerWord (op a : BitVec 8) (imm : BitVec 16) : headerOp (headerWord op a imm) = op := by
  apply BitVec.eq_of_toNat_eq
  have := op.isLt; have := a.isLt; have := imm.isLt
  simp only [headerOp, BitVec.extractLsb'_toNat, headerWord_toNat, Nat.shiftRight_eq_div_pow]
  omega

@[simp] theorem headerA_headerWord (op a : BitVec 8) (imm : BitVec 16) : headerA (headerWord op a imm) = a := by
  apply BitVec.eq_of_toNat_eq
  have := op.isLt; have := a.isLt; have := imm.isLt
  simp only [headerA, BitVec.extractLsb'_toNat, headerWord_toNat, Nat.shiftRight_eq_div_pow]
  omega

@[simp] theorem headerImm_headerWord (op a : BitVec 8) (imm : BitVec 16) : headerImm (headerWord op a imm) = imm := by
  apply BitVec.eq_of_toNat_eq
  have := op.isLt; have := a.isLt; have := imm.isLt
  simp only [headerImm, BitVec.extractLsb'_toNat, headerWord_toNat, Nat.shiftRight_eq_div_pow]
  omega

@[simp] theorem headerImm24_headerWord (op a : BitVec 8) (imm : BitVec 16) :
    (headerImm24 (headerWord op a imm)).toNat = a.toNat * 2 ^ 16 + imm.toNat := by
  have := op.isLt; have := a.isLt; have := imm.isLt
  simp only [headerImm24, BitVec.extractLsb'_toNat, headerWord_toNat, Nat.shiftRight_eq_div_pow]
  omega

@[simp] theorem headerOp_headerWordW (op : BitVec 8) (v : BitVec 24) : headerOp (headerWordW op v) = op := by
  apply BitVec.eq_of_toNat_eq
  have := op.isLt; have := v.isLt
  simp only [headerOp, BitVec.extractLsb'_toNat, headerWordW_toNat, Nat.shiftRight_eq_div_pow]
  omega

@[simp] theorem headerImm24_headerWordW (op : BitVec 8) (v : BitVec 24) : headerImm24 (headerWordW op v) = v := by
  apply BitVec.eq_of_toNat_eq
  have := op.isLt; have := v.isLt
  simp only [headerImm24, BitVec.extractLsb'_toNat, headerWordW_toNat, Nat.shiftRight_eq_div_pow]
  omega

/-- The bits of a header word are those of its fields. -/
theorem headerWord_fields (w : Word) : headerWord (headerOp w) (headerA w) (headerImm w) = w := by
  apply BitVec.eq_of_toNat_eq
  have := w.isLt
  simp only [headerWord_toNat, headerOp, headerA, headerImm, BitVec.extractLsb'_toNat, Nat.shiftRight_eq_div_pow]
  omega

@[simp] theorem decodeVariant_encodeVariant (ev : Option VariantKind) : decodeVariant (encodeVariant ev) = ev := by
  rcases ev with _ | _ | _ | _ <;> rfl

@[simp] theorem encodeVariant_decodeVariant (ev : BitVec 2) : encodeVariant (decodeVariant ev) = ev := by
  revert ev; decide

theorem whenZero_zero (h : Header) : whenZero 0 h = h := rfl

theorem whenZero_of_ne {n : Nat} (hn : n ≠ 0) (h : Header) : whenZero n h = .illegal .reservedFieldNotZero :=
  if_neg hn

/-- The two forms of "as many words as the length asks for" are one (R67). -/
theorem wellFormed_load_iff (len : BitVec 16) (ws : List Word) :
    (Instr.load len ws).wellFormed = true ↔ ws.length = payloadWordCount len := by
  simp only [Instr.wellFormed, decide_eq_true_eq, payloadWordCount]
  omega

end Sys2Proof
end

