-- ==== Sys2Proof/Laws/Ops.lean ====
section
/-! SUPPORT. One lemma per shared operation that says everything it can do. -/

namespace Sys2Proof.Machine

/-! ## Completing a command -/

@[simp] theorem finish_eq_next {s t : State} {v : BitVec 64} : finish s v = .next t ↔ s.respond v = t := by
  simp [finish]

@[simp] theorem fail_eq_next {s t : State} {c : FaultCode} : fail s c = .next t ↔ s.raise c = t := by
  simp [fail]

@[simp] theorem finish_ne_fault {s : State} {v : BitVec 64} {r : Fault} : finish s v ≠ .fault r := by
  simp [finish]

@[simp] theorem fail_ne_fault {s : State} {c : FaultCode} {r : Fault} : fail s c ≠ .fault r := by
  simp [fail]

/-- The fault mask after a fault: its bit set, every other as before (R21, R176). -/
theorem setFault_getLsbD (flt : BitVec 8) (c : FaultCode) (k : Nat) (hk : k < 8) :
    (setFault flt c).getLsbD k = (flt.getLsbD k || decide (k = c.code)) := by
  have : k = 0 ∨ k = 1 ∨ k = 2 ∨ k = 3 ∨ k = 4 ∨ k = 5 ∨ k = 6 ∨ k = 7 := by omega
  unfold setFault
  rw [BitVec.getLsbD_or]
  congr 1
  rcases this with rfl | rfl | rfl | rfl | rfl | rfl | rfl | rfl <;> cases c <;> rfl

/-! ## Reading a field -/

/-- A field is read exactly when its bits are there. -/
theorem State.readBits_eq_field {s : State} {c n v c' : Nat} :
    s.readBits c n = .field v c' ↔
      c + n ≤ 8 * s.len.toNat ∧ c' = c + n ∧ ∃ bytes, s.payload = some bytes ∧ v = memRead bytes c n := by
  unfold State.readBits
  split
  · simp; omega
  · cases h : s.payload with
    | none => simp
    | some bytes =>
      simp only [FieldRead.field.injEq, Option.some.injEq]
      constructor
      · rintro ⟨rfl, rfl⟩; exact ⟨by omega, rfl, bytes, rfl, rfl⟩
      · rintro ⟨_, rfl, _, rfl, rfl⟩; exact ⟨rfl, rfl⟩

theorem State.readBits_eq_outOfRange {s : State} {c n : Nat} :
    s.readBits c n = .outOfRange ↔ c + n > 8 * s.len.toNat := by
  unfold State.readBits
  split
  · simpa using by assumption
  · cases h : s.payload <;> simp <;> omega

/-! ## The skeleton of a macro decode -/

/-- Everything the skeleton of a macro decode answers with a next state (R131): a fault after the prologue, for its
reason, or the body's state and its record count. -/
theorem macroDecode_next {need : Nat} {ov : Bool} {body : List Byte → State → State} {s t : State}
    (h : macroDecode need ov body s = .next t) :
    (s.bst = .noPayload ∧ t = s.prologue.raise .empty) ∨
    (s.bst = .bad ∧ t = s.prologue.raise .malformed) ∨
    (s.bst = .valid ∧ 8 * s.len.toNat < need ∧ t = s.prologue.raise .truncated) ∨
    (s.bst = .valid ∧ need ≤ 8 * s.len.toNat ∧ ov = true ∧ t = s.prologue.raise .overflow) ∨
    (s.bst = .valid ∧ need ≤ 8 * s.len.toNat ∧ ov = false ∧ ∃ bytes, s.payload = some bytes ∧
      t = (body bytes s.prologue).respond (zext64 (body bytes s.prologue).record.recn)) := by
  unfold macroDecode at h
  split at h
  · exact .inl ⟨by assumption, (fail_eq_next.1 h).symm⟩
  · exact .inr (.inl ⟨by assumption, (fail_eq_next.1 h).symm⟩)
  · split at h
    · exact .inr (.inr (.inl ⟨by assumption, by assumption, (fail_eq_next.1 h).symm⟩))
    · cases ov with
      | true => exact .inr (.inr (.inr (.inl ⟨by assumption, by omega, rfl, (fail_eq_next.1 h).symm⟩)))
      | false =>
        cases hp : s.payload with
        | none => simp [hp] at h
        | some bytes =>
          simp [hp] at h
          exact .inr (.inr (.inr (.inr ⟨by assumption, by omega, rfl, bytes, rfl, h.symm⟩)))

/-- The skeleton stops only where a payload byte is absent. -/
theorem macroDecode_fault {need : Nat} {ov : Bool} {body : List Byte → State → State} {s : State} {r : Fault}
    (h : macroDecode need ov body s = .fault r) : r = .payloadByteAbsent ∧ s.payload = none := by
  unfold macroDecode at h
  split at h
  · simp at h
  · simp at h
  · split at h
    · simp at h
    · cases ov with
      | true => simp at h
      | false =>
        cases hp : s.payload with
        | none => simp [hp] at h; exact ⟨h.symm, rfl⟩
        | some bytes => simp [hp] at h

/-! ## The ports -/

@[simp] theorem wordsBeforeReset_words (ws : List Word) (p : List PortEvent) :
    wordsBeforeReset (ws.map .word ++ p) = ws ++ wordsBeforeReset p := by
  induction ws with
  | nil => rfl
  | cons w ws ih => simp [wordsBeforeReset, ih]

@[simp] theorem afterReset_words (ws : List Word) (p : List PortEvent) :
    afterReset (ws.map .word ++ p) = afterReset p := by
  induction ws with
  | nil => rfl
  | cons w ws ih => simpa [afterReset] using ih

@[simp] theorem wordsBeforeReset_nil : wordsBeforeReset [] = [] := rfl

@[simp] theorem wordsBeforeReset_reset (p : List PortEvent) : wordsBeforeReset (.reset :: p) = [] := rfl

@[simp] theorem afterReset_nil : afterReset [] = none := rfl

@[simp] theorem afterReset_reset (p : List PortEvent) : afterReset (.reset :: p) = some p := rfl

/-- Taking the words `ws` off the front of the port leaves the rest of it. -/
theorem portAfter_words (ws : List Word) (p : List PortEvent) :
    portAfter (ws.map .word ++ p) (wordsBeforeReset p) = p := by
  simp [portAfter]

end Sys2Proof.Machine
end

