-- ==== Sys2Proof/Laws/State.lean ====
section
/-! SUPPORT. Every field after every update of the state: each update unfolded once. -/

namespace Sys2Proof.Machine

variable (s : State)

/-! ## `State.respond` -/

@[simp] theorem State.respond_cfg (v : BitVec 64) : (s.respond v).cfg = s.cfg := rfl
@[simp] theorem State.respond_buf (v : BitVec 64) : (s.respond v).buf = s.buf := rfl
@[simp] theorem State.respond_len (v : BitVec 64) : (s.respond v).len = s.len := rfl
@[simp] theorem State.respond_bst (v : BitVec 64) : (s.respond v).bst = s.bst := rfl
@[simp] theorem State.respond_cur (v : BitVec 64) : (s.respond v).cur = s.cur := rfl
@[simp] theorem State.respond_raw (v : BitVec 64) : (s.respond v).raw = s.raw := rfl
@[simp] theorem State.respond_spl (v : BitVec 64) : (s.respond v).spl = s.spl := rfl
@[simp] theorem State.respond_frq (v : BitVec 64) : (s.respond v).frq = s.frq := rfl
@[simp] theorem State.respond_df (v : BitVec 64) : (s.respond v).df = s.df := rfl
@[simp] theorem State.respond_dfu (v : BitVec 64) : (s.respond v).dfu = s.dfu := rfl
@[simp] theorem State.respond_var (v : BitVec 64) : (s.respond v).var = s.var := rfl
@[simp] theorem State.respond_flt (v : BitVec 64) : (s.respond v).flt = s.flt := rfl
@[simp] theorem State.respond_record (v : BitVec 64) : (s.respond v).record = s.record := rfl
@[simp] theorem State.respond_port (v : BitVec 64) : (s.respond v).port = s.port := rfl
@[simp] theorem State.respond_out (v : BitVec 64) : (s.respond v).out = s.out ++ [⟨.ok, v⟩] := rfl

/-! ## `State.raise` -/

@[simp] theorem State.raise_cfg (c : FaultCode) : (s.raise c).cfg = s.cfg := rfl
@[simp] theorem State.raise_buf (c : FaultCode) : (s.raise c).buf = s.buf := rfl
@[simp] theorem State.raise_len (c : FaultCode) : (s.raise c).len = s.len := rfl
@[simp] theorem State.raise_bst (c : FaultCode) : (s.raise c).bst = s.bst := rfl
@[simp] theorem State.raise_cur (c : FaultCode) : (s.raise c).cur = s.cur := rfl
@[simp] theorem State.raise_raw (c : FaultCode) : (s.raise c).raw = s.raw := rfl
@[simp] theorem State.raise_spl (c : FaultCode) : (s.raise c).spl = s.spl := rfl
@[simp] theorem State.raise_frq (c : FaultCode) : (s.raise c).frq = s.frq := rfl
@[simp] theorem State.raise_df (c : FaultCode) : (s.raise c).df = s.df := rfl
@[simp] theorem State.raise_dfu (c : FaultCode) : (s.raise c).dfu = s.dfu := rfl
@[simp] theorem State.raise_var (c : FaultCode) : (s.raise c).var = s.var := rfl
@[simp] theorem State.raise_flt (c : FaultCode) : (s.raise c).flt = setFault s.flt c := rfl
@[simp] theorem State.raise_record (c : FaultCode) : (s.raise c).record = s.record := rfl
@[simp] theorem State.raise_port (c : FaultCode) : (s.raise c).port = s.port := rfl
@[simp] theorem State.raise_out (c : FaultCode) : (s.raise c).out = s.out ++ [⟨.fault c, 0#64⟩] := rfl

/-! ## `State.prologue` -/

@[simp] theorem State.prologue_cfg : (s.prologue).cfg = s.cfg := rfl
@[simp] theorem State.prologue_buf : (s.prologue).buf = s.buf := rfl
@[simp] theorem State.prologue_len : (s.prologue).len = s.len := rfl
@[simp] theorem State.prologue_bst : (s.prologue).bst = s.bst := rfl
@[simp] theorem State.prologue_cur : (s.prologue).cur = 0#20 := rfl
@[simp] theorem State.prologue_raw : (s.prologue).raw = none := rfl
@[simp] theorem State.prologue_spl : (s.prologue).spl = none := rfl
@[simp] theorem State.prologue_frq : (s.prologue).frq = none := rfl
@[simp] theorem State.prologue_df : (s.prologue).df = s.df := rfl
@[simp] theorem State.prologue_dfu : (s.prologue).dfu = s.dfu := rfl
@[simp] theorem State.prologue_var : (s.prologue).var = s.var := rfl
@[simp] theorem State.prologue_flt : (s.prologue).flt = s.flt := rfl
@[simp] theorem State.prologue_record : (s.prologue).record = Record.empty := rfl
@[simp] theorem State.prologue_port : (s.prologue).port = s.port := rfl
@[simp] theorem State.prologue_out : (s.prologue).out = s.out := rfl

/-! ## `State.clearLine` -/

@[simp] theorem State.clearLine_cfg : (s.clearLine).cfg = s.cfg := rfl
@[simp] theorem State.clearLine_buf : (s.clearLine).buf = s.buf := rfl
@[simp] theorem State.clearLine_len : (s.clearLine).len = s.len := rfl
@[simp] theorem State.clearLine_bst : (s.clearLine).bst = s.bst := rfl
@[simp] theorem State.clearLine_cur : (s.clearLine).cur = 0#20 := rfl
@[simp] theorem State.clearLine_raw : (s.clearLine).raw = none := rfl
@[simp] theorem State.clearLine_spl : (s.clearLine).spl = none := rfl
@[simp] theorem State.clearLine_frq : (s.clearLine).frq = none := rfl
@[simp] theorem State.clearLine_df : (s.clearLine).df = s.df := rfl
@[simp] theorem State.clearLine_dfu : (s.clearLine).dfu = s.dfu := rfl
@[simp] theorem State.clearLine_var : (s.clearLine).var = none := rfl
@[simp] theorem State.clearLine_flt : (s.clearLine).flt = s.flt := rfl
@[simp] theorem State.clearLine_record : (s.clearLine).record = Record.empty := rfl
@[simp] theorem State.clearLine_port : (s.clearLine).port = s.port := rfl
@[simp] theorem State.clearLine_out : (s.clearLine).out = s.out := rfl

/-! ## `State.resetRegisters` -/

@[simp] theorem State.resetRegisters_cfg : (s.resetRegisters).cfg = s.cfg := rfl
@[simp] theorem State.resetRegisters_buf : (s.resetRegisters).buf = s.buf := rfl
@[simp] theorem State.resetRegisters_len : (s.resetRegisters).len = 0#16 := rfl
@[simp] theorem State.resetRegisters_bst : (s.resetRegisters).bst = .noPayload := rfl
@[simp] theorem State.resetRegisters_cur : (s.resetRegisters).cur = 0#20 := rfl
@[simp] theorem State.resetRegisters_raw : (s.resetRegisters).raw = none := rfl
@[simp] theorem State.resetRegisters_spl : (s.resetRegisters).spl = none := rfl
@[simp] theorem State.resetRegisters_frq : (s.resetRegisters).frq = none := rfl
@[simp] theorem State.resetRegisters_df : (s.resetRegisters).df = 7629#24 := rfl
@[simp] theorem State.resetRegisters_dfu : (s.resetRegisters).dfu = false := rfl
@[simp] theorem State.resetRegisters_var : (s.resetRegisters).var = none := rfl
@[simp] theorem State.resetRegisters_flt : (s.resetRegisters).flt = 0#8 := rfl
@[simp] theorem State.resetRegisters_record : (s.resetRegisters).record = Record.empty := rfl
@[simp] theorem State.resetRegisters_port : (s.resetRegisters).port = s.port := rfl
@[simp] theorem State.resetRegisters_out : (s.resetRegisters).out = s.out := rfl

/-! ## `State.afterField` -/

@[simp] theorem State.afterField_cfg (cur raw b freq : Nat) : (s.afterField cur raw b freq).cfg = s.cfg := rfl
@[simp] theorem State.afterField_buf (cur raw b freq : Nat) : (s.afterField cur raw b freq).buf = s.buf := rfl
@[simp] theorem State.afterField_len (cur raw b freq : Nat) : (s.afterField cur raw b freq).len = s.len := rfl
@[simp] theorem State.afterField_bst (cur raw b freq : Nat) : (s.afterField cur raw b freq).bst = s.bst := rfl
@[simp] theorem State.afterField_cur (cur raw b freq : Nat) : (s.afterField cur raw b freq).cur = BitVec.ofNat 20 cur := rfl
@[simp] theorem State.afterField_raw (cur raw b freq : Nat) : (s.afterField cur raw b freq).raw = some (BitVec.ofNat 32 raw) := rfl
@[simp] theorem State.afterField_spl (cur raw b freq : Nat) : (s.afterField cur raw b freq).spl = some (level raw b) := rfl
@[simp] theorem State.afterField_frq (cur raw b freq : Nat) : (s.afterField cur raw b freq).frq = some (BitVec.ofNat 64 freq) := rfl
@[simp] theorem State.afterField_df (cur raw b freq : Nat) : (s.afterField cur raw b freq).df = s.df := rfl
@[simp] theorem State.afterField_dfu (cur raw b freq : Nat) : (s.afterField cur raw b freq).dfu = s.dfu := rfl
@[simp] theorem State.afterField_var (cur raw b freq : Nat) : (s.afterField cur raw b freq).var = s.var := rfl
@[simp] theorem State.afterField_flt (cur raw b freq : Nat) : (s.afterField cur raw b freq).flt = s.flt := rfl
@[simp] theorem State.afterField_record (cur raw b freq : Nat) : (s.afterField cur raw b freq).record = s.record := rfl
@[simp] theorem State.afterField_port (cur raw b freq : Nat) : (s.afterField cur raw b freq).port = s.port := rfl
@[simp] theorem State.afterField_out (cur raw b freq : Nat) : (s.afterField cur raw b freq).out = s.out := rfl

/-! ## `State.storeRecord` -/

@[simp] theorem State.storeRecord_cfg (w : BitVec 3) (es : List Entry) : (s.storeRecord w es).cfg = s.cfg := rfl
@[simp] theorem State.storeRecord_buf (w : BitVec 3) (es : List Entry) : (s.storeRecord w es).buf = s.buf := rfl
@[simp] theorem State.storeRecord_len (w : BitVec 3) (es : List Entry) : (s.storeRecord w es).len = s.len := rfl
@[simp] theorem State.storeRecord_bst (w : BitVec 3) (es : List Entry) : (s.storeRecord w es).bst = s.bst := rfl
@[simp] theorem State.storeRecord_cur (w : BitVec 3) (es : List Entry) : (s.storeRecord w es).cur = s.cur := rfl
@[simp] theorem State.storeRecord_raw (w : BitVec 3) (es : List Entry) : (s.storeRecord w es).raw = s.raw := rfl
@[simp] theorem State.storeRecord_spl (w : BitVec 3) (es : List Entry) : (s.storeRecord w es).spl = s.spl := rfl
@[simp] theorem State.storeRecord_frq (w : BitVec 3) (es : List Entry) : (s.storeRecord w es).frq = s.frq := rfl
@[simp] theorem State.storeRecord_df (w : BitVec 3) (es : List Entry) : (s.storeRecord w es).df = s.df := rfl
@[simp] theorem State.storeRecord_dfu (w : BitVec 3) (es : List Entry) : (s.storeRecord w es).dfu = s.dfu := rfl
@[simp] theorem State.storeRecord_var (w : BitVec 3) (es : List Entry) : (s.storeRecord w es).var = s.var := rfl
@[simp] theorem State.storeRecord_flt (w : BitVec 3) (es : List Entry) : (s.storeRecord w es).flt = s.flt := rfl
@[simp] theorem State.storeRecord_record (w : BitVec 3) (es : List Entry) : (s.storeRecord w es).record = ⟨BitVec.ofNat 16 es.length, w, es⟩ := rfl
@[simp] theorem State.storeRecord_port (w : BitVec 3) (es : List Entry) : (s.storeRecord w es).port = s.port := rfl
@[simp] theorem State.storeRecord_out (w : BitVec 3) (es : List Entry) : (s.storeRecord w es).out = s.out := rfl

/-! ## `State.deliver` -/

@[simp] theorem State.deliver_cfg (p : List PortEvent) : (s.deliver p).cfg = s.cfg := rfl
@[simp] theorem State.deliver_buf (p : List PortEvent) : (s.deliver p).buf = s.buf := rfl
@[simp] theorem State.deliver_len (p : List PortEvent) : (s.deliver p).len = s.len := rfl
@[simp] theorem State.deliver_bst (p : List PortEvent) : (s.deliver p).bst = s.bst := rfl
@[simp] theorem State.deliver_cur (p : List PortEvent) : (s.deliver p).cur = s.cur := rfl
@[simp] theorem State.deliver_raw (p : List PortEvent) : (s.deliver p).raw = s.raw := rfl
@[simp] theorem State.deliver_spl (p : List PortEvent) : (s.deliver p).spl = s.spl := rfl
@[simp] theorem State.deliver_frq (p : List PortEvent) : (s.deliver p).frq = s.frq := rfl
@[simp] theorem State.deliver_df (p : List PortEvent) : (s.deliver p).df = s.df := rfl
@[simp] theorem State.deliver_dfu (p : List PortEvent) : (s.deliver p).dfu = s.dfu := rfl
@[simp] theorem State.deliver_var (p : List PortEvent) : (s.deliver p).var = s.var := rfl
@[simp] theorem State.deliver_flt (p : List PortEvent) : (s.deliver p).flt = s.flt := rfl
@[simp] theorem State.deliver_record (p : List PortEvent) : (s.deliver p).record = s.record := rfl
@[simp] theorem State.deliver_port (p : List PortEvent) : (s.deliver p).port = s.port ++ p := rfl
@[simp] theorem State.deliver_out (p : List PortEvent) : (s.deliver p).out = s.out := rfl

/-! ## `State.putWords` -/

@[simp] theorem State.putWords_cfg (ws : List Word) : (s.putWords ws).cfg = s.cfg := rfl
@[simp] theorem State.putWords_buf (ws : List Word) : (s.putWords ws).buf = s.buf := rfl
@[simp] theorem State.putWords_len (ws : List Word) : (s.putWords ws).len = s.len := rfl
@[simp] theorem State.putWords_bst (ws : List Word) : (s.putWords ws).bst = s.bst := rfl
@[simp] theorem State.putWords_cur (ws : List Word) : (s.putWords ws).cur = s.cur := rfl
@[simp] theorem State.putWords_raw (ws : List Word) : (s.putWords ws).raw = s.raw := rfl
@[simp] theorem State.putWords_spl (ws : List Word) : (s.putWords ws).spl = s.spl := rfl
@[simp] theorem State.putWords_frq (ws : List Word) : (s.putWords ws).frq = s.frq := rfl
@[simp] theorem State.putWords_df (ws : List Word) : (s.putWords ws).df = s.df := rfl
@[simp] theorem State.putWords_dfu (ws : List Word) : (s.putWords ws).dfu = s.dfu := rfl
@[simp] theorem State.putWords_var (ws : List Word) : (s.putWords ws).var = s.var := rfl
@[simp] theorem State.putWords_flt (ws : List Word) : (s.putWords ws).flt = s.flt := rfl
@[simp] theorem State.putWords_record (ws : List Word) : (s.putWords ws).record = s.record := rfl
@[simp] theorem State.putWords_port (ws : List Word) : (s.putWords ws).port = ws.map .word ++ s.port := rfl
@[simp] theorem State.putWords_out (ws : List Word) : (s.putWords ws).out = s.out := rfl

end Sys2Proof.Machine
end

