-- ==== Sys2Proof/Laws/Exec.lean ====
section
/-! SUPPORT. What each command, the fetch and the step can answer with a next state, each said once. -/

namespace Sys2Proof.Machine

theorem execNop_next {s t : State} (h : execNop s = .next t) : t = s.respond 0#64 := (finish_eq_next.1 h).symm

theorem execMarkbad_next {s t : State} (h : execMarkbad s = .next t) :
    t = State.respond { s.clearLine with len := 0#16, bst := .bad } 0#64 := (finish_eq_next.1 h).symm

theorem execSrst_next {s t : State} (h : execSrst s = .next t) : t = s.resetRegisters.respond 0#64 :=
  (finish_eq_next.1 h).symm

theorem execVsel_next {ev : Option VariantKind} {tlen : BitVec 16} {s t : State} (h : execVsel ev tlen s = .next t) :
    t = State.respond { s with var := some (selectVariant ev tlen) } (zext64 (variantCode (some (selectVariant ev tlen)))) :=
  (finish_eq_next.1 h).symm

/-- `LOAD` answers in three ways (R81). -/
theorem execLoad_next {len : BitVec 16} {ws : List Word} {s t : State} (h : execLoad len ws s = .next t) :
    (Instr.load len ws).wellFormed = true ∧
    ((padIsZero len ws = false ∧ t = s.raise .illegalCommand) ∨
     (padIsZero len ws = true ∧ s.cfg.bufcap < len.toNat ∧ t = s.raise .illegalOperand) ∨
     (padIsZero len ws = true ∧ len.toNat ≤ s.cfg.bufcap ∧
       t = State.respond { s.clearLine with buf := s.buf.writeBlock (payloadBytes len ws), len := len, bst := .valid }
         (zext64 len))) := by
  unfold execLoad at h
  split at h
  · cases h
  · refine ⟨Bool.of_not_eq_false (by assumption), ?_⟩
    split at h
    · exact .inl ⟨by assumption, (fail_eq_next.1 h).symm⟩
    · split at h
      · exact .inr (.inl ⟨Bool.of_not_eq_false (by assumption), by assumption, (fail_eq_next.1 h).symm⟩)
      · exact .inr (.inr ⟨Bool.of_not_eq_false (by assumption), by omega, (finish_eq_next.1 h).symm⟩)

/-- `RDB` answers in five ways (R85). -/
theorem execRdb_next {n : BitVec 8} {s t : State} (h : execRdb n s = .next t) :
    (32 < n.toNat ∧ t = s.raise .illegalOperand) ∨
    (n.toNat ≤ 32 ∧ s.bst = .noPayload ∧ t = s.raise .empty) ∨
    (n.toNat ≤ 32 ∧ s.bst = .bad ∧ t = s.raise .malformed) ∨
    (n.toNat ≤ 32 ∧ s.bst = .valid ∧ 8 * s.len.toNat < s.cur.toNat + n.toNat ∧ t = s.raise .outOfRange) ∨
    (n.toNat ≤ 32 ∧ s.bst = .valid ∧ s.cur.toNat + n.toNat ≤ 8 * s.len.toNat ∧ ∃ bytes, s.payload = some bytes ∧
      t = State.respond
        { s with
          raw := some (BitVec.ofNat 32 (memRead bytes s.cur.toNat n.toNat))
          cur := BitVec.ofNat 20 (s.cur.toNat + n.toNat) }
        (BitVec.ofNat 64 (memRead bytes s.cur.toNat n.toNat))) := by
  unfold execRdb at h
  split at h
  · exact .inl ⟨by omega, (fail_eq_next.1 h).symm⟩
  · split at h
    · exact .inr (.inl ⟨by omega, by assumption, (fail_eq_next.1 h).symm⟩)
    · exact .inr (.inr (.inl ⟨by omega, by assumption, (fail_eq_next.1 h).symm⟩))
    · split at h
      · rename_i hr
        exact .inr (.inr (.inr (.inl ⟨by omega, by assumption, State.readBits_eq_outOfRange.1 hr,
          (fail_eq_next.1 h).symm⟩)))
      · cases h
      · rename_i hr
        obtain ⟨hc, rfl, bytes, hp, rfl⟩ := State.readBits_eq_field.1 hr
        exact .inr (.inr (.inr (.inr ⟨by omega, by assumption, hc, bytes, hp, (finish_eq_next.1 h).symm⟩)))

/-- `DEQ` answers in four ways (R102). -/
theorem execDeq_next {b : BitVec 8} {s t : State} (h : execDeq b s = .next t) :
    ((b.toNat = 0 ∨ 32 < b.toNat) ∧ t = s.raise .illegalOperand) ∨
    (1 ≤ b.toNat ∧ b.toNat ≤ 32 ∧ s.raw = none ∧ t = s.raise .empty) ∨
    (1 ≤ b.toNat ∧ b.toNat ≤ 32 ∧ ∃ raw, s.raw = some raw ∧ 2 ^ b.toNat ≤ raw.toNat ∧ t = s.raise .illegalOperand) ∨
    (1 ≤ b.toNat ∧ b.toNat ≤ 32 ∧ ∃ raw, s.raw = some raw ∧ raw.toNat < 2 ^ b.toNat ∧
      t = State.respond { s with spl := some (level raw.toNat b.toNat) } (sext64 (level raw.toNat b.toNat))) := by
  unfold execDeq at h
  split at h
  · exact .inl ⟨by assumption, (fail_eq_next.1 h).symm⟩
  · split at h
    · exact .inr (.inl ⟨by omega, by omega, by assumption, (fail_eq_next.1 h).symm⟩)
    · split at h
      · exact .inr (.inr (.inl ⟨by omega, by omega, _, by assumption, by assumption, (fail_eq_next.1 h).symm⟩))
      · exact .inr (.inr (.inr ⟨by omega, by omega, _, by assumption, by omega, (finish_eq_next.1 h).symm⟩))

/-- `ANSI` answers in two ways (R112). -/
theorem execAnsi_next {k : BitVec 8} {s t : State} (h : execAnsi k s = .next t) :
    (27 < k.toNat ∧ t = s.raise .illegalOperand) ∨
    (k.toNat ≤ 27 ∧ t = State.respond { s with frq := some (BitVec.ofNat 64 (ansiFreq k.toNat)) }
      (BitVec.ofNat 64 (ansiFreq k.toNat))) := by
  unfold execAnsi at h
  split at h
  · exact .inl ⟨by assumption, (fail_eq_next.1 h).symm⟩
  · exact .inr ⟨by omega, (finish_eq_next.1 h).symm⟩

/-- `SETDF` answers in two ways (R114). -/
theorem execSetdf_next {df : BitVec 24} {s t : State} (h : execSetdf df s = .next t) :
    (df = 0#24 ∧ t = s.raise .illegalOperand) ∨
    (df ≠ 0#24 ∧ t = State.respond { s with df := df, dfu := true } (zext64 df)) := by
  unfold execSetdf at h
  split at h
  · exact .inl ⟨by assumption, (fail_eq_next.1 h).symm⟩
  · exact .inr ⟨by assumption, (finish_eq_next.1 h).symm⟩

/-- `HYB` answers in two ways (R117). -/
theorem execHyb_next {k : BitVec 16} {s t : State} (h : execHyb k s = .next t) :
    (2 ^ 64 ≤ hyb s.df.toNat k.toNat ∧ t = s.raise .overflow) ∨
    (hyb s.df.toNat k.toNat < 2 ^ 64 ∧ t = State.respond
      { s with frq := some (BitVec.ofNat 64 (hyb s.df.toNat k.toNat)) } (BitVec.ofNat 64 (hyb s.df.toNat k.toNat))) := by
  unfold execHyb at h
  split at h
  · exact .inl ⟨by assumption, (fail_eq_next.1 h).symm⟩
  · exact .inr ⟨by omega, (finish_eq_next.1 h).symm⟩

/-- `DVAR` answers as the decoder `VAR` names, or `Empty` with none (R137). -/
theorem execDvar_next {s t : State} (h : execDvar s = .next t) :
    (s.var = none ∧ t = s.raise .empty) ∨ (s.var = some .spectrum ∧ decodeSpectrum s = .next t) ∨
    (s.var = some .statistics ∧ decodeStatistics s = .next t) ∨ (s.var = some .pgram ∧ decodePgram s = .next t) := by
  unfold execDvar at h
  split at h
  · exact .inl ⟨by assumption, (fail_eq_next.1 h).symm⟩
  · exact .inr (.inl ⟨by assumption, h⟩)
  · exact .inr (.inr (.inl ⟨by assumption, h⟩))
  · exact .inr (.inr (.inr ⟨by assumption, h⟩))

/-- `GET` answers in three ways (R158). -/
theorem execGet_next {r : BitVec 8} {s t : State} (h : execGet r s = .next t) :
    (readRegister s r = .noRegister ∧ t = s.raise .illegalOperand) ∨
    (readRegister s r = .holdsNothing ∧ t = s.raise .empty) ∨
    (∃ v, readRegister s r = .value v ∧ t = s.respond v) := by
  unfold execGet at h
  split at h
  · exact .inl ⟨by assumption, (fail_eq_next.1 h).symm⟩
  · exact .inr (.inl ⟨by assumption, (fail_eq_next.1 h).symm⟩)
  · exact .inr (.inr ⟨_, by assumption, (finish_eq_next.1 h).symm⟩)

/-- `GETREC` answers in two ways (R159). -/
theorem execGetrec_next {j : BitVec 8} {i : BitVec 16} {s t : State} (h : execGetrec j i s = .next t) :
    ((s.record.recn.toNat ≤ i.toNat ∨ s.record.recw.toNat < j.toNat) ∧ t = s.raise .illegalOperand) ∨
    (i.toNat < s.record.recn.toNat ∧ j.toNat ≤ s.record.recw.toNat ∧
      ∃ v, s.record.field i.toNat j.toNat = some v ∧ t = s.respond v) := by
  unfold execGetrec at h
  split at h
  · exact .inl ⟨by assumption, (fail_eq_next.1 h).symm⟩
  · split at h
    · cases h
    · exact .inr ⟨by omega, by omega, _, by assumption, (finish_eq_next.1 h).symm⟩

/-! ## The step -/

/-- Everything a step can do with a next state (R8, R65, R68, R200): a command, an illegal word, a reset, or a wait. -/
theorem step_next {s t : State} (h : step s = .next t) :
    (∃ i rest, decode (wordsBeforeReset s.port) = .command i rest ∧
      exec i { s with port := portAfter s.port rest } = .next t) ∨
    (∃ why rest, decode (wordsBeforeReset s.port) = .illegal why rest ∧
      t = State.raise { s with port := portAfter s.port rest } .illegalCommand) ∨
    (∃ p, decode (wordsBeforeReset s.port) = .incomplete ∧ afterReset s.port = some p ∧
      t = State.resetRegisters { s with port := p }) ∨
    (decode (wordsBeforeReset s.port) = .incomplete ∧ afterReset s.port = none ∧ t = s) := by
  unfold step State.fetch at h
  cases hd : decode (wordsBeforeReset s.port) with
  | command i rest => exact .inl ⟨i, rest, rfl, by simpa [hd] using h⟩
  | illegal why rest => exact .inr (.inl ⟨why, rest, rfl, (fail_eq_next.1 (by simpa [hd, takeIllegal] using h)).symm⟩)
  | incomplete =>
    cases hr : afterReset s.port with
    | some p => exact .inr (.inr (.inl ⟨p, rfl, rfl, by simpa [hd, hr, takeReset, eq_comm] using h⟩))
    | none => exact .inr (.inr (.inr ⟨rfl, rfl, by simpa [hd, hr, wait, eq_comm] using h⟩))

end Sys2Proof.Machine
end

