-- ==== Sys2Proof/Laws/Memory.lean ====
section
/-! SUPPORT. The laws of the byte memory: read after write, the canonical form, and the payload read in one pass. -/

namespace Sys2Proof.Machine

@[simp] theorem Memory.read_nil (i : Nat) : Memory.read [] i = none := rfl

theorem Memory.read_cons (a : Nat) (b : Byte) (m : Memory) (i : Nat) :
    Memory.read ((a, b) :: m) i = if a = i then some b else Memory.read m i := rfl

@[simp] theorem Memory.wf_nil : Memory.wf [] = true := rfl

theorem Memory.wf_cons (a : Nat) (b : Byte) (m : Memory) :
    Memory.wf ((a, b) :: m) = true ↔ (∀ c ∈ m, a < c.1) ∧ Memory.wf m = true := by
  simp [Memory.wf]

/-- The canonical form is that the addresses rise strictly. -/
theorem Memory.wf_iff_pairwise (m : Memory) :
    m.wf = true ↔ m.Pairwise (fun c d => c.1 < d.1) := by
  induction m with
  | nil => simp
  | cons c m ih => rw [show c = (c.1, c.2) from rfl, Memory.wf_cons, ih, List.pairwise_cons]

theorem Memory.read_none_of_forall_ne {m : Memory} {i : Nat} (h : ∀ c ∈ m, c.1 ≠ i) : m.read i = none := by
  induction m with
  | nil => rfl
  | cons c m ih =>
    obtain ⟨a, b⟩ := c
    have ha : a ≠ i := h (a, b) (by simp)
    rw [Memory.read_cons, if_neg ha]
    exact ih fun c hc => h c (by simp [hc])

/-! ## One byte written -/

theorem Memory.read_write_same (m : Memory) (i : Nat) (v : Byte) : (m.write i v).read i = some v := by
  induction m with
  | nil => simp [Memory.write, Memory.read]
  | cons c m ih =>
    obtain ⟨a, b⟩ := c
    unfold Memory.write
    split
    · simp [Memory.read]
    · split
      · simp [Memory.read]
      · rw [Memory.read_cons, if_neg (by omega), ih]

theorem Memory.read_write_other (m : Memory) {i j : Nat} (v : Byte) (h : j ≠ i) :
    (m.write i v).read j = m.read j := by
  induction m with
  | nil => simp [Memory.write, Memory.read]; omega
  | cons c m ih =>
    obtain ⟨a, b⟩ := c
    unfold Memory.write
    split
    · rw [Memory.read_cons, if_neg (by omega)]
    · split
      · rename_i hia
        subst hia
        rw [Memory.read_cons, Memory.read_cons, if_neg (by omega), if_neg (by omega)]
      · rw [Memory.read_cons, Memory.read_cons, ih]

theorem Memory.mem_write {m : Memory} {i : Nat} {v : Byte} {c : Host.Cell} (h : c ∈ m.write i v) :
    c = (i, v) ∨ c ∈ m := by
  induction m with
  | nil => simpa [Memory.write] using h
  | cons d m ih =>
    obtain ⟨a, b⟩ := d
    unfold Memory.write at h
    split at h
    · simpa using h
    · split at h
      · simp at h ⊢; tauto
      · simp at h ⊢
        rcases h with h | h
        · exact .inr (.inl h)
        · rcases ih h with h | h
          · exact .inl h
          · exact .inr (.inr h)

theorem Memory.write_wf {m : Memory} (h : m.wf = true) (i : Nat) (v : Byte) : (m.write i v).wf = true := by
  induction m with
  | nil => simp [Memory.write, Memory.wf]
  | cons c m ih =>
    obtain ⟨a, b⟩ := c
    rw [Memory.wf_cons] at h
    unfold Memory.write
    split
    · rw [Memory.wf_cons, Memory.wf_cons]
      refine ⟨?_, h⟩
      intro c hc
      rcases List.mem_cons.1 hc with rfl | hc
      · assumption
      · have := h.1 c hc; omega
    · split
      · rw [Memory.wf_cons]
        exact ⟨fun c hc => by have := h.1 c hc; omega, h.2⟩
      · rw [Memory.wf_cons]
        refine ⟨?_, ih h.2⟩
        intro c hc
        rcases Memory.mem_write hc with rfl | hc
        · show a < i; omega
        · exact h.1 c hc

/-! ## A block written from address 0 -/

theorem mem_cellsFrom {i : Nat} {bs : List Byte} {c : Host.Cell} (h : c ∈ cellsFrom i bs) :
    i ≤ c.1 ∧ c.1 < i + bs.length := by
  induction bs generalizing i with
  | nil => simp [cellsFrom] at h
  | cons b bs ih =>
    simp only [cellsFrom, List.mem_cons] at h
    rcases h with rfl | h
    · simp
    · have := ih h
      simp only [List.length_cons]
      omega

theorem cellsFrom_wf (i : Nat) (bs : List Byte) : Memory.wf (cellsFrom i bs) = true := by
  induction bs generalizing i with
  | nil => rfl
  | cons b bs ih =>
    rw [cellsFrom, Memory.wf_cons]
    exact ⟨fun c hc => by have := mem_cellsFrom hc; omega, ih (i + 1)⟩

theorem read_cellsFrom_append (i : Nat) (bs : List Byte) (m : Memory) (a : Nat) :
    Memory.read (cellsFrom i bs ++ m) a
      = if i ≤ a ∧ a < i + bs.length then bs[a - i]? else m.read a := by
  induction bs generalizing i with
  | nil =>
    rw [if_neg (by simp only [List.length_nil]; omega)]
    rfl
  | cons b bs ih =>
    rw [cellsFrom, List.cons_append, Memory.read_cons, ih (i + 1)]
    simp only [List.length_cons]
    by_cases h : i = a
    · subst h; simp
    · rw [if_neg h]
      by_cases h2 : i + 1 ≤ a ∧ a < i + 1 + bs.length
      · rw [if_pos h2, if_pos (by omega), show a - i = (a - (i + 1)) + 1 by omega, List.getElem?_cons_succ]
      · rw [if_neg h2, if_neg (by omega)]

theorem Memory.read_filter (m : Memory) (n a : Nat) (h : n ≤ a) :
    Memory.read (m.filter fun c => decide (n ≤ c.1)) a = m.read a := by
  induction m with
  | nil => rfl
  | cons c m ih =>
    obtain ⟨k, b⟩ := c
    by_cases hk : n ≤ k
    · rw [List.filter_cons_of_pos (by simpa using hk), Memory.read_cons, Memory.read_cons, ih]
    · rw [List.filter_cons_of_neg (by simpa using hk), Memory.read_cons, if_neg (by omega), ih]

/-- What a block write leaves: the block's bytes below its length, every other byte as before. -/
theorem Memory.read_writeBlock (m : Memory) (bs : List Byte) (a : Nat) :
    (m.writeBlock bs).read a = if a < bs.length then bs[a]? else m.read a := by
  unfold Memory.writeBlock
  rw [read_cellsFrom_append]
  by_cases h : a < bs.length
  · simp [h]
  · rw [if_neg (by omega), if_neg h, Memory.read_filter m _ _ (by omega)]

theorem Memory.mem_writeBlock {m : Memory} {bs : List Byte} {c : Host.Cell} (h : c ∈ m.writeBlock bs) :
    c.1 < bs.length ∨ c ∈ m := by
  rcases List.mem_append.1 h with h | h
  · have := mem_cellsFrom h
    left; omega
  · exact .inr (List.mem_filter.1 h).1

theorem Memory.writeBlock_wf {m : Memory} (h : m.wf = true) (bs : List Byte) : (m.writeBlock bs).wf = true := by
  rw [Memory.wf_iff_pairwise] at h ⊢
  unfold Memory.writeBlock
  refine List.pairwise_append.2 ⟨(Memory.wf_iff_pairwise _).1 (cellsFrom_wf 0 bs), h.filter _, ?_⟩
  intro c hc d hd
  have h1 := mem_cellsFrom hc
  have h2 := (List.mem_filter.1 hd).2
  simp only [decide_eq_true_eq] at h2
  omega

/-! ## Consecutive bytes read -/

@[simp] theorem Memory.readBytes_zero (m : Memory) (i : Nat) : m.readBytes i 0 = some [] := by
  cases m <;> rfl

theorem Memory.readBytes_length {m : Memory} {i n : Nat} {bs : List Byte} (h : m.readBytes i n = some bs) :
    bs.length = n := by
  induction m generalizing i n bs with
  | nil =>
    cases n with
    | zero => simp [Memory.readBytes] at h; simp [← h]
    | succ n => simp [Memory.readBytes] at h
  | cons c m ih =>
    obtain ⟨a, b⟩ := c
    cases n with
    | zero => simp at h; simp [← h]
    | succ n =>
      unfold Memory.readBytes at h
      split at h
      · obtain ⟨r, hr, rfl⟩ := Option.map_eq_some_iff.1 h
        simp [ih hr]
      · split at h
        · exact ih h
        · cases h

/-- On a canonical memory, the bytes read in one pass are those read one by one. -/
theorem Memory.readBytes_read {m : Memory} (hw : m.wf = true) {i n : Nat} {bs : List Byte}
    (h : m.readBytes i n = some bs) (k : Nat) (hk : k < n) : m.read (i + k) = bs[k]? := by
  induction m generalizing i n bs k with
  | nil =>
    cases n with
    | zero => omega
    | succ n => simp [Memory.readBytes] at h
  | cons c m ih =>
    obtain ⟨a, b⟩ := c
    rw [Memory.wf_cons] at hw
    cases n with
    | zero => omega
    | succ n =>
      unfold Memory.readBytes at h
      rw [Memory.read_cons]
      split at h
      · rename_i hai
        obtain ⟨r, hr, rfl⟩ := Option.map_eq_some_iff.1 h
        cases k with
        | zero => simp [hai]
        | succ k =>
          rw [if_neg (by omega), List.getElem?_cons_succ, ← ih hw.2 hr k (by omega)]
          congr 1; omega
      · split at h
        · rw [if_neg (by omega)]
          exact ih hw.2 h k hk
        · cases h

/-- On a canonical memory, bytes that are all there are read in one pass. -/
theorem Memory.readBytes_of_read {m : Memory} (hw : m.wf = true) {i n : Nat} {bs : List Byte}
    (hl : bs.length = n) (h : ∀ k, k < n → m.read (i + k) = bs[k]?) : m.readBytes i n = some bs := by
  induction m generalizing i n bs with
  | nil =>
    cases n with
    | zero => simp [List.eq_nil_of_length_eq_zero hl]
    | succ n =>
      have := h 0 (by omega)
      rw [Memory.read_nil, List.getElem?_eq_getElem (by omega)] at this
      cases this
  | cons c m ih =>
    obtain ⟨a, b⟩ := c
    rw [Memory.wf_cons] at hw
    cases n with
    | zero => simp [List.eq_nil_of_length_eq_zero hl]
    | succ n =>
      cases bs with
      | nil => simp at hl
      | cons v bs =>
        have h0 := h 0 (by omega)
        rw [Memory.read_cons, Nat.add_zero, List.getElem?_cons_zero] at h0
        unfold Memory.readBytes
        split
        · rename_i hai
          rw [if_pos hai] at h0
          rw [ih hw.2 (bs := bs) (by simpa using hl)]
          · simpa using h0
          · intro k hk
            have := h (k + 1) (by omega)
            rw [Memory.read_cons, if_neg (by omega), List.getElem?_cons_succ] at this
            rw [← this]; congr 1; omega
        · rename_i hai
          rw [if_neg hai] at h0
          split
          · refine ih hw.2 hl fun k hk => ?_
            have := h k hk
            rwa [Memory.read_cons, if_neg (by omega)] at this
          · rw [Memory.read_none_of_forall_ne fun c hc => by have := hw.1 c hc; omega] at h0
            cases h0

/-- The payload that a block write brought in is the one read back. -/
theorem Memory.readBytes_writeBlock {m : Memory} (hw : m.wf = true) (bs : List Byte) :
    (m.writeBlock bs).readBytes 0 bs.length = some bs := by
  refine Memory.readBytes_of_read (Memory.writeBlock_wf hw bs) rfl fun k hk => ?_
  rw [Memory.read_writeBlock, Nat.zero_add, if_pos hk]

/-- The payload of a state has `LEN` bytes. -/
theorem State.payload_length {s : State} {bytes : List Byte} (h : s.payload = some bytes) :
    bytes.length = s.len.toNat :=
  Memory.readBytes_length h

end Sys2Proof.Machine
end

