-- ==== Sys2Proof/Laws/PerInstr.lean ====
section
/-! SUPPORT. The family `EncodedLength`: an encoded command has the length that its header word alone tells (R68). -/

namespace Sys2Proof.Laws.EncodedLength

/-- A well-formed command is encoded as a header word and as many words after it as that word's length function says,
and its encoding is never empty. -/
def Statement (i : Instr) : Prop :=
  i.wellFormed = true → ∃ w ws, encode i = w :: ws ∧ ws.length + 1 = commandLength w

/-- A header word whose `op` is not `LOAD`'s is a command of one word. -/
theorem single (op a : BitVec 8) (imm : BitVec 16) (h : op.toNat ≠ 1) :
    commandLength (headerWord op a imm) = 1 := by
  unfold commandLength
  refine if_neg fun hw => h ?_
  have h24 : headerOp (headerWord op a imm &&& 0xFFFF0000#32) = headerOp 0x01000000#32 := by rw [hw]
  have hand : headerOp (headerWord op a imm &&& 0xFFFF0000#32) = headerOp (headerWord op a imm) := by
    unfold headerOp
    rw [BitVec.extractLsb'_and, show BitVec.extractLsb' 24 8 0xFFFF0000#32 = BitVec.allOnes 8 by decide,
      BitVec.and_allOnes]
  rw [hand, headerOp_headerWord] at h24
  rw [h24]; rfl

theorem singleW (op : BitVec 8) (v : BitVec 24) (h : op.toNat ≠ 1) : commandLength (headerWordW op v) = 1 := by
  have := single (headerOp (headerWordW op v)) (headerA (headerWordW op v)) (headerImm (headerWordW op v))
    (by simpa using h)
  rwa [headerWord_fields] at this

theorem loadHeader (len : BitVec 16) :
    commandLength (headerWord 0x01 0 len) = 1 + payloadWordCount len := by
  unfold commandLength
  rw [headerImm_headerWord, if_pos]
  apply BitVec.eq_of_getLsbD_eq
  intro k hk
  rw [BitVec.getLsbD_and]
  unfold headerWord
  rw [BitVec.getLsbD_append, BitVec.getLsbD_append]
  by_cases h : k < 16
  · have h1 : (0xFFFF0000#32).getLsbD k = false := by
      have : ∀ j : Fin 16, (0xFFFF0000#32).getLsbD j.val = false := by decide
      exact this ⟨k, h⟩
    have h2 : (0x01000000#32).getLsbD k = false := by
      have : ∀ j : Fin 16, (0x01000000#32).getLsbD j.val = false := by decide
      exact this ⟨k, h⟩
    rw [h1, h2, Bool.and_false]
  · rw [if_neg h]
    have : ∀ j : Fin 32, ¬ j.val < 16 →
        ((if j.val - 16 < 8 then (0#8).getLsbD (j.val - 16) else (0x01#8).getLsbD (j.val - 16 - 8)) &&
          (0xFFFF0000#32).getLsbD j.val) = (0x01000000#32).getLsbD j.val := by decide
    exact this ⟨k, hk⟩ h

theorem nop : Statement .nop := fun _ => ⟨_, _, rfl, (single _ _ _ (by decide)).symm⟩

theorem load (len : BitVec 16) (payload : List Word) : Statement (.load len payload) := by
  intro h
  refine ⟨_, _, rfl, ?_⟩
  rw [loadHeader, (wellFormed_load_iff len payload).1 h, Nat.add_comm]

theorem markbad : Statement .markbad := fun _ => ⟨_, _, rfl, (single _ _ _ (by decide)).symm⟩

theorem rdb (n : BitVec 8) : Statement (.rdb n) := fun _ => ⟨_, _, rfl, (single _ _ _ (by decide)).symm⟩

theorem deq (b : BitVec 8) : Statement (.deq b) := fun _ => ⟨_, _, rfl, (single _ _ _ (by decide)).symm⟩

theorem ansi (k : BitVec 8) : Statement (.ansi k) := fun _ => ⟨_, _, rfl, (single _ _ _ (by decide)).symm⟩

theorem setdf (df : BitVec 24) : Statement (.setdf df) := fun _ => ⟨_, _, rfl, (singleW _ _ (by decide)).symm⟩

theorem hyb (k : BitVec 16) : Statement (.hyb k) := fun _ => ⟨_, _, rfl, (single _ _ _ (by decide)).symm⟩

theorem dspec : Statement .dspec := fun _ => ⟨_, _, rfl, (single _ _ _ (by decide)).symm⟩

theorem dstat : Statement .dstat := fun _ => ⟨_, _, rfl, (single _ _ _ (by decide)).symm⟩

theorem dpgram : Statement .dpgram := fun _ => ⟨_, _, rfl, (single _ _ _ (by decide)).symm⟩

theorem vsel (ev : Option VariantKind) (tlen : BitVec 16) : Statement (.vsel ev tlen) :=
  fun _ => ⟨_, _, rfl, (single _ _ _ (by decide)).symm⟩

theorem dvar : Statement .dvar := fun _ => ⟨_, _, rfl, (single _ _ _ (by decide)).symm⟩

theorem get (r : BitVec 8) : Statement (.get r) := fun _ => ⟨_, _, rfl, (single _ _ _ (by decide)).symm⟩

theorem getrec (j : BitVec 8) (i : BitVec 16) : Statement (.getrec j i) :=
  fun _ => ⟨_, _, rfl, (single _ _ _ (by decide)).symm⟩

theorem srst : Statement .srst := fun _ => ⟨_, _, rfl, (single _ _ _ (by decide)).symm⟩

end Sys2Proof.Laws.EncodedLength
end

