-- ==== Sys2Proof/Laws/Units.lean ====
section
/-! SUPPORT. The small lemmas of the pure unit functions and operand forms. -/

namespace Sys2Proof.Machine

theorem bitAt_lt_two (bytes : List Byte) (p : Nat) : bitAt bytes p < 2 := Nat.mod_lt _ (by decide)

@[simp] theorem memRead_zero (bytes : List Byte) (p : Nat) : memRead bytes p 0 = 0 := rfl

theorem memRead_succ (bytes : List Byte) (p n : Nat) :
    memRead bytes p (n + 1) = 2 * memRead bytes p n + bitAt bytes (p + n) := rfl

/-- A field of `n` bits is below `2 ^ n` (R43, R84). -/
theorem memRead_lt (bytes : List Byte) (p n : Nat) : memRead bytes p n < 2 ^ n := by
  induction n with
  | zero => simp
  | succ n ih =>
    have := bitAt_lt_two bytes (p + n)
    rw [memRead_succ, Nat.pow_succ]
    omega

@[simp] theorem ansiTable_length : ansiTable.length = 28 := rfl

theorem hyb_linear (df k : Nat) (h : k ≤ 32) : hyb df k = (k + 2) * df := by
  unfold hyb; rw [if_pos (by simpa [linearCount] using h)]

theorem hyb_log (df k : Nat) (h : 33 ≤ k) : hyb df k = hybLog df (k - 33) := by
  unfold hyb; rw [if_neg (by simp [linearCount]; omega)]; rfl

@[simp] theorem laneBytes_length (ws : List Word) : (laneBytes ws).length = 4 * ws.length := by
  induction ws with
  | nil => rfl
  | cons w ws ih => simp only [laneBytes, wordBytes, List.length_append, ih, List.length_cons, List.length_nil]; omega

/-- A `LOAD` that carries enough words has `L` payload bytes. -/
theorem payloadBytes_length {len : BitVec 16} {ws : List Word} (h : len.toNat ≤ 4 * ws.length) :
    (payloadBytes len ws).length = len.toNat := by
  simp [payloadBytes, h]

@[simp] theorem Entry.field_zero (e : Entry) : e.field 0 = some (zext64 e.f) := rfl

@[simp] theorem Entry.field_succ (e : Entry) (j : Nat) : e.field (j + 1) = (e.v[j]?).map sext64 := rfl

@[simp] theorem selectVariant_explicit (v : VariantKind) (tlen : BitVec 16) : selectVariant (some v) tlen = v := rfl

end Sys2Proof.Machine
end

