-- ==== Sys2Proof/Tests/Slice0.lean ====
section
/-! SUPPORT. Small tests: the checks of WellFormed, words decoded, each command on one step, and for every statement with
hypotheses a state and operands that meet them. Expected values are those of spec/95_test_vectors.md, or worked by hand
from the rule named. -/

-- One theorem after the other: hundreds of kernel evaluations at once ask for more threads than the gate's memory limit
-- leaves.
set_option Elab.async false

namespace Sys2Proof.Tests

open Sys2Proof.Machine

/-! ## WellFormed -/

theorem test_load_word_missing_refused : (Instr.load 5#16 [0#32]).wellFormed = false := by decide
theorem test_load_word_too_many_refused : (Instr.load 4#16 [0#32, 0#32]).wellFormed = false := by decide
theorem test_load_fits : (Instr.load 5#16 [0#32, 0#32]).wellFormed = true := by decide

/-! ## Decoding: words of section 2.9 and part 3 -/

theorem test_decode_nop : decode [0x00000000#32] = .command .nop [] := by decide
theorem test_decode_load : decode [0x01000003#32, 0x61CBAB00#32, 7#32] = .command (.load 3 [0x61CBAB00#32]) [7#32] := by
  decide
theorem test_decode_load_empty : decode [0x01000000#32] = .command (.load 0 []) [] := by decide
theorem test_decode_load_incomplete : decode [0x01000005#32, 0#32] = .incomplete := by decide
theorem test_decode_markbad : decode [0x02000000#32] = .command .markbad [] := by decide
theorem test_decode_rdb : decode [0x030C0000#32] = .command (.rdb 12) [] := by decide
theorem test_decode_deq : decode [0x10080000#32] = .command (.deq 8) [] := by decide
theorem test_decode_ansi : decode [0x201B0000#32] = .command (.ansi 27) [] := by decide
theorem test_decode_setdf : decode [0x21001DCD#32] = .command (.setdf 7629) [] := by decide
theorem test_decode_hyb : decode [0x22000471#32] = .command (.hyb 1137) [] := by decide
theorem test_decode_dspec : decode [0x30000000#32] = .command .dspec [] := by decide
theorem test_decode_dstat : decode [0x31000000#32] = .command .dstat [] := by decide
theorem test_decode_dpgram : decode [0x32000000#32] = .command .dpgram [] := by decide
theorem test_decode_vsel : decode [0x330300C8#32] = .command (.vsel (some .pgram) 200) [] := by decide
theorem test_decode_vsel_none : decode [0x330000C7#32] = .command (.vsel none 199) [] := by decide
theorem test_decode_dvar : decode [0x34000000#32] = .command .dvar [] := by decide
theorem test_decode_get : decode [0x40070000#32] = .command (.get 7) [] := by decide
theorem test_decode_getrec : decode [0x4101001B#32] = .command (.getrec 1 27) [] := by decide
theorem test_decode_srst : decode [0x7F000000#32] = .command .srst [] := by decide
theorem test_decode_illegal :
    [0x01010000#32, 0x030C0001#32, 0x22010000#32, 0x30000001#32, 0x33040000#32, 0x00000001#32].map decodeHeader =
      List.replicate 6 (.illegal .reservedFieldNotZero) := by decide
theorem test_decode_unassigned :
    [0x7E000000#32, 0x42000000#32, 0x04000000#32, 0x11000000#32, 0x23000000#32, 0x35000000#32, 0xFFFFFFFF#32].map
      decodeHeader = List.replicate 7 (.illegal .unassignedOpcode) := by decide
theorem test_command_length :
    [0x01000000#32, 0x01000001#32, 0x01000005#32, 0x0100FFFF#32, 0x01010000#32, 0x30000000#32].map commandLength =
      [1, 2, 3, 16385, 1, 1] := by decide
theorem test_table_word : decodeTableWord 32 0x03210000 = some (.rdb 33) := by decide

/-! ## Helpers -/

/-- The next state, if there is one. -/
def after : Result → Option State
  | .next t => some t
  | .fault _ => none
  | .refused _ => none

/-- The reset state with a payload loaded. -/
def loaded (bytes : List Byte) : State :=
  { State.reset with buf := cellsFrom 0 bytes, len := BitVec.ofNat 16 bytes.length, bst := .valid }

/-- The bytes 0, 1, 2, ... of program P5. -/
def ramp (n : Nat) : List Byte := (List.range n).map (BitVec.ofNat 8)

/-- The reset state with one Spectrum-shaped record. -/
def oneRecord : State := { loaded [0#8] with record := ⟨1#16, 1#3, [⟨40000#64, [0xFD84#16]⟩]⟩ }

/-! ## One step of each command -/

theorem test_nop : after (exec .nop State.reset) = some (State.reset.respond 0) := by decide +kernel
-- P1.
theorem test_load : after (exec (.load 3 [0x61CBAB00]) State.reset) = some ((loaded [0x61, 0xCB, 0xAB]).respond 3) := by
  decide +kernel
-- Section 2.1: the old payload stays.
theorem test_load_bad_pad : after (exec (.load 2 [0xAABB00CC]) (loaded [0x61])) = some ((loaded [0x61]).raise .illegalCommand) := by
  decide +kernel
theorem test_markbad : (after (exec .markbad (loaded [0x61]))).map (fun t => (t.bst, t.len, t.buf)) =
    some (.bad, 0, [(0, 0x61)]) := by decide +kernel
-- Section 2.1: 32 bits from five bytes.
theorem test_rdb : (after (exec (.rdb 32) { loaded [0x01, 0x23, 0x45, 0x67, 0x89] with cur := 4 })).map
    (fun t => (t.raw, t.cur)) = some (some 0x12345678, 36) := by decide +kernel
theorem test_rdb_past_end : (after (exec (.rdb 12) { loaded [0x61, 0xCB, 0xAB] with cur := 24 })).map
    (fun t => (t.raw, t.cur, t.flt)) = some (none, 24, 2) := by decide +kernel
-- Section 2.2: floor, not truncation.
theorem test_deq : (after (exec (.deq 8) { State.reset with raw := some 1 })).map (fun t => t.spl.map BitVec.toInt) =
    some (some (-561)) := by decide +kernel
theorem test_deq_too_wide : (after (exec (.deq 8) { State.reset with raw := some 2185 })).map (fun t => (t.spl, t.flt)) =
    some (none, 0x20) := by decide +kernel
theorem test_ansi : (after (exec (.ansi 27) State.reset)).map (·.frq) = some (some 20000000) := by decide +kernel
theorem test_ansi_out_of_range : (after (exec (.ansi 28) State.reset)).map (fun t => (t.frq, t.flt)) = some (none, 0x20) := by
  decide +kernel
theorem test_setdf : (after (exec (.setdf 7629) State.reset)).map (fun t => (t.df, t.dfu)) = some (7629, true) := by
  decide +kernel
theorem test_setdf_zero : (after (exec (.setdf 0) State.reset)).map (fun t => (t.df, t.dfu, t.flt)) =
    some (7629, false, 0x20) := by decide +kernel
theorem test_hyb : (after (exec (.hyb 34) State.reset)).map (·.frq) = some (some 274839) := by decide +kernel
theorem test_hyb_overflow : (after (exec (.hyb 1137) State.reset)).map (fun t => (t.frq, t.flt)) = some (none, 0x80) := by
  decide +kernel
-- P5: the ramp under DSPEC.
theorem test_dspec : (after (exec .dspec (loaded (ramp 112)))).map
    (fun t => (t.record.entries[0]?, t.record.entries[27]?, t.cur)) =
      some (some ⟨40000, [0xFD84]⟩, some ⟨20000000, [9159]⟩, 336) := by decide +kernel
theorem test_dspec_truncated : (after (exec .dspec { oneRecord with cur := 3 })).map (fun t => (t.record, t.cur, t.flt)) =
    some (Record.empty, 0, 4) := by decide +kernel
-- P5.
theorem test_dstat : (after (exec .dstat (loaded (ramp 112)))).map
    (fun t => (t.record.entries[27]?, t.cur, t.raw, t.frq)) =
      some (some ⟨20000000, [7496, 7571, 7647, 7722]⟩, 896, some 111, some 20000000) := by decide +kernel
-- Section 2.5.
theorem test_dpgram : (after (exec .dpgram (loaded [0x00, 0x80, 0xFF]))).map (·.record) =
    some ⟨3, 1, [⟨15258, [0xFD84]⟩, ⟨22887, [9002]⟩, ⟨30516, [18564]⟩]⟩ := by decide +kernel
theorem test_dpgram_empty : (after (exec .dpgram (loaded []))).map (fun t => (t.record, t.raw, t.out)) =
    some (⟨0, 1, []⟩, none, [⟨.ok, 0⟩]) := by decide +kernel
-- Section 1.6.
theorem test_vsel_199 : (after (exec (.vsel none 199) State.reset)).map (·.var) = some (some .statistics) := by decide +kernel
theorem test_vsel_200 : (after (exec (.vsel none 200) State.reset)).map (·.var) = some (some .pgram) := by decide +kernel
-- Section 2.8: no prologue without a variant.
theorem test_dvar_none : after (exec .dvar oneRecord) = some (oneRecord.raise .empty) := by decide +kernel
theorem test_dvar_truncated : (after (exec .dvar { oneRecord with var := some .statistics })).map
    (fun t => (t.record, t.flt)) = some (Record.empty, 4) := by decide +kernel
theorem test_get_spl : (after (exec (.get 5) { State.reset with spl := some 0xFD84 })).map (·.out) =
    some [⟨.ok, 0xFFFFFFFFFFFFFD84⟩] := by decide +kernel
-- Section 2.7: DFU, VAR and the three valid bits.
theorem test_get_status : (after (exec (.get 0) { loaded [0] with
    dfu := true, var := some .pgram, raw := some 0, spl := some 0, frq := some 0 })).map (·.out) =
      some [⟨.ok, 0xFD⟩] := by decide +kernel
theorem test_getrec_level : (after (exec (.getrec 1 0) oneRecord)).map (·.out) = some [⟨.ok, 0xFFFFFFFFFFFFFD84⟩] := by
  decide +kernel
theorem test_getrec_no_field : (after (exec (.getrec 2 0) oneRecord)).map (·.flt) = some 0x20 := by decide +kernel
theorem test_srst : after (exec .srst { oneRecord with flt := 0xFC, df := 1 }) =
    some ({ State.reset with buf := [(0, 0)] }.respond 0) := by decide +kernel

/-! ## The step at the ports -/

theorem test_step_load : after (step (State.reset.deliver [.word 0x01000001, .word 0x61000000, .word 0])) =
    some (((loaded [0x61]).deliver [.word 0]).respond 1) := by decide +kernel
theorem test_step_illegal : after (step (State.reset.deliver [.word 0x05000000])) = some (State.reset.raise .illegalCommand) := by
  decide +kernel
-- R200: the reset input discards the partial LOAD, and gives no response.
theorem test_step_reset : after (step ((loaded [1]).deliver [.word 0x01000009, .word 0, .reset, .word 0])) =
    some ({ State.reset with buf := [(0, 1)] }.deliver [.word 0]) := by decide +kernel
theorem test_step_fetch_word : after (step (State.reset.withFetchWord 32 0x40070000)) = some (State.reset.respond 7629) := by
  decide +kernel

/-! ## The assembler -/

theorem test_load_line : loadLine 0x61 [(1, 0xCB), (0, 0xAB)] = "LOAD 61 CBAB" := by decide
theorem test_assemble_load : assemble "LOAD 61 CB AB ; three bytes" = .command (.load 3 [0x61CBAB00]) := by decide
theorem test_assemble_pseudo : ["RD12", "RD8", "DQ12", "DQ8", "VAUTO 250", "VSET PGRAM"].map assemble =
    ["RDB 12", "RDB 8", "DEQ 12", "DEQ 8", "VSEL NONE, 250", "VSEL PGRAM, 0"].map assemble := by decide
theorem test_assemble_rejected : ["RDB 256", "VSEL 4, 0", "LOAD 6", "rdb 3"].map assemble = List.replicate 4 .rejected := by
  decide
theorem test_assemble_kept : assemble "RDB 33" = .command (.rdb 33) := by decide

/-! ## Witnesses: for each statement with hypotheses, and each of its clauses, a state and operands that meet them -/

theorem witness_DecodeOfEncodedCommand : (Instr.load 5 [0xFFFFFFFF, 0xFFFFFFFF]).wellFormed = true ∧
    (Instr.rdb 255).wellFormed = true := by decide
theorem witness_EncodeOfDecodedCommand : decode [0x01000001#32, 0x61000000#32, 7#32] = .command (.load 1 [0x61000000]) [7] := by
  decide
theorem witness_DecoderFollowsMaskAndMatch : ∃ r ∈ opcodeTable, r.selects 0x33FFFFFF = false ∧ r.selects 0x3303FFFF = true := by
  decide
theorem witness_WordOfNoRowIsIllegalCommand :
    (∃ s : State, ∃ p, s.port = .word 0x04000000 :: p ∧ ∀ r ∈ opcodeTable, r.selects 0x04000000 = false) ∧
    (headerOp 0x80000000).toNat ∉ [0x00, 0x01, 0x02, 0x03, 0x10, 0x20, 0x21, 0x22, 0x30, 0x31, 0x32, 0x33, 0x34, 0x40,
      0x41, 0x7F] ∧
    ((headerOp 0x7F000001).toNat ∈ [0x00, 0x02, 0x30, 0x31, 0x32, 0x34, 0x7F] ∧ headerImm24 0x7F000001 ≠ 0) ∧
    ((headerOp 0x03210001).toNat ∈ [0x03, 0x10, 0x20, 0x40] ∧ headerImm 0x03210001 ≠ 0) ∧
    ((headerOp 0x01010003).toNat ∈ [0x01, 0x22] ∧ headerA 0x01010003 ≠ 0) ∧
    ((headerOp 0x33040000).toNat = 0x33 ∧ BitVec.extractLsb' 18 6 0x33040000#32 ≠ 0) :=
  ⟨⟨State.reset.deliver [.word 0x04000000], [], rfl, by decide⟩, by decide, by decide, by decide, by decide, by decide⟩
theorem witness_HeaderWordTellsCommandLength :
    decode [0x01000005#32, 0, 0, 7] = .command (.load 5 [0, 0]) [7] ∧
    decode [0x01010003#32, 7] = .illegal .reservedFieldNotZero [7] ∧ decode [0x01000005#32, 0] = .incomplete := by decide

theorem witness_StepRunsDecodedCommand : ∃ (s : State) (ws rest : List Word) (p : List PortEvent) (i : Instr),
    s.port = ws.map .word ++ p ∧ decode ws = .command i rest :=
  ⟨State.reset.deliver [.word 0x01000001, .word 0, .word 0, .reset], [0x01000001, 0, 0], [0], [.reset], .load 1 [0], rfl,
    by decide⟩
theorem witness_IncompleteCommandChangesNothing : ∃ (s : State) (ws : List Word),
    s.port = ws.map .word ∧ decode ws = .incomplete :=
  ⟨State.reset.deliver [.word 0x01000005, .word 0], [0x01000005, 0], rfl, by decide⟩
theorem witness_ResetInputDiscardsPartialCommand : ∃ (s : State) (ws : List Word) (p : List PortEvent),
    s.port = ws.map .word ++ .reset :: p ∧ decode ws = .incomplete :=
  ⟨(loaded [1]).deliver [.word 0x01000005, .word 0, .reset, .word 0], [0x01000005, 0], [.word 0], rfl, by decide⟩

theorem witness_NopOnlyResponds : headerOp 0x00000001#32 = 0 ∧ 0x00000001#32 ≠ 0 := by decide
-- At the smallest BUFCAP, a payload of exactly BUFCAP bytes; and a payload with a pad lane.
theorem witness_LoadStoresPayload :
    ((Instr.load 112 (List.replicate 28 0)).wellFormed = true ∧ (112#16).toNat ≤ (State.resetOf ⟨112⟩).cfg.bufcap ∧
      ∀ k, (112#16).toNat ≤ k → k < 4 * (List.replicate 28 (0 : Word)).length →
        ((List.replicate 28 (0 : Word)).getD (k / 4) 0#32).toNat / 2 ^ (24 - 8 * (k % 4)) % 256 = 0) ∧
    ((Instr.load 3 [0x61CBAB00]).wellFormed = true ∧ (3#16).toNat ≤ State.reset.cfg.bufcap ∧
      ∀ k, (3#16).toNat ≤ k → k < 4 * [0x61CBAB00#32].length →
        ([0x61CBAB00#32].getD (k / 4) 0#32).toNat / 2 ^ (24 - 8 * (k % 4)) % 256 = 0) := by
  refine ⟨⟨by decide, by decide, ?_⟩, by decide, by decide, ?_⟩
  · intro k h1 h2; simp at h1 h2; omega
  · intro k h1 h2
    simp at h1 h2
    obtain rfl : k = 3 := by omega
    decide
theorem witness_LoadFaultsLoadNothing :
    ((Instr.load 3 [0x61CBAB01]).wellFormed = true ∧ (3#16).toNat ≤ 3 ∧ 3 < 4 * [0x61CBAB01#32].length ∧
      ([0x61CBAB01#32].getD (3 / 4) 0#32).toNat / 2 ^ (24 - 8 * (3 % 4)) % 256 ≠ 0) ∧
    ((Instr.load 113 (List.replicate 29 0)).wellFormed = true ∧ (State.resetOf ⟨112⟩).cfg.bufcap < (113#16).toNat ∧
      ∀ k, (113#16).toNat ≤ k → k < 4 * (List.replicate 29 (0 : Word)).length →
        ((List.replicate 29 (0 : Word)).getD (k / 4) 0#32).toNat / 2 ^ (24 - 8 * (k % 4)) % 256 = 0) := by
  refine ⟨by decide, by decide, by decide, ?_⟩
  intro k h1 h2
  simp at h1 h2
  have : k = 113 ∨ k = 114 ∨ k = 115 := by omega
  rcases this with rfl | rfl | rfl <;> decide

/-- A state that no run reaches: a length with no byte behind it. -/
def hollow (n : Nat) : State := { State.reset with len := BitVec.ofNat 16 n, bst := .valid }

theorem witness_ModelStopsByName :
    ((hollow 4).bst = .valid ∧ (hollow 4).cur.toNat + (32#8).toNat ≤ 8 * (hollow 4).len.toNat ∧ (hollow 4).payload = none) ∧
    ((hollow 42).bst = .valid ∧ 42 ≤ (hollow 42).len.toNat ∧ (hollow 42).payload = none) ∧
    ((hollow 112).bst = .valid ∧ 112 ≤ (hollow 112).len.toNat ∧ (hollow 112).payload = none) ∧
    ((hollow 1).bst = .valid ∧ hyb (hollow 1).df.toNat ((hollow 1).len.toNat - 1) < 2 ^ 64 ∧ (hollow 1).payload = none) ∧
    (({ State.reset with record := ⟨1, 1, []⟩ } : State).record.field 0 1 = none) ∧
    (Instr.load 1 []).wellFormed = false := by decide +kernel

theorem witness_RdbReadsFieldAndAdvances :
    ((loaded [1, 2, 3, 4]).payload = some [1, 2, 3, 4] ∧ (0#20).toNat + (32#8).toNat ≤ 8 * (loaded [1, 2, 3, 4]).len.toNat) ∧
    ((loaded []).bst = .valid ∧ (loaded []).payload = some [] ∧ (0#20).toNat + (0#8).toNat ≤ 8 * (loaded []).len.toNat) := by
  decide +kernel
theorem witness_DeqConvertsRaw : 1 ≤ (1#8).toNat ∧ (1#8).toNat ≤ 32 ∧ (1#32).toNat < 2 ^ (1#8).toNat ∧
    (32#8).toNat ≤ 32 ∧ (0xFFFFFFFF#32).toNat < 2 ^ (32#8).toNat := by decide
theorem witness_AnsiReadsBandRom : ansiTable[(27#8).toNat]? = some 20000 ∧ ansiTable[(0#8).toNat]? = some 40 := by decide
theorem witness_SetdfSetsDfAndDfu : 1 ≤ (1#24).toNat := by decide
theorem witness_HybComputesEntry : hyb State.reset.df.toNat (1136#16).toNat < 2 ^ 64 := by decide +kernel
theorem witness_DspecDecodesSpectrum : (loaded (ramp 42)).bst = .valid ∧ (loaded (ramp 42)).payload = some (ramp 42) ∧
    42 ≤ (loaded (ramp 42)).len.toNat ∧ ({ loaded (ramp 42) with var := some .spectrum } : State).var = some .spectrum := by
  decide +kernel
theorem witness_DstatDecodesStatistics : (loaded (ramp 112)).bst = .valid ∧
    (loaded (ramp 112)).payload = some (ramp 112) ∧ 112 ≤ (loaded (ramp 112)).len.toNat := by decide +kernel
theorem witness_DpgramDecodesPgram : ((loaded []).payload = some [] ∧ (loaded []).len.toNat = 0) ∧
    ((loaded (ramp 36)).payload = some (ramp 36) ∧ (loaded (ramp 36)).len.toNat = 36 ∧
      hyb (loaded (ramp 36)).df.toNat 35 < 2 ^ 64) := by decide +kernel
theorem witness_VselSelectsVariant : (99#16).toNat < 100 ∧ (100 ≤ (100#16).toNat ∧ (199#16).toNat < 200) ∧
    200 ≤ (200#16).toNat := by decide
theorem witness_GetReadsRegister : ∃ s : State, s.raw = some 5 ∧ s.spl = some 0xFD84 ∧ s.frq = some 40000 :=
  ⟨{ State.reset with raw := some 5, spl := some 0xFD84, frq := some 40000 }, rfl, rfl, rfl⟩
theorem witness_GetrecReadsField : (0#16).toNat < oneRecord.record.recn.toNat ∧
    oneRecord.record.entries[(0#16).toNat]? = some ⟨40000, [0xFD84]⟩ ∧ (1#8).toNat ≤ oneRecord.record.recw.toNat ∧
    [0xFD84#16][(1#8).toNat - 1]? = some 0xFD84 := by decide

theorem witness_IllegalCommandRaisedExactlyWhen : ∃ (s : State) (w : Word) (p : List PortEvent),
    s.port = .word w :: p ∧ ∃ why, decodeHeader w = .illegal why :=
  ⟨State.reset.deliver [.word 0x03210001], 0x03210001, [], rfl, .reservedFieldNotZero, by decide⟩
-- A fault with a prologue, and one without.
theorem witness_FaultChangesOnlyFltAndPrologue :
    (∃ t, exec .dstat oneRecord = .next t ∧ t.out = oneRecord.out ++ [⟨.fault .truncated, 0⟩]) ∧
    (∃ t, exec (.ansi 28) oneRecord = .next t ∧ t.out = oneRecord.out ++ [⟨.fault .illegalOperand, 0⟩]) :=
  ⟨⟨oneRecord.prologue.raise .truncated, rfl, rfl⟩, ⟨oneRecord.raise .illegalOperand, rfl, rfl⟩⟩
theorem witness_EachCommandGivesOneResponse : ∃ t, exec .nop State.reset = .next t := ⟨_, rfl⟩
theorem witness_PayloadIsImmutable : ∃ (i : Instr) (t : State), (∀ len ws, i ≠ .load len ws) ∧ i ≠ .markbad ∧ i ≠ .srst ∧
    exec i (loaded [1]) = .next t := ⟨.setdf 1, _, by simp, by decide, by decide, rfl⟩
theorem witness_FaultBitsAreSticky :
    (∃ t, step (oneRecord.deliver [.word 0]) = .next t ∧ (∀ u, (oneRecord.deliver [.word 0]).fetch ≠ .command .srst u) ∧
      ∀ u, (oneRecord.deliver [.word 0]).fetch ≠ .reset u) ∧
    (∃ t u, step (oneRecord.deliver [.word 0x7F000000]) = .next t ∧
      (oneRecord.deliver [.word 0x7F000000]).fetch = .command .srst u) ∧
    (∃ t u, step (oneRecord.deliver [.reset]) = .next t ∧ (oneRecord.deliver [.reset]).fetch = .reset u) :=
  ⟨⟨_, rfl, fun _ h => (nomatch h), fun _ h => (nomatch h)⟩, ⟨_, _, rfl, rfl⟩, ⟨_, _, rfl, rfl⟩⟩
theorem witness_FaultMaskAndPortsDecideNothing : (∃ t, exec (.get 1) oneRecord = .next t) ∧
    ∃ t, Instr.get 0 ≠ .get 1 ∧ exec (.get 0) oneRecord = .next t := ⟨⟨_, rfl⟩, _, by decide, rfl⟩
theorem witness_MacroDecodeDependsOnPayloadAndDf :
    (∃ t, exec .dstat (loaded [1]) = .next t) ∧
    (∃ t, exec .dvar { loaded [1] with var := some .pgram } = .next t) ∧
    (∃ t, (loaded [1]).var = none ∧ exec .dvar (loaded [1]) = .next t) ∧
    ((loaded (ramp 42)).payload = some (ramp 42) ∧ (loaded (ramp 43)).payload = some (ramp 43) ∧
      (ramp 42).take 42 = (ramp 43).take 42) ∧
    ((loaded (ramp 112)).payload = some (ramp 112) ∧ (loaded (ramp 113)).payload = some (ramp 113) ∧
      (ramp 112).take 112 = (ramp 113).take 112) :=
  ⟨⟨_, rfl⟩, ⟨_, rfl⟩, ⟨_, rfl, rfl⟩, by decide +kernel, by decide +kernel⟩
theorem witness_MacroDecodeIsAllOrNothing : ∃ t, runsPrologue .dvar { oneRecord with var := some .pgram } = true ∧
    exec .dstat oneRecord = .next t := ⟨_, rfl, rfl⟩
theorem witness_DspecEqualsPrimitives : (loaded (ramp 42)).bst = .valid ∧ (loaded (ramp 42)).payload = some (ramp 42) ∧
    (loaded (ramp 42)).cur = 0 ∧ 42 ≤ (loaded (ramp 42)).len.toNat := by decide +kernel
theorem witness_DstatEqualsPrimitives : (loaded (ramp 112)).bst = .valid ∧ (loaded (ramp 112)).payload = some (ramp 112) ∧
    (loaded (ramp 112)).cur = 0 ∧ 112 ≤ (loaded (ramp 112)).len.toNat := by decide +kernel
theorem witness_DpgramEqualsPrimitives : (loaded (ramp 36)).bst = .valid ∧ (loaded (ramp 36)).payload = some (ramp 36) ∧
    (loaded (ramp 36)).cur = 0 ∧ (loaded (ramp 36)).raw = none ∧ (loaded (ramp 36)).spl = none ∧
    (loaded (ramp 36)).frq = none ∧ hyb (loaded (ramp 36)).df.toNat ((loaded (ramp 36)).len.toNat - 1) < 2 ^ 64 ∧
    (loaded []).bst = .valid ∧ (loaded []).payload = some [] ∧ (loaded []).cur = 0 ∧ (loaded []).len.toNat = 0 := by
  decide +kernel
theorem witness_ConsecutiveReadsJoin : (12#8).toNat + (20#8).toNat ≤ 32 ∧ 0x61C < 2 ^ (12#8).toNat ∧
    0 < 2 ^ (20#8).toNat := by decide
theorem witness_ReadSequenceWalksPayload : (loaded [0xA5, 0x3C]).bst = .valid ∧
    (loaded [0xA5, 0x3C]).payload = some [0xA5, 0x3C] ∧ (loaded [0xA5, 0x3C]).cur = 0 ∧
    (∀ n ∈ [3#8, 7#8, 6#8, 0#8], n.toNat ≤ 32) ∧
    ([3#8, 7#8, 6#8, 0#8].map BitVec.toNat).sum ≤ 8 * (loaded [0xA5, 0x3C]).len.toNat := by decide +kernel

theorem witness_MemReadIsSumOfBits : 32 ≤ 32 ∧ 8 + 32 ≤ 8 * [0x01#8, 0x23, 0x45, 0x67, 0x89].length ∧ 32 = 31 + 1 := by
  decide
-- Five bytes: each clause's last read that fits, and the last field of 32 bits that starts inside a byte.
theorem witness_MemReadSplitsAndReadsBigEndian : 0 + 8 + 32 ≤ 8 * [1#8, 2, 3, 4, 5].length ∧
    (32 % 8 = 0 ∧ 32 + 8 ≤ 8 * [1#8, 2, 3, 4, 5].length) ∧ (24 % 8 = 0 ∧ 24 + 16 ≤ 8 * [1#8, 2, 3, 4, 5].length) ∧
    (8 % 8 = 0 ∧ 8 + 32 ≤ 8 * [1#8, 2, 3, 4, 5].length) ∧ 24 * 1 + 12 ≤ 8 * [1#8, 2, 3, 4, 5].length ∧
    24 * 0 + 24 ≤ 8 * [1#8, 2, 3, 4, 5].length ∧
    (7 + 32 ≤ 8 * [1#8, 2, 3, 4, 5].length ∧ 7 + 32 ≤ 8 * [1#8, 2, 3, 4, 5, 6].length ∧
      ∀ k, k < 5 → 8 * (7 / 8 + k) < 7 + 32 → [1#8, 2, 3, 4, 5].getD (7 / 8 + k) 0#8 =
        [1#8, 2, 3, 4, 5, 6].getD (7 / 8 + k) 0#8) := by decide
theorem witness_DeqIsNearestHundredth : 1 ≤ 32 ∧ 32 ≤ 32 ∧ 2 ^ 32 - 1 < 2 ^ 32 := by decide
theorem witness_DeqIsMonotonicBetweenBoundaries : 1 ≤ 14 ∧ 14 ≤ 14 ∧ 0 < 1 ∧ 1 < 2 ^ 14 := by decide
theorem witness_HybIsRoundedExactFrequency : 2 ^ 24 - 1 < 2 ^ 24 ∧ 32 ≤ 32 ∧ 33 ≤ 33 ∧ 1 ≤ 2 ^ 24 - 1 := by decide
theorem witness_HybSequenceRises : 1 < 2 ^ 24 ∧ 1 ≤ 1 ∧ 32 < 33 := by decide
theorem witness_HybOverflowIndices : 2 ^ 64 ≤ hyb 7629 1137 ∧ 7629 < 2 ^ 24 ∧ 1137 ≤ 1138 ∧ 32 ≤ 32 ∧
    1 ≤ 2 ^ 24 - 1 ∧ 2 ^ 24 - 1 < 2 ^ 24 := by decide +kernel
theorem witness_BlockWriteIsLoopOfByteWrites : Memory.wf [(0, 1), (7, 2)] = true := by decide
theorem witness_InvariantHoldsAtReset : Config.Admitted ⟨112⟩ ∧ Config.Admitted ⟨65535⟩ := by decide
theorem witness_AssembledLoadCarriesPayload : (List.replicate 65534 (1, (0 : Byte))).length + 1 < 2 ^ 16 ∧
    2 ^ 16 ≤ (List.replicate 65535 (0, (0 : Byte))).length + 1 := by
  rw [List.length_replicate, List.length_replicate]; decide

/-- A state with a payload, a record and a command on the port that satisfies the invariant. -/
theorem oneRecord_inv : Inv (oneRecord.deliver [.word 0x7F000000]) where
  admitted := by decide
  bufCanonical := by decide
  bufWithinCapacity := by decide
  payloadHeld := ⟨[0], by decide⟩
  lenLe := by decide
  curLe := by decide
  noPayloadEmpty := by decide
  badEmpty := by decide
  dfPositive := by decide
  dfDefault := by decide
  splRange := by intro v h; cases h
  recwLegal := by decide
  recwZero := by decide
  recwFour := by decide
  recnLe := by decide
  recordsHeld := by decide
  levelsHeld := by decide
  recordsValid := by decide
  frequenciesRise := by decide
  fltBitZero := by decide

theorem witness_InvariantKeptByStep : ∃ s t, Inv s ∧ step s = .next t := ⟨_, _, oneRecord_inv, rfl⟩
theorem witness_ReachableStatesNeverStop : Reachable ((State.resetOf ⟨112⟩).deliver [.word 0x01000005, .reset]) :=
  .deliver _ _ (.powerOn ⟨112⟩ (by decide))

end Sys2Proof.Tests
end

section
/-! # The `STATUS` view (10_state.md, R23)

What `GET 0` reads, and each field of the view. The fields follow from the layout of the word, said once for the single
bits (`State.statusWord_getLsbD`); a field of two or more bits is found by dropping the fields below it. -/

namespace Sys2Proof.Machine

/-! ## Reading a register with `GET` -/

theorem exec_get (r : BitVec 8) (s : State) : exec (.get r) s = execGet r s := rfl

/-- `GET` of a register that holds a value responds with it and changes nothing else (R158). -/
theorem execGet_of_value {r : BitVec 8} {s : State} {v : BitVec 64} (h : readRegister s r = .value v) :
    execGet r s = finish s v := by
  simp only [execGet, h]

/-- Register 0 is `STATUS`, which always holds a value (R24). -/
theorem readRegister_zero (s : State) : readRegister s 0#8 = .value (zext64 s.statusWord) := rfl

theorem exec_get_zero (s : State) : exec (.get 0#8) s = finish s (zext64 s.statusWord) :=
  (exec_get 0#8 s).trans (execGet_of_value (readRegister_zero s))

/-! ## The fields of `STATUS` -/

section
variable (s : State)

/-- Every bit of `STATUS`, the fields from bit 0 upwards. -/
theorem State.statusWord_getLsbD (k : Nat) :
    s.statusWord.getLsbD k =
      if k < 2 then s.bst.code.getLsbD k
      else if k < 3 then s.dfu
      else if k < 5 then (variantCode s.var).getLsbD (k - 3)
      else if k < 6 then s.raw.isSome
      else if k < 7 then s.spl.isSome
      else if k < 8 then s.frq.isSome
      else false := by
  simp only [State.statusWord, BitVec.getLsbD_append, BitVec.getLsbD_ofBool, BitVec.getLsbD_zero, Nat.sub_sub]
  grind

theorem State.statusWord_bst : s.statusWord.extractLsb' 0 2 = s.bst.code :=
  BitVec.extractLsb'_append_eq_right

theorem State.statusWord_dfu : s.statusWord.getLsbD 2 = s.dfu := s.statusWord_getLsbD 2

theorem State.statusWord_var : s.statusWord.extractLsb' 3 2 = variantCode s.var := by
  unfold State.statusWord
  rw [BitVec.extractLsb'_append_eq_of_le, BitVec.extractLsb'_append_eq_of_le]
  · exact BitVec.extractLsb'_append_eq_right
  all_goals decide

theorem State.statusWord_rawv : s.statusWord.getLsbD 5 = s.raw.isSome := s.statusWord_getLsbD 5

theorem State.statusWord_splv : s.statusWord.getLsbD 6 = s.spl.isSome := s.statusWord_getLsbD 6

theorem State.statusWord_frqv : s.statusWord.getLsbD 7 = s.frq.isSome := s.statusWord_getLsbD 7

/-- Bits 15:8 always read as 0. -/
theorem State.statusWord_high : s.statusWord.extractLsb' 8 8 = 0#8 := by
  apply BitVec.eq_of_getLsbD_eq
  intro i _
  have above : ∀ n, n ≤ 8 → ¬ 8 + i < n := by omega
  simp [State.statusWord_getLsbD, above]

end

/-- The reset column of R23: every field of `STATUS` is 0. -/
theorem State.reset_statusWord : State.reset.statusWord = 0#16 := by decide

/-- Settles O58: the read by `GET 0`, each field of the view with its encoding (R13, R20), and the view at reset. -/
theorem statusViewLayout : Obligations.StatusViewLayout := by
  unfold Obligations.StatusViewLayout
  refine ⟨exec_get_zero, fun s => ⟨?bst, s.statusWord_dfu, ?var, s.statusWord_rawv, s.statusWord_splv,
    s.statusWord_frqv, s.statusWord_high⟩, State.reset_statusWord⟩
  case bst =>
    rw [s.statusWord_bst]
    cases s.bst <;> rfl
  case var =>
    rw [s.statusWord_var]
    rcases s.var with _ | (_ | _ | _) <;> rfl

end Sys2Proof.Machine
end

section
/-! # The bit order and `MemRead` (20_memory.md, R42 to R44)

The laws of the field read: it splits at every point, inside one byte it is a shift and a mask, and it depends on the bits
it covers alone. None of them needs the field to lie inside the payload: the model reads zeros there (log entry 11). -/

namespace Sys2Proof.Machine

/-! ## One bit -/

/-- R42 with the shift and the mask it is written with. -/
theorem shiftRight_and_one_eq_bitAt (bytes : List Byte) (p : Nat) :
    ((bytes.getD (p / 8) 0#8).toNat >>> (7 - p % 8)) &&& 1 = bitAt bytes p := by
  rw [Nat.shiftRight_eq_div_pow, Nat.and_one_is_mod, bitAt]

theorem bitAt_congr {bytes bytes' : List Byte} {p : Nat}
    (h : bytes.getD (p / 8) 0#8 = bytes'.getD (p / 8) 0#8) : bitAt bytes p = bitAt bytes' p := by
  rw [bitAt, bitAt, h]

/-- A bit by its byte and its place in the byte, bit 7 first. -/
theorem bitAt_mul_add (bytes : List Byte) (k : Nat) {i : Nat} (h : i < 8) :
    bitAt bytes (8 * k + i) = (bytes.getD k 0#8).toNat / 2 ^ (7 - i) % 2 := by
  rw [bitAt, Nat.mul_add_div (by decide), Nat.div_eq_of_lt h, Nat.add_zero, Nat.mul_add_mod, Nat.mod_eq_of_lt h]

/-! ## Fields -/

/-- Two reads of `a` then `b` bits see the same bits as one read of `a + b` bits (R44, item 1). -/
theorem memRead_add (bytes : List Byte) (p a b : Nat) :
    memRead bytes p (a + b) = memRead bytes p a * 2 ^ b + memRead bytes (p + a) b := by
  induction b with
  | zero => simp
  | succ b ih =>
    rw [← Nat.add_assoc a, memRead_succ, memRead_succ, ih, Nat.pow_succ, Nat.add_assoc p]
    ring

/-- `MemRead` is the sum of its bits, the first most significant (R43). -/
theorem memRead_eq_sum (bytes : List Byte) (p n : Nat) :
    memRead bytes p n = ∑ j ∈ Finset.range n, bitAt bytes (p + j) * 2 ^ (n - 1 - j) := by
  induction n with
  | zero => rfl
  | succ n ih =>
    have weight_doubles : ∀ j ∈ Finset.range n,
        2 * (bitAt bytes (p + j) * 2 ^ (n - 1 - j)) = bitAt bytes (p + j) * 2 ^ (n - j) := by
      intro j hj
      have hlt := Finset.mem_range.1 hj
      rw [show n - j = n - 1 - j + 1 by omega, Nat.pow_succ]
      ring
    rw [memRead_succ, ih, Finset.mul_sum, Finset.sum_congr rfl weight_doubles, Finset.sum_range_succ]
    simp

/-- A field depends on the bits it covers alone. -/
theorem memRead_congr {bytes bytes' : List Byte} {p n : Nat}
    (h : ∀ j < n, bitAt bytes (p + j) = bitAt bytes' (p + j)) : memRead bytes p n = memRead bytes' p n := by
  rw [memRead_eq_sum, memRead_eq_sum]
  exact Finset.sum_congr rfl fun j hj => by rw [h j (Finset.mem_range.1 hj)]

/-! ## Fields inside one byte -/

/-- A field inside byte `k` is the byte shifted down to the field's last bit and masked. -/
theorem memRead_within_byte (bytes : List Byte) (k i : Nat) {n : Nat} (h : i + n ≤ 8) :
    memRead bytes (8 * k + i) n = (bytes.getD k 0#8).toNat / 2 ^ (8 - i - n) % 2 ^ n := by
  induction n with
  | zero => simp [Nat.mod_one]
  | succ n ih =>
    have last_bit : 7 - (i + n) = 8 - i - (n + 1) := by omega
    have shift_succ : 8 - i - n = 8 - i - (n + 1) + 1 := by omega
    rw [memRead_succ, ih (by omega), Nat.add_assoc, bitAt_mul_add _ _ (by omega), last_bit, shift_succ, Nat.pow_succ,
      ← Nat.div_div_eq_div_mul, Nat.pow_succ', Nat.mod_mul, Nat.add_comm]

/-- Eight bits from a byte boundary are the byte (R44, item 2). -/
theorem memRead_byte (bytes : List Byte) (k : Nat) : memRead bytes (8 * k) 8 = (bytes.getD k 0#8).toNat := by
  rw [← Nat.add_zero (8 * k), memRead_within_byte bytes k 0 (by decide)]
  have := (bytes.getD k 0#8).isLt
  omega

theorem memRead_high_nibble (bytes : List Byte) (k : Nat) :
    memRead bytes (8 * k) 4 = (bytes.getD k 0#8).toNat >>> 4 := by
  rw [← Nat.add_zero (8 * k), memRead_within_byte bytes k 0 (by decide), Nat.shiftRight_eq_div_pow]
  have := (bytes.getD k 0#8).isLt
  omega

theorem memRead_low_nibble (bytes : List Byte) (k : Nat) :
    memRead bytes (8 * k + 4) 4 = (bytes.getD k 0#8).toNat &&& 15 := by
  rw [memRead_within_byte bytes k 4 (by decide), Nat.and_two_pow_sub_one_eq_mod _ 4]
  simp

/-! ## Fields over several bytes, big-endian -/

/-- The first byte of a field that starts at a byte boundary is its most significant one. -/
theorem memRead_byte_add (bytes : List Byte) (k n : Nat) :
    memRead bytes (8 * k) (8 + n) = (bytes.getD k 0#8).toNat * 2 ^ n + memRead bytes (8 * (k + 1)) n := by
  rw [memRead_add, memRead_byte, Nat.mul_succ]

theorem memRead_two_bytes (bytes : List Byte) (k : Nat) :
    memRead bytes (8 * k) 16 = (bytes.getD k 0#8).toNat * 2 ^ 8 + (bytes.getD (k + 1) 0#8).toNat := by
  rw [memRead_byte_add bytes k 8, memRead_byte]

theorem memRead_four_bytes (bytes : List Byte) (k : Nat) :
    memRead bytes (8 * k) 32 = (bytes.getD k 0#8).toNat * 2 ^ 24 + (bytes.getD (k + 1) 0#8).toNat * 2 ^ 16 +
      (bytes.getD (k + 2) 0#8).toNat * 2 ^ 8 + (bytes.getD (k + 3) 0#8).toNat := by
  rw [memRead_byte_add bytes k 24, memRead_byte_add bytes (k + 1) 16, memRead_two_bytes]
  ring

/-- Twelve bits from a byte boundary: a byte and the upper half of the next. -/
theorem memRead_byte_nibble (bytes : List Byte) (k : Nat) :
    memRead bytes (8 * k) 12 = (bytes.getD k 0#8).toNat * 2 ^ 4 + ((bytes.getD (k + 1) 0#8).toNat >>> 4) := by
  rw [memRead_byte_add bytes k 4, memRead_high_nibble]

/-- Twelve bits from the middle of a byte: its lower half and the next byte. -/
theorem memRead_nibble_byte (bytes : List Byte) (k : Nat) :
    memRead bytes (8 * k + 4) 12 =
      ((bytes.getD k 0#8).toNat &&& 15) * 2 ^ 8 + (bytes.getD (k + 1) 0#8).toNat := by
  rw [memRead_add bytes _ 4 8, memRead_low_nibble, Nat.add_assoc, ← Nat.mul_succ, memRead_byte]

/-- A field of at most 32 bits lies in the five bytes from its first one on; it depends on those of them that start before
its end (R44, item 5). -/
theorem memRead_congr_bytes {bytes bytes' : List Byte} {p n : Nat} (hn : n ≤ 32)
    (h : ∀ k < 5, 8 * (p / 8 + k) < p + n → bytes.getD (p / 8 + k) 0#8 = bytes'.getD (p / 8 + k) 0#8) :
    memRead bytes p n = memRead bytes' p n := by
  refine memRead_congr fun j hj => bitAt_congr ?_
  obtain ⟨k, hk⟩ : ∃ k, (p + j) / 8 = p / 8 + k := Nat.exists_eq_add_of_le (by omega)
  rw [hk]
  exact h k (by omega) (by omega)

/-! ## The obligations -/

/-- Settles O46: the sum and the recursion speak of the bits as R42 writes them. -/
theorem memReadIsSumOfBits : Obligations.MemReadIsSumOfBits := by
  unfold Obligations.MemReadIsSumOfBits
  intro bytes p n _ _
  simp only [shiftRight_and_one_eq_bitAt]
  refine ⟨memRead_eq_sum bytes p n, memRead_zero bytes p, ?recursion, Nat.le_sub_one_of_lt (memRead_lt bytes p n)⟩
  case recursion =>
    rintro m rfl
    exact memRead_succ bytes p m

/-- Settles O47: R44 item by item; an aligned address `p` is `8 * (p / 8)`. -/
theorem memReadSplitsAndReadsBigEndian : Obligations.MemReadSplitsAndReadsBigEndian := by
  unfold Obligations.MemReadSplitsAndReadsBigEndian
  intro bytes bytes'
  have aligned {p : Nat} (h : p % 8 = 0) : 8 * (p / 8) = p := Nat.mul_div_cancel' (Nat.dvd_of_mod_eq_zero h)
  refine ⟨fun p a b _ => memRead_add bytes p a b, ?byte, ?halfword, ?word, ?even, ?odd,
    fun p n hn _ _ h => memRead_congr_bytes hn h⟩
  case byte =>
    intro p hp _
    rw [← memRead_byte, aligned hp]
  case halfword =>
    intro p hp _
    simpa only [aligned hp, Nat.reducePow] using memRead_two_bytes bytes (p / 8)
  case word =>
    intro p hp _
    simpa only [aligned hp] using memRead_four_bytes bytes (p / 8)
  case even =>
    intro m _
    rw [show 24 * m = 8 * (3 * m) by omega]
    exact memRead_byte_nibble bytes (3 * m)
  case odd =>
    intro m _
    rw [show 24 * m + 12 = 8 * (3 * m + 1) + 4 by omega]
    exact memRead_nibble_byte bytes (3 * m + 1)

end Sys2Proof.Machine
end

section
/-! # Illegal header words (30_encoding.md, R64 and R65)

A row's mask and match speak of the three fields of a header word separately (`OpcodeRow.selects_iff_fields`), and the
decoder gives a word the command of the row it selects (`selects_iff_mnemonic`). So the words of no row are those the
decoder finds illegal, and R65's cases are read off the decoder. -/

namespace Sys2Proof

/-! ## Mask and match, field by field -/

theorem headerWord_inj {op op' a a' : BitVec 8} {imm imm' : BitVec 16} :
    headerWord op a imm = headerWord op' a' imm' ↔ op = op' ∧ a = a' ∧ imm = imm' := by
  constructor
  · intro h
    exact ⟨by simpa using congrArg headerOp h, by simpa using congrArg headerA h, by simpa using congrArg headerImm h⟩
  · rintro ⟨rfl, rfl, rfl⟩
    rfl

/-- Two words are equal when their fields are (R61). -/
theorem word_eq_iff_fields {v w : Word} :
    v = w ↔ headerOp v = headerOp w ∧ headerA v = headerA w ∧ headerImm v = headerImm w := by
  rw [← headerWord_inj, headerWord_fields, headerWord_fields]

theorem headerOp_and (v w : Word) : headerOp (v &&& w) = headerOp v &&& headerOp w := BitVec.extractLsb'_and

theorem headerA_and (v w : Word) : headerA (v &&& w) = headerA v &&& headerA w := BitVec.extractLsb'_and

theorem headerImm_and (v w : Word) : headerImm (v &&& w) = headerImm v &&& headerImm w := BitVec.extractLsb'_and

/-- A word selects a row when each of its fields does, under its part of the mask (R64). -/
theorem OpcodeRow.selects_iff_fields (r : OpcodeRow) (w : Word) :
    r.selects w = true ↔ headerOp w &&& headerOp r.mask = headerOp r.pattern ∧
      headerA w &&& headerA r.mask = headerA r.pattern ∧ headerImm w &&& headerImm r.mask = headerImm r.pattern := by
  rw [OpcodeRow.selects, beq_iff_eq, word_eq_iff_fields, headerOp_and, headerA_and, headerImm_and]

/-- The 24-bit field is zero when both fields it reads as one are. -/
theorem headerImm24_eq_zero_iff (w : Word) :
    (headerImm24 w).toNat = 0 ↔ (headerA w).toNat = 0 ∧ (headerImm w).toNat = 0 := by
  rw [← headerWord_fields w, headerImm24_headerWord, headerA_headerWord, headerImm_headerWord]
  omega

/-- `VSEL`'s reserved field, bits 23:18, as the upper six bits of `a`. -/
theorem extractLsb'_headerA (w : Word) : (headerA w).extractLsb' 2 6 = w.extractLsb' 18 6 := by
  apply BitVec.eq_of_getLsbD_eq
  intro k hk
  simp only [headerA, BitVec.getLsbD_extractLsb', ← Nat.add_assoc]
  have : 2 + k < 8 := by omega
  simp [this, hk]

/-! ## The table by formats -/

/-- The row of a command by its `op` and the bits of `a` and of `imm` that its format reserves (R62). -/
def formatRow (mnemonic : String) (op reservedA : BitVec 8) (reservedImm : BitVec 16) : OpcodeRow :=
  ⟨mnemonic, headerWord op 0#8 0#16, headerWord (BitVec.allOnes 8) reservedA reservedImm⟩

theorem formatRow_selects_iff (m : String) (op ra : BitVec 8) (ri : BitVec 16) (w : Word) :
    (formatRow m op ra ri).selects w = true ↔
      (headerOp w).toNat = op.toNat ∧ headerA w &&& ra = 0#8 ∧ headerImm w &&& ri = 0#16 := by
  rw [OpcodeRow.selects_iff_fields, ← BitVec.toNat_eq]
  simp only [formatRow, headerOp_headerWord, headerA_headerWord, headerImm_headerWord, BitVec.and_allOnes]

/-- The table of R64 by the formats of its commands. -/
theorem opcodeTable_eq_formatRows : opcodeTable =
    [formatRow "NOP" 0x00 0xFF 0xFFFF, formatRow "LOAD" 0x01 0xFF 0, formatRow "MARKBAD" 0x02 0xFF 0xFFFF,
     formatRow "RDB" 0x03 0 0xFFFF, formatRow "DEQ" 0x10 0 0xFFFF, formatRow "ANSI" 0x20 0 0xFFFF,
     formatRow "SETDF" 0x21 0 0, formatRow "HYB" 0x22 0xFF 0, formatRow "DSPEC" 0x30 0xFF 0xFFFF,
     formatRow "DSTAT" 0x31 0xFF 0xFFFF, formatRow "DPGRAM" 0x32 0xFF 0xFFFF, formatRow "VSEL" 0x33 0xFC 0,
     formatRow "DVAR" 0x34 0xFF 0xFFFF, formatRow "GET" 0x40 0 0xFFFF, formatRow "GETREC" 0x41 0 0,
     formatRow "SRST" 0x7F 0xFF 0xFFFF] := by
  decide

theorem and_allOnes_eq_zero_iff {n : Nat} (x : BitVec n) : x &&& BitVec.allOnes n = 0#n ↔ x.toNat = 0 := by
  rw [BitVec.and_allOnes, BitVec.toNat_eq, BitVec.toNat_zero]

/-- What `VSEL` reserves of `a` is its upper six bits. -/
theorem and_upperSix_eq_zero_iff : ∀ a : BitVec 8, a &&& 0xFC#8 = 0#8 ↔ (a.extractLsb' 2 6).toNat = 0 := by decide

/-! ## Illegal words and rows -/

theorem Header.mnemonic_single (i : Instr) : (Header.single i).mnemonic = some i.mnemonic := rfl

theorem Header.mnemonic_load (len : BitVec 16) : (Header.load len).mnemonic = some "LOAD" := rfl

theorem Header.mnemonic_illegal (why : IllegalWord) : (Header.illegal why).mnemonic = none := rfl

/-- The command of a header word whose reserved field must be zero is named only when it is (R65). -/
theorem whenZero_mnemonic_eq_some_iff (n : Nat) (h : Header) (m : String) :
    (whenZero n h).mnemonic = some m ↔ n = 0 ∧ h.mnemonic = some m := by
  by_cases hn : n = 0
  · simp [hn, whenZero_zero]
  · simp [hn, whenZero_of_ne, Header.mnemonic]

/-- The decoder gives a header word the command of the row it selects (R64). -/
theorem selects_iff_mnemonic (w : Word) :
    ∀ r ∈ opcodeTable, r.selects w = true ↔ (decodeHeader w).mnemonic = some r.mnemonic := by
  have reservedA : headerA w &&& 0xFF#8 = 0#8 ↔ (headerA w).toNat = 0 := and_allOnes_eq_zero_iff _
  have reservedImm : headerImm w &&& 0xFFFF#16 = 0#16 ↔ (headerImm w).toNat = 0 := and_allOnes_eq_zero_iff _
  rw [opcodeTable_eq_formatRows]
  simp only [List.forall_mem_cons, List.not_mem_nil, false_implies, implies_true, and_true, formatRow_selects_iff]
  unfold decodeHeader
  split
  case h_17 => simp_all [formatRow, Header.mnemonic_illegal]
  all_goals
    simp [formatRow, whenZero_mnemonic_eq_some_iff, Header.mnemonic_single, Header.mnemonic_load, Instr.mnemonic,
      and_upperSix_eq_zero_iff, headerImm24_eq_zero_iff, *]

/-- Every command has its row in the table (R64). -/
theorem exists_row_of_mnemonic (i : Instr) : ∃ r ∈ opcodeTable, r.mnemonic = i.mnemonic := by
  cases i <;> simp [opcodeTable, Instr.mnemonic]

theorem exists_row_of_header {h : Header} {m : String} (hm : h.mnemonic = some m) :
    ∃ r ∈ opcodeTable, r.mnemonic = m := by
  cases h with
  | single i => exact Option.some.inj hm ▸ exists_row_of_mnemonic i
  | load len => exact Option.some.inj hm ▸ exists_row_of_mnemonic (.load len [])
  | illegal why => cases hm

theorem Header.mnemonic_eq_none_iff (h : Header) : h.mnemonic = none ↔ ∃ why, h = .illegal why := by
  cases h <;> simp [Header.mnemonic]

/-- The words of no row are those the decoder finds illegal (R65). -/
theorem decodeHeader_illegal_iff (w : Word) :
    (∃ why, decodeHeader w = .illegal why) ↔ ∀ r ∈ opcodeTable, r.selects w = false := by
  rw [← Header.mnemonic_eq_none_iff]
  constructor
  · intro hnone r hr
    rw [Bool.eq_false_iff, ne_eq, selects_iff_mnemonic w r hr, hnone]
    exact nofun
  · intro hrows
    by_contra hsome
    obtain ⟨m, hm⟩ := Option.ne_none_iff_exists'.1 hsome
    obtain ⟨r, hr, rfl⟩ := exists_row_of_header hm
    exact Bool.eq_false_iff.1 (hrows r hr) ((selects_iff_mnemonic w r hr).2 hm)

/-! ## The cases of R65 -/

section
variable {w : Word}

/-- Case (a). -/
theorem decodeHeader_of_unassigned (h : (headerOp w).toNat ∉ [0x00, 0x01, 0x02, 0x03, 0x10, 0x20, 0x21, 0x22, 0x30, 0x31,
    0x32, 0x33, 0x34, 0x40, 0x41, 0x7F]) : decodeHeader w = .illegal .unassignedOpcode := by
  unfold decodeHeader
  split
  case h_17 => rfl
  all_goals simp_all

theorem whenZero_toNat_of_ne {n : Nat} {field : BitVec n} (h : field ≠ 0#n) (header : Header) :
    whenZero field.toNat header = .illegal .reservedFieldNotZero :=
  whenZero_of_ne (fun h0 => h (BitVec.eq_of_toNat_eq h0)) header

/-- Case (b), format Z: a bit of 23:0. -/
theorem decodeHeader_reserved_of_formatZ (hop : (headerOp w).toNat ∈ [0x00, 0x02, 0x30, 0x31, 0x32, 0x34, 0x7F])
    (h : headerImm24 w ≠ 0#24) : decodeHeader w = .illegal .reservedFieldNotZero := by
  unfold decodeHeader
  generalize (headerOp w).toNat = op at hop
  fin_cases hop <;> exact whenZero_toNat_of_ne h _

/-- Case (b), format A: a bit of 15:0. -/
theorem decodeHeader_reserved_of_formatA (hop : (headerOp w).toNat ∈ [0x03, 0x10, 0x20, 0x40])
    (h : headerImm w ≠ 0#16) : decodeHeader w = .illegal .reservedFieldNotZero := by
  unfold decodeHeader
  generalize (headerOp w).toNat = op at hop
  fin_cases hop <;> exact whenZero_toNat_of_ne h _

/-- Case (b), format I: a bit of 23:16. -/
theorem decodeHeader_reserved_of_formatI (hop : (headerOp w).toNat ∈ [0x01, 0x22])
    (h : headerA w ≠ 0#8) : decodeHeader w = .illegal .reservedFieldNotZero := by
  unfold decodeHeader
  generalize (headerOp w).toNat = op at hop
  fin_cases hop <;> exact whenZero_toNat_of_ne h _

/-- Case (b), `VSEL`: a bit of 23:18. -/
theorem decodeHeader_reserved_of_vsel (hop : (headerOp w).toNat = 0x33) (h : w.extractLsb' 18 6 ≠ 0#6) :
    decodeHeader w = .illegal .reservedFieldNotZero := by
  rw [← extractLsb'_headerA] at h
  simp only [decodeHeader, hop, whenZero_toNat_of_ne h]

end

end Sys2Proof

namespace Sys2Proof.Machine

/-! ## The step -/

/-- An illegal word is taken as one word, whatever its `op`, and it is all that is taken (R65). -/
theorem State.fetch_of_illegal {s : State} {w : Word} {p : List PortEvent} {why : IllegalWord}
    (hport : s.port = .word w :: p) (hw : decodeHeader w = .illegal why) :
    s.fetch = .illegal { s with port := p } := by
  have hwords : wordsBeforeReset s.port = w :: wordsBeforeReset p := by rw [hport, wordsBeforeReset]
  have hdecode : decode (w :: wordsBeforeReset p) = .illegal why (wordsBeforeReset p) := by simp only [decode, hw]
  have hrest : portAfter s.port (wordsBeforeReset p) = p := hport ▸ portAfter_words [w] p
  simp only [State.fetch, hwords, hdecode, hrest]

/-- The step on an illegal word takes the fault and does nothing else (R65, R174). -/
theorem step_of_illegal {s : State} {w : Word} {p : List PortEvent} {why : IllegalWord}
    (hport : s.port = .word w :: p) (hw : decodeHeader w = .illegal why) :
    step s = fail { s with port := p } .illegalCommand := by
  simp only [step, State.fetch_of_illegal hport hw, takeIllegal]

/-- Settles O4: the words of no row are those the decoder finds illegal; the first clause is the step on such a word, and
cases (a) and (b) are what the decoder answers for each format. -/
theorem wordOfNoRowIsIllegalCommand : Obligations.WordOfNoRowIsIllegalCommand := by
  unfold Obligations.WordOfNoRowIsIllegalCommand
  refine ⟨?step, rfl, ?unassigned, ?formatZ, ?formatA, ?formatI, ?vsel⟩
  case step =>
    intro s w p hport hrows
    obtain ⟨why, hw⟩ := (decodeHeader_illegal_iff w).2 hrows
    exact step_of_illegal hport hw
  case unassigned => exact fun w h => (decodeHeader_illegal_iff w).1 ⟨_, decodeHeader_of_unassigned h⟩
  case formatZ => exact fun w hop h => (decodeHeader_illegal_iff w).1 ⟨_, decodeHeader_reserved_of_formatZ hop h⟩
  case formatA => exact fun w hop h => (decodeHeader_illegal_iff w).1 ⟨_, decodeHeader_reserved_of_formatA hop h⟩
  case formatI => exact fun w hop h => (decodeHeader_illegal_iff w).1 ⟨_, decodeHeader_reserved_of_formatI hop h⟩
  case vsel => exact fun w hop h => (decodeHeader_illegal_iff w).1 ⟨_, decodeHeader_reserved_of_vsel hop h⟩

end Sys2Proof.Machine
end

section
/-! # The payload between two lines (40_bit_reader.md, R82)

A payload is `BUF` and `LEN`, and two states agree on it when both are equal. Every command but the three that begin or
discard a line keeps it in each of the ways it can answer (the `_next` lemmas): completing, taking a fault and the
prologue of a record decoder write neither register, and no body of a record decoder does. -/

namespace Sys2Proof.Machine

/-- The two states hold the same payload: `BUF`, all of it, and `LEN`. -/
structure State.SamePayload (s t : State) : Prop where
  buf : t.buf = s.buf
  len : t.len = s.len

section
variable {s t : State}

theorem State.SamePayload.read_eq (h : s.SamePayload t) (a : Nat) : t.buf.read a = s.buf.read a := by rw [h.buf]

theorem State.SamePayload.payload_eq (h : s.SamePayload t) : t.payload = s.payload := by
  rw [State.payload, State.payload, h.buf, h.len]

/-! ## The commands on single fields and registers -/

theorem execNop_samePayload (h : execNop s = .next t) : s.SamePayload t :=
  execNop_next h ▸ ⟨rfl, rfl⟩

theorem execRdb_samePayload {n : BitVec 8} (h : execRdb n s = .next t) : s.SamePayload t := by
  obtain ⟨-, rfl⟩ | ⟨-, -, rfl⟩ | ⟨-, -, rfl⟩ | ⟨-, -, -, rfl⟩ | ⟨-, -, -, bytes, -, rfl⟩ := execRdb_next h <;>
    exact ⟨rfl, rfl⟩

theorem execDeq_samePayload {b : BitVec 8} (h : execDeq b s = .next t) : s.SamePayload t := by
  obtain ⟨-, rfl⟩ | ⟨-, -, -, rfl⟩ | ⟨-, -, raw, -, -, rfl⟩ | ⟨-, -, raw, -, -, rfl⟩ := execDeq_next h <;>
    exact ⟨rfl, rfl⟩

theorem execAnsi_samePayload {k : BitVec 8} (h : execAnsi k s = .next t) : s.SamePayload t := by
  obtain ⟨-, rfl⟩ | ⟨-, rfl⟩ := execAnsi_next h <;> exact ⟨rfl, rfl⟩

theorem execSetdf_samePayload {df : BitVec 24} (h : execSetdf df s = .next t) : s.SamePayload t := by
  obtain ⟨-, rfl⟩ | ⟨-, rfl⟩ := execSetdf_next h <;> exact ⟨rfl, rfl⟩

theorem execHyb_samePayload {k : BitVec 16} (h : execHyb k s = .next t) : s.SamePayload t := by
  obtain ⟨-, rfl⟩ | ⟨-, rfl⟩ := execHyb_next h <;> exact ⟨rfl, rfl⟩

theorem execVsel_samePayload {ev : Option VariantKind} {tlen : BitVec 16} (h : execVsel ev tlen s = .next t) :
    s.SamePayload t :=
  execVsel_next h ▸ ⟨rfl, rfl⟩

theorem execGet_samePayload {r : BitVec 8} (h : execGet r s = .next t) : s.SamePayload t := by
  obtain ⟨-, rfl⟩ | ⟨-, rfl⟩ | ⟨v, -, rfl⟩ := execGet_next h <;> exact ⟨rfl, rfl⟩

theorem execGetrec_samePayload {j : BitVec 8} {i : BitVec 16} (h : execGetrec j i s = .next t) : s.SamePayload t := by
  obtain ⟨-, rfl⟩ | ⟨-, -, v, -, rfl⟩ := execGetrec_next h <;> exact ⟨rfl, rfl⟩

/-! ## The record decoders -/

theorem spectrumBody_samePayload (bytes : List Byte) (s : State) : s.SamePayload (spectrumBody bytes s) := ⟨rfl, rfl⟩

theorem statisticsBody_samePayload (bytes : List Byte) (s : State) : s.SamePayload (statisticsBody bytes s) := ⟨rfl, rfl⟩

theorem pgramBody_samePayload (bytes : List Byte) (s : State) : s.SamePayload (pgramBody bytes s) := by
  unfold pgramBody
  split <;> exact ⟨rfl, rfl⟩

/-- A record decoder keeps the payload, faulting or not, if its body does. -/
theorem macroDecode_samePayload {need : Nat} {ov : Bool} {body : List Byte → State → State}
    (hbody : ∀ bytes u, State.SamePayload u (body bytes u)) (h : macroDecode need ov body s = .next t) :
    s.SamePayload t := by
  obtain ⟨-, rfl⟩ | ⟨-, rfl⟩ | ⟨-, -, rfl⟩ | ⟨-, -, -, rfl⟩ | ⟨-, -, -, bytes, -, rfl⟩ := macroDecode_next h
  case inr.inr.inr.inr =>
    obtain ⟨hbuf, hlen⟩ := hbody bytes s.prologue
    exact ⟨hbuf, hlen⟩
  all_goals exact ⟨rfl, rfl⟩

theorem decodeSpectrum_samePayload (h : decodeSpectrum s = .next t) : s.SamePayload t :=
  macroDecode_samePayload spectrumBody_samePayload h

theorem decodeStatistics_samePayload (h : decodeStatistics s = .next t) : s.SamePayload t :=
  macroDecode_samePayload statisticsBody_samePayload h

theorem decodePgram_samePayload (h : decodePgram s = .next t) : s.SamePayload t :=
  macroDecode_samePayload pgramBody_samePayload h

theorem execDvar_samePayload (h : execDvar s = .next t) : s.SamePayload t := by
  obtain ⟨-, rfl⟩ | ⟨-, hd⟩ | ⟨-, hd⟩ | ⟨-, hd⟩ := execDvar_next h
  · exact ⟨rfl, rfl⟩
  · exact decodeSpectrum_samePayload hd
  · exact decodeStatistics_samePayload hd
  · exact decodePgram_samePayload hd

/-! ## Every command -/

/-- The frame of the payload: only `LOAD`, `MARKBAD` and `SRST` write `BUF` or `LEN` (R82). -/
theorem exec_samePayload {i : Instr} (hload : ∀ len ws, i ≠ .load len ws) (hmarkbad : i ≠ .markbad) (hsrst : i ≠ .srst)
    (h : exec i s = .next t) : s.SamePayload t := by
  cases i with
  | nop => exact execNop_samePayload h
  | load len ws => exact absurd rfl (hload len ws)
  | markbad => exact absurd rfl hmarkbad
  | rdb n => exact execRdb_samePayload h
  | deq b => exact execDeq_samePayload h
  | ansi k => exact execAnsi_samePayload h
  | setdf df => exact execSetdf_samePayload h
  | hyb k => exact execHyb_samePayload h
  | dspec => exact decodeSpectrum_samePayload h
  | dstat => exact decodeStatistics_samePayload h
  | dpgram => exact decodePgram_samePayload h
  | vsel ev tlen => exact execVsel_samePayload h
  | dvar => exact execDvar_samePayload h
  | get r => exact execGet_samePayload h
  | getrec j k => exact execGetrec_samePayload h
  | srst => exact absurd rfl hsrst

end

/-- Settles O36: each command but the three keeps `BUF` and `LEN`, and the payload is read off these two. -/
theorem payloadIsImmutable : Obligations.PayloadIsImmutable := by
  intro i s t hload hmarkbad hsrst h
  have hsame := exec_samePayload hload hmarkbad hsrst h
  exact ⟨hsame.read_eq, hsame.len, hsame.payload_eq⟩

end Sys2Proof.Machine
end

section
/-! # The law of the Dequantizer (41_dequantizer.md, R100 to R104)

R103 in its own letters: `M` is `fullScale`, `N` is `exactNumerator`, and the exact level is `N / (10 * M)` cdB. `M` is odd
and `N` is even, so the exact level never lies halfway between two hundredths (R104); hence the level is off by strictly
less than half a hundredth (`abs_exactNumerator_sub_lt`), and the rest of R103 follows from this one bound. -/

namespace Sys2Proof.Machine

/-- `M` of R103: the largest sample of `b` bits. -/
def fullScale (b : Nat) : ℤ := 2 ^ b - 1

/-- `N` of R103: the exact level in mdB, times `M`. -/
def exactNumerator (raw b : Nat) : ℤ := 192000 * raw - 6358 * fullScale b

/-- The formula of R103. -/
theorem deq_eq_ediv (raw b : Nat) :
    deq raw b = (2 * exactNumerator raw b + 10 * fullScale b) / (20 * fullScale b) := by
  rw [exactNumerator, sub_eq_add_neg, ← neg_mul]
  rfl

/-! ## The full scale -/

section
variable {raw b : Nat}

theorem fullScale_pos (hb : 1 ≤ b) : 0 < fullScale b :=
  sub_pos.2 (one_lt_pow₀ (by decide) (Nat.ne_of_gt hb))

theorem fullScale_odd (hb : 1 ≤ b) : Odd (fullScale b) :=
  (even_two.pow_of_ne_zero (Nat.ne_of_gt hb)).sub_odd odd_one

theorem fullScale_lt (hb : b ≤ 32) : fullScale b < 2 ^ 32 :=
  Int.sub_one_lt_of_le (pow_le_pow_right₀ (by decide) hb)

theorem le_fullScale (h : raw < 2 ^ b) : (raw : ℤ) ≤ fullScale b :=
  Int.le_sub_one_of_lt (by exact_mod_cast h)

/-- The full scale as the quotients of rationals in R101 and R103 write it. -/
theorem fullScale_cast (b : Nat) : (fullScale b : ℚ) = 2 ^ b - 1 := by
  simp [fullScale]

theorem exactNumerator_cast (raw b : Nat) :
    (exactNumerator raw b : ℚ) = 192000 * raw - 6358 * fullScale b := by
  simp [exactNumerator]

/-! ## The exact level and the rounded one -/

theorem exactNumerator_even (raw b : Nat) : Even (exactNumerator raw b) :=
  Even.sub (Even.mul_right (by decide) _) (Even.mul_right (by decide) _)

/-- The exact level lies between the document's -6.358 dB and 185.642 dB. -/
theorem exactNumerator_mem_Icc (h : raw < 2 ^ b) :
    exactNumerator raw b ∈ Set.Icc (-6358 * fullScale b) (185642 * fullScale b) := by
  have hraw := le_fullScale h
  rw [exactNumerator]
  constructor <;> omega

/-- No tie (R104): the exact level is not halfway below a hundredth, for `10 * M * q - 5 * M` is odd. -/
theorem exactNumerator_ne_tie (hb : 1 ≤ b) (q : ℤ) : exactNumerator raw b ≠ 10 * fullScale b * q - 5 * fullScale b := by
  intro tie
  have multiple_even : Even (10 * fullScale b * q) := (Even.mul_right (by decide) _).mul_right q
  have half_odd : Odd (5 * fullScale b) := Odd.mul (by decide) (fullScale_odd hb)
  exact Int.not_even_iff_odd.2 (multiple_even.sub_odd half_odd) (tie ▸ exactNumerator_even raw b)

/-- The rounding error, in units of `1 / (10 * M)` cdB: strictly less than half a hundredth of a decibel. -/
theorem abs_exactNumerator_sub_lt (hb : 1 ≤ b) :
    |exactNumerator raw b - 10 * fullScale b * deq raw b| < 5 * fullScale b := by
  have divisor_pos : 0 < 20 * fullScale b := mul_pos (by decide) (fullScale_pos hb)
  have quotient_le := Int.mul_ediv_self_le (x := 2 * exactNumerator raw b + 10 * fullScale b) divisor_pos.ne'
  have lt_quotient_succ := Int.lt_mul_ediv_self_add (x := 2 * exactNumerator raw b + 10 * fullScale b) divisor_pos
  have no_tie := exactNumerator_ne_tie (raw := raw) hb (deq raw b)
  rw [← deq_eq_ediv] at quotient_le lt_quotient_succ
  have twice : 20 * fullScale b * deq raw b = 2 * (10 * fullScale b * deq raw b) := by ring
  rw [abs_lt]
  constructor <;> omega

/-- The same bound on the exact level in cdB. -/
theorem abs_exact_sub_deq_lt (hb : 1 ≤ b) :
    |(exactNumerator raw b : ℚ) / (10 * fullScale b) - deq raw b| < 1 / 2 := by
  have scale_pos : (0 : ℚ) < 10 * fullScale b := mul_pos (by norm_num) (Int.cast_pos.2 (fullScale_pos hb))
  have error_lt : |(exactNumerator raw b : ℚ) - 10 * fullScale b * deq raw b| < 5 * fullScale b := by
    exact_mod_cast abs_exactNumerator_sub_lt hb
  rw [div_sub' scale_pos.ne', abs_div, abs_of_pos scale_pos, div_lt_iff₀ scale_pos]
  linarith only [error_lt]

/-! ## The clauses of R103 -/

/-- `floor(x + 1/2)` of the exact level `x` in cdB. -/
theorem deq_eq_floor (hb : 1 ≤ b) :
    deq raw b = ⌊(exactNumerator raw b : ℚ) / (10 * fullScale b) + 1 / 2⌋ := by
  obtain ⟨above, below⟩ := abs_lt.1 (abs_exact_sub_deq_lt (raw := raw) hb)
  symm
  rw [Int.floor_eq_iff]
  constructor <;> linarith only [above, below]

theorem abs_exactNumerator_lt (hb : b ≤ 32) (h : raw < 2 ^ b) : |exactNumerator raw b| < 2 ^ 50 := by
  obtain ⟨low, high⟩ := exactNumerator_mem_Icc h
  have := fullScale_lt hb
  rw [abs_lt]
  constructor <;> omega

/-- `N / (10 * M)` cdB is a hundred times the exact value in dB as R101 writes it. -/
theorem exact_div_hundred (hb : 1 ≤ b) :
    (exactNumerator raw b : ℚ) / (10 * fullScale b) / 100 = -6358 / 1000 + raw * 192 / fullScale b := by
  have scale_ne : (fullScale b : ℚ) ≠ 0 := Int.cast_ne_zero.2 (fullScale_pos hb).ne'
  rw [exactNumerator_cast]
  field_simp
  ring

theorem abs_deq_div_hundred_sub_lt (hb : 1 ≤ b) :
    |(deq raw b : ℚ) / 100 - (-6358 / 1000 + raw * 192 / fullScale b)| < 1 / 200 := by
  rw [← exact_div_hundred hb, ← sub_div, abs_div, abs_sub_comm, abs_of_pos (by norm_num : (0 : ℚ) < 100),
    div_lt_iff₀ (by norm_num)]
  linarith only [abs_exact_sub_deq_lt (raw := raw) hb]

/-- The range of a level: the document's bounds, rounded. -/
theorem deq_mem_Icc (hb : 1 ≤ b) (h : raw < 2 ^ b) : deq raw b ∈ Set.Icc (-636) 18564 := by
  have scale_pos := fullScale_pos hb
  obtain ⟨low, high⟩ := exactNumerator_mem_Icc h
  obtain ⟨above, below⟩ := abs_lt.1 (abs_exactNumerator_sub_lt (raw := raw) hb)
  constructor
  · have : fullScale b * -637 < fullScale b * deq raw b := by linarith only [low, below, scale_pos]
    exact Int.add_one_le_of_lt (lt_of_mul_lt_mul_left this scale_pos.le)
  · have : fullScale b * deq raw b < fullScale b * 18565 := by linarith only [high, above, scale_pos]
    exact Int.le_of_lt_add_one (lt_of_mul_lt_mul_left this scale_pos.le)

/-- A level fits the 16-bit register `SPL` (R16). -/
theorem toInt_ofInt_deq (hb : 1 ≤ b) (h : raw < 2 ^ b) : (BitVec.ofInt 16 (deq raw b)).toInt = deq raw b := by
  obtain ⟨low, high⟩ := deq_mem_Icc hb h
  rw [BitVec.toInt_ofInt]
  exact Int.bmod_eq_of_le (by omega) (by omega)

end

/-- Settles O48: R103 clause by clause; the divisor is positive, so the model's division is the floor division. -/
theorem deqIsNearestHundredth : Obligations.DeqIsNearestHundredth := by
  intro raw b hb hwidth hraw
  obtain ⟨low, high⟩ := deq_mem_Icc hb hraw
  refine ⟨?floorDivision, ?floor, abs_exactNumerator_lt hwidth hraw, ?nearest, low, high, toInt_ofInt_deq hb hraw⟩
  case floorDivision =>
    have divisor_nonneg : 0 ≤ 20 * fullScale b := mul_nonneg (by decide) (fullScale_pos hb).le
    exact (deq_eq_ediv raw b).trans (Int.fdiv_eq_ediv_of_nonneg _ divisor_nonneg).symm
  case floor =>
    rw [← fullScale_cast, ← exactNumerator_cast]
    exact deq_eq_floor hb
  case nearest =>
    rw [← fullScale_cast]
    exact abs_deq_div_hundred_sub_lt hb

end Sys2Proof.Machine
end

section
/-! # The band tables (42_band_tables.md, R110 to R122)

The model takes a logarithmic entry from `hybRoot`, the integer 24th root of `hybRadicand`, and everything said here
about such an entry rests on one fact, `le_hybRoot_iff`: `m` is at most the root exactly when `m ^ 24` is at most the
radicand. Read over the real numbers it makes the root the integer part of twice the exact frequency (R116), and so the
entry that frequency rounded (R118). Read at a bound it tells which entries reach `2 ^ 64` without computing them (R122). -/

namespace Sys2Proof.Machine

/-! ## The ANSI table -/

/-- Settles O50. The ratio 5/4 stands between the bands 40 Hz and 50 Hz, the ratio 32/25 between 125 Hz and 160 Hz. -/
theorem ansiTableRatios : Obligations.AnsiTableRatios :=
  ⟨ansiTable_length, by decide, ⟨0, by decide⟩, ⟨5, by decide⟩⟩

/-! ## The integer 24th root -/

/-- The digit search keeps `acc` at or below the root and the root below `acc + 2 ^ bits`. -/
theorem le_rootFrom_iff {x bits acc : Nat} (low : acc ^ 24 ≤ x) (high : x < (acc + 2 ^ bits) ^ 24) (m : Nat) :
    m ≤ rootFrom x bits acc ↔ m ^ 24 ≤ x := by
  induction bits generalizing acc with
  | zero =>
    constructor
    · intro le_acc
      exact (Nat.pow_le_pow_left le_acc 24).trans low
    · intro pow_le
      exact Nat.le_of_lt_succ (lt_of_pow_lt_pow_left₀ 24 (Nat.zero_le _) (pow_le.trans_lt high))
  | succ bits ih =>
    rw [rootFrom]
    split
    next digit => exact ih digit (by rwa [Nat.add_assoc, ← Nat.two_mul, ← Nat.pow_succ'])
    next noDigit => exact ih low (Nat.lt_of_not_le noDigit)

theorem le_root24_iff {bits x : Nat} (h : x < (2 ^ bits) ^ 24) (m : Nat) : m ≤ root24 bits x ↔ m ^ 24 ≤ x :=
  le_rootFrom_iff (Nat.zero_le x) (by rwa [Nat.zero_add]) m

/-! ## The root behind a logarithmic entry -/

/-- The 24th power of twice the exact value of R116 in mHz, a natural number (R118); `n` is `k - 33`. -/
def hybRadicand (df n : Nat) : Nat := (2 * (35 * df)) ^ 24 * 2 ^ n

/-- `y` of R118, as the model computes it. -/
def hybRoot (df n : Nat) : Nat := root24 (32 + n / 24) (hybRadicand df n)

theorem hyb_log_eq_hybRoot (df n : Nat) : hyb df (33 + n) = (hybRoot df n + 1) / 2 := by
  rw [hyb_log df (33 + n) (Nat.le_add_right 33 n), Nat.add_sub_cancel_left]
  rfl

theorem hybRadicand_monotone (df : Nat) : Monotone (hybRadicand df) := fun _ _ h =>
  Nat.mul_le_mul_left _ (Nat.pow_le_pow_right two_pos h)

section
variable {df : Nat} (hdf : df < 2 ^ 24) (n : Nat)
include hdf

/-- The model searches for enough bits of the root. -/
theorem hybRadicand_lt : hybRadicand df n < (2 ^ (32 + n / 24)) ^ 24 :=
  calc (2 * (35 * df)) ^ 24 * 2 ^ n
      ≤ (2 * (35 * df)) ^ 24 * 2 ^ ((n / 24 + 1) * 24) := by gcongr <;> omega
    _ = (2 * (35 * df) * 2 ^ (n / 24 + 1)) ^ 24 := by rw [pow_mul, mul_pow _ (2 ^ (n / 24 + 1))]
    _ < (2 ^ 31 * 2 ^ (n / 24 + 1)) ^ 24 := by gcongr; omega
    _ = (2 ^ (32 + n / 24)) ^ 24 := by rw [← pow_add]; congr 2; omega

theorem le_hybRoot_iff (m : Nat) : m ≤ hybRoot df n ↔ m ^ 24 ≤ hybRadicand df n :=
  le_root24_iff (hybRadicand_lt hdf n) m

theorem hybRoot_lt_iff (m : Nat) : hybRoot df n < m ↔ hybRadicand df n < m ^ 24 := by
  rw [← Nat.not_le, le_hybRoot_iff hdf, Nat.not_le]

end

/-! ## The exact frequency and its rounding -/

/-- The exact emitted value of R116 in mHz, entry `33 + n`. -/
noncomputable def exactFrequency (df n : Nat) : ℝ := 35 * df * 2 ^ ((n : ℝ) / 24)

theorem exactFrequency_nonneg (df n : Nat) : 0 ≤ exactFrequency df n := by
  unfold exactFrequency
  positivity

theorem two_mul_exactFrequency_nonneg (df n : Nat) : 0 ≤ 2 * exactFrequency df n :=
  mul_nonneg two_pos.le (exactFrequency_nonneg df n)

theorem two_mul_exactFrequency_pow (df n : Nat) : (2 * exactFrequency df n) ^ 24 = hybRadicand df n := by
  have octave : ((2 : ℝ) ^ ((n : ℝ) / 24)) ^ 24 = 2 ^ n := by
    rw [← Real.rpow_mul_natCast two_pos.le, Nat.cast_ofNat, div_mul_cancel₀ _ (by norm_num), Real.rpow_natCast]
  rw [exactFrequency, ← mul_assoc, mul_pow, octave]
  simp [hybRadicand]

section
variable {df : Nat} (hdf : df < 2 ^ 24) (n : Nat)
include hdf

theorem hybRoot_eq_floor : hybRoot df n = ⌊2 * exactFrequency df n⌋₊ := by
  have twice_nonneg := two_mul_exactFrequency_nonneg df n
  refine eq_of_forall_le_iff fun m => ?_
  rw [le_hybRoot_iff hdf, Nat.le_floor_iff twice_nonneg, ← pow_le_pow_iff_left₀ m.cast_nonneg twice_nonneg (n := 24)
    (by decide), two_mul_exactFrequency_pow]
  norm_cast

theorem hyb_log_eq_floor : hyb df (33 + n) = ⌊exactFrequency df n + 1 / 2⌋₊ := by
  have halved : exactFrequency df n + 1 / 2 = (2 * exactFrequency df n + 1) / 2 := by ring
  rw [halved, Nat.floor_div_ofNat, Nat.floor_add_one (two_mul_exactFrequency_nonneg df n), ← hybRoot_eq_floor hdf,
    hyb_log_eq_hybRoot]

/-- The last characterisation of R118, by 24th powers of the doubled half steps. -/
theorem half_steps_iff_eq_hyb {x : Nat} (hx : 1 ≤ x) :
    (2 * x - 1) ^ 24 ≤ hybRadicand df n ∧ hybRadicand df n < (2 * x + 1) ^ 24 ↔ x = hyb df (33 + n) := by
  rw [← le_hybRoot_iff hdf, ← hybRoot_lt_iff hdf, hyb_log_eq_hybRoot]
  omega

end

/-- Settles O51: the linear region is the model's formula, the logarithmic one the three readings of `hybRoot`. -/
theorem hybIsRoundedExactFrequency : Obligations.HybIsRoundedExactFrequency := by
  intro df k hdf
  refine ⟨hyb_linear df k, fun hk => ?_⟩
  obtain ⟨n, rfl⟩ := Nat.exists_eq_add_of_le hk
  rw [Nat.add_sub_cancel_left]
  refine ⟨?rounded, ⟨hybRoot df n, ?root, ?below_next, hyb_log_eq_hybRoot df n⟩, fun _ x => half_steps_iff_eq_hyb hdf n⟩
  case rounded =>
    have exact_eq : 35 * (df : ℝ) * 2 ^ ((((33 + n : Nat) : ℝ) - 33) / 24) = exactFrequency df n := by
      rw [exactFrequency, Nat.cast_add, Nat.cast_ofNat, add_sub_cancel_left]
    rw [exact_eq, hyb_log_eq_floor hdf n]
    exact Int.natCast_floor_eq_floor (add_nonneg (exactFrequency_nonneg df n) (by norm_num))
  case root => exact (le_hybRoot_iff hdf n _).1 le_rfl
  case below_next => exact (hybRoot_lt_iff hdf n _).1 (Nat.lt_succ_self _)

/-! ## Where the sequence passes 64 bits -/

section
variable {df k k' : Nat} (hdf : df < 2 ^ 24)
include hdf

theorem hyb_linear_lt (hk : k ≤ 32) : hyb df k < 2 ^ 30 :=
  calc hyb df k = (k + 2) * df := hyb_linear df k hk
    _ ≤ 34 * df := by gcongr; omega
    _ < 2 ^ 30 := by omega

theorem le_hyb_log_iff {x : Nat} (hx : 1 ≤ x) (n : Nat) :
    x ≤ hyb df (33 + n) ↔ (2 * x - 1) ^ 24 ≤ hybRadicand df n := by
  rw [← le_hybRoot_iff hdf, hyb_log_eq_hybRoot]
  omega

/-- An index whose entry passes 64 bits is in the logarithmic region. -/
theorem le_of_hyb_overflow (h : 2 ^ 64 ≤ hyb df k) : 33 ≤ k := by
  by_contra linear
  have := hyb_linear_lt hdf (Nat.le_of_lt_succ (Nat.lt_of_not_le linear))
  omega

theorem hyb_overflow_mono (h : 2 ^ 64 ≤ hyb df k) (hkk' : k ≤ k') : 2 ^ 64 ≤ hyb df k' := by
  obtain ⟨n, rfl⟩ := Nat.exists_eq_add_of_le (le_of_hyb_overflow hdf h)
  obtain ⟨n', rfl⟩ := Nat.exists_eq_add_of_le ((Nat.le_add_right 33 n).trans hkk')
  rw [le_hyb_log_iff hdf (by decide)] at h ⊢
  exact h.trans (hybRadicand_monotone df (Nat.le_of_add_le_add_left hkk'))

/-- Sixty-four octaves above the first logarithmic entry. -/
theorem hyb_overflow_of_pos (hpos : 1 ≤ df) : 2 ^ 64 ≤ hyb df (33 + 64 * 24) := by
  rw [le_hyb_log_iff hdf (by decide), hybRadicand, pow_mul, ← mul_pow]
  gcongr
  omega

theorem first_hyb_log_lt : hyb df (33 + 0) < 2 ^ 64 := by
  rw [← Nat.not_le, le_hyb_log_iff hdf (by decide), Nat.not_le]
  exact (hybRadicand_lt hdf 0).trans (by decide)

/-- The last index that fits; the logarithmic region starts below `2 ^ 64` and passes it. -/
theorem exists_last_hyb_lt (hpos : 1 ≤ df) : ∃ k, 33 ≤ k ∧ hyb df k < 2 ^ 64 ∧ 2 ^ 64 ≤ hyb df (k + 1) := by
  obtain ⟨n, fits, passes⟩ := Nat.exists_not_and_succ_of_not_zero_of_exists
    (p := fun n => 2 ^ 64 ≤ hyb df (33 + n)) (first_hyb_log_lt hdf).not_ge ⟨_, hyb_overflow_of_pos hdf hpos⟩
  exact ⟨33 + n, Nat.le_add_right 33 n, Nat.lt_of_not_le fits, passes⟩

end

/-- Settles O53: the general clauses by the lemmas above, the indices R122 names by running the model. -/
theorem hybOverflowIndices : Obligations.HybOverflowIndices := by
  refine ⟨fun _ _ => hyb_linear_lt, fun _ hpos hdf => exists_last_hyb_lt hdf hpos, ?_, ?_, ?_, ?_, ?_, ?_, ?_, ?_, ?_,
    fun _ _ _ => hyb_overflow_mono, ?_⟩
  -- What is left are single entries, each an evaluation of `hyb`.
  all_goals decide +kernel

end Sys2Proof.Machine
end

section
/-! # `NOP` (45_system.md, R156)

That a word with `op` 0 and another bit set is no `NOP` is R65's case for format Z: such a word has a bit of `imm24` set,
since a header word is its two fields `op` and `imm24`. -/

namespace Sys2Proof

/-- A format W header word with both fields zero is the zero word (R61). -/
theorem eq_zero_of_headerOp_headerImm24 {w : Word} (hop : headerOp w = 0#8) (himm24 : headerImm24 w = 0#24) :
    w = 0#32 := by
  obtain ⟨ha, himm⟩ := (headerImm24_eq_zero_iff w).1 (congrArg BitVec.toNat himm24)
  exact word_eq_iff_fields.2 ⟨hop, BitVec.eq_of_toNat_eq ha, BitVec.eq_of_toNat_eq himm⟩

end Sys2Proof

namespace Sys2Proof.Machine

theorem exec_nop (s : State) : exec .nop s = .next (s.respond 0#64) := rfl

/-- Settles O10: the effect is that of a bare response, and the words with `op` 0 are those of format Z. -/
theorem nopOnlyResponds : Obligations.NopOnlyResponds := by
  refine ⟨exec_nop, ?word, ?decoded, ?reserved⟩
  case word => decide
  case decoded => decide
  case reserved =>
    intro w hop hw
    have himm24 : headerImm24 w ≠ 0#24 := fun h => hw (eq_zero_of_headerOp_headerImm24 hop h)
    exact decodeHeader_reserved_of_formatZ (by simp [hop]) himm24

end Sys2Proof.Machine
end

section
/-! # The faults (60_exceptions.md, R171 to R178)

`Raises` lists the causes of every fault, command by command. A command has at most the two endings of `Completes`: `OK`,
or the fault of one of its causes (`exec_completes`), and every cause does lead to its fault (`exec_of_raises`). So a
command ends with a code exactly when it has a cause of that code (`endsWith_iff_raises`), and each rule of R171 to R178
is the list of the causes of one code. -/

namespace Sys2Proof.Machine

/-! ## The pad bytes of `LOAD` (R67) -/

theorem wordBytes_getElem_toNat (w : Word) : ∀ {j : Nat} (hj : j < (wordBytes w).length),
    (wordBytes w)[j].toNat = w.toNat / 2 ^ (24 - 8 * j) % 256
  | 0, _ | 1, _ | 2, _ | 3, _ => by simp [wordBytes, Nat.shiftRight_eq_div_pow]

/-- Byte `k` of the lanes is lane `k mod 4` of word `k div 4`, most significant first. -/
theorem laneBytes_getElem_toNat (ws : List Word) {k : Nat} (hk : k < (laneBytes ws).length) :
    (laneBytes ws)[k].toNat = (ws.getD (k / 4) 0#32).toNat / 2 ^ (24 - 8 * (k % 4)) % 256 := by
  induction ws generalizing k with
  | nil => cases hk
  | cons w ws ih =>
    have hlen : (wordBytes w).length = 4 := rfl
    simp only [laneBytes, List.getElem_append, hlen]
    split
    case isTrue h => rw [wordBytes_getElem_toNat, Nat.div_eq_of_lt h, Nat.mod_eq_of_lt h, List.getD_cons_zero]
    case isFalse h =>
      obtain ⟨k, rfl⟩ := Nat.exists_eq_add_of_le' (Nat.le_of_not_lt h)
      simp only [Nat.add_sub_cancel, ih, Nat.add_mod_right, Nat.add_div_right k (show 0 < 4 by decide),
        List.getD_cons_succ]

theorem padIsZero_iff (len : BitVec 16) (ws : List Word) :
    padIsZero len ws = true ↔ ∀ k, len.toNat ≤ k → k < 4 * ws.length →
      (ws.getD (k / 4) 0#32).toNat / 2 ^ (24 - 8 * (k % 4)) % 256 = 0 := by
  simp only [padIsZero, padBytes, List.all_eq_true, List.forall_mem_iff_getElem, List.getElem_drop, List.length_drop,
    beq_iff_eq, ← BitVec.toNat_inj, laneBytes_getElem_toNat, laneBytes_length, BitVec.toNat_ofNat, Nat.zero_mod]
  constructor
  · intro h k hlen hk
    obtain ⟨j, rfl⟩ := Nat.exists_eq_add_of_le hlen
    exact h j (by omega)
  · intro h j hj
    exact h _ (by omega) (by omega)

theorem padIsZero_eq_false_iff (len : BitVec 16) (ws : List Word) :
    padIsZero len ws = false ↔ ∃ k, len.toNat ≤ k ∧ k < 4 * ws.length ∧
      (ws.getD (k / 4) 0#32).toNat / 2 ^ (24 - 8 * (k % 4)) % 256 ≠ 0 := by
  rw [← Bool.not_eq_true, padIsZero_iff]
  push Not
  rfl

/-! ## Registers that `GET` does not find (R24, R158) -/

section
variable {w : Nat} {extend : BitVec w → BitVec 64} {register : Option (BitVec w)}

theorem optionalRead_eq_holdsNothing_iff : optionalRead extend register = .holdsNothing ↔ register = none := by
  cases register <;> simp [optionalRead]

theorem optionalRead_ne_noRegister : optionalRead extend register ≠ .noRegister := by
  cases register <;> simp [optionalRead]

end

theorem readRegister_eq_noRegister_iff (s : State) (r : BitVec 8) : readRegister s r = .noRegister ↔ 9 < r.toNat := by
  unfold readRegister
  split
  case h_11 =>
    simp only [imp_false] at *
    exact iff_of_true trivial (by omega)
  all_goals simp [optionalRead_ne_noRegister, *]

theorem readRegister_eq_holdsNothing_iff (s : State) (r : BitVec 8) :
    readRegister s r = .holdsNothing ↔
      (r = 4#8 ∧ s.raw = none) ∨ (r = 5#8 ∧ s.spl = none) ∨ (r = 6#8 ∧ s.frq = none) := by
  simp only [← BitVec.toNat_inj]
  unfold readRegister
  split
  case h_11 =>
    simp only [imp_false] at *
    simp [*]
  all_goals simp [optionalRead_eq_holdsNothing_iff, *]

/-! ## The record decoders as one command with a variant -/

/-- The command that decodes the payload as a given variant (R132 to R134). -/
def decoderCommand : VariantKind → Instr
  | .spectrum => .dspec
  | .statistics => .dstat
  | .pgram => .dpgram

/-- The command decodes the payload as variant `v`: by its own name, or as `DVAR` with `v` selected (R137). -/
def DecodesAs (i : Instr) (s : State) (v : VariantKind) : Prop := i = decoderCommand v ∨ i = .dvar ∧ s.var = some v

/-- The bits a payload must have for its layout (R132, R133); a Pgram payload may be empty (R134). -/
def layoutBits : VariantKind → Nat
  | .spectrum => 336
  | .statistics => 896
  | .pgram => 0

/-- What each decoder does with the payload once its checks have passed. -/
def decodeBody : VariantKind → List Byte → State → State
  | .spectrum => spectrumBody
  | .statistics => statisticsBody
  | .pgram => pgramBody

/-- The last frequency does not fit, which only a Pgram decode tests (R131, R178). -/
def decodeOverflows (v : VariantKind) (s : State) : Bool := decide (v = .pgram) && pgramOverflows s

/-- Decoding the payload as variant `v`. -/
def decodePayload (v : VariantKind) (s : State) : Result :=
  macroDecode (layoutBits v) (decodeOverflows v s) (decodeBody v) s

section
variable {s t : State} {i : Instr} {v : VariantKind}

theorem exec_of_decodesAs (h : DecodesAs i s v) : exec i s = decodePayload v s := by
  obtain rfl | ⟨rfl, hv⟩ := h
  · cases v <;> rfl
  · simp only [exec, execDvar, hv]
    cases v <;> rfl

theorem runsPrologue_of_decodesAs (h : DecodesAs i s v) : runsPrologue i s = true := by
  obtain rfl | ⟨rfl, hv⟩ := h
  · cases v <;> rfl
  · simp [runsPrologue, hv]

theorem exists_decodesAs_iff : (∃ v, DecodesAs i s v) ↔
    i = .dspec ∨ i = .dstat ∨ i = .dpgram ∨ (i = .dvar ∧ s.var ≠ none) := by
  constructor
  · rintro ⟨v, rfl | ⟨rfl, hv⟩⟩
    · cases v <;> simp [decoderCommand]
    · simp [hv]
  · rintro (rfl | rfl | rfl | ⟨rfl, hv⟩)
    · exact ⟨.spectrum, .inl rfl⟩
    · exact ⟨.statistics, .inl rfl⟩
    · exact ⟨.pgram, .inl rfl⟩
    · obtain ⟨v, hv⟩ := Option.ne_none_iff_exists'.1 hv
      exact ⟨v, .inr ⟨rfl, hv⟩⟩

theorem decodeOverflows_iff : decodeOverflows v s = true ↔
    v = .pgram ∧ 1 ≤ s.len.toNat ∧ 2 ^ 64 ≤ hyb s.df.toNat (s.len.toNat - 1) := by
  simp [decodeOverflows, pgramOverflows]

theorem decodeBody_out (v : VariantKind) (bytes : List Byte) (s : State) : (decodeBody v bytes s).out = s.out := by
  cases v with
  | spectrum | statistics => rfl
  | pgram =>
    simp only [decodeBody, pgramBody]
    split <;> rfl

end

/-! ## The skeleton of a record decode, check by check (R131) -/

section
variable {need : Nat} {ov : Bool} {body : List Byte → State → State} {s : State}

theorem macroDecode_of_noPayload (h : s.bst = .noPayload) : macroDecode need ov body s = fail s.prologue .empty := by
  simp only [macroDecode, h]

theorem macroDecode_of_bad (h : s.bst = .bad) : macroDecode need ov body s = fail s.prologue .malformed := by
  simp only [macroDecode, h]

theorem macroDecode_of_short (h : s.bst = .valid) (hlen : 8 * s.len.toNat < need) :
    macroDecode need ov body s = fail s.prologue .truncated := by
  simp only [macroDecode, h, hlen, if_true]

theorem macroDecode_of_overflow (h : s.bst = .valid) (hlen : need ≤ 8 * s.len.toNat) :
    macroDecode need true body s = fail s.prologue .overflow := by
  simp only [macroDecode, h, Nat.not_lt.2 hlen, if_false, if_true]

end

/-! ## The causes of a fault -/

/-- The causes of each fault, the earlier ones of R179 excluded (R171 to R175, R177, R178). -/
inductive Raises (s : State) : Instr → FaultCode → Prop where
  | loadPad {len : BitVec 16} {ws : List Word} (hwf : (Instr.load len ws).wellFormed = true)
      (hpad : padIsZero len ws = false) : Raises s (.load len ws) .illegalCommand
  | loadCapacity {len : BitVec 16} {ws : List Word} (hwf : (Instr.load len ws).wellFormed = true)
      (hpad : padIsZero len ws = true) (hlen : s.cfg.bufcap < len.toNat) : Raises s (.load len ws) .illegalOperand
  | rdbWidth {n : BitVec 8} (hn : 32 < n.toNat) : Raises s (.rdb n) .illegalOperand
  | rdbNoPayload {n : BitVec 8} (hn : n.toNat ≤ 32) (hbst : s.bst = .noPayload) : Raises s (.rdb n) .empty
  | rdbBad {n : BitVec 8} (hn : n.toNat ≤ 32) (hbst : s.bst = .bad) : Raises s (.rdb n) .malformed
  | rdbPastEnd {n : BitVec 8} (hn : n.toNat ≤ 32) (hbst : s.bst = .valid)
      (hend : 8 * s.len.toNat < s.cur.toNat + n.toNat) : Raises s (.rdb n) .outOfRange
  | deqWidth {b : BitVec 8} (hb : b.toNat = 0 ∨ 32 < b.toNat) : Raises s (.deq b) .illegalOperand
  | deqNoRaw {b : BitVec 8} (hb : 1 ≤ b.toNat) (hb' : b.toNat ≤ 32) (hraw : s.raw = none) : Raises s (.deq b) .empty
  | deqRawTooWide {b : BitVec 8} {raw : BitVec 32} (hb : 1 ≤ b.toNat) (hb' : b.toNat ≤ 32) (hraw : s.raw = some raw)
      (hwide : 2 ^ b.toNat ≤ raw.toNat) : Raises s (.deq b) .illegalOperand
  | ansiIndex {k : BitVec 8} (hk : 27 < k.toNat) : Raises s (.ansi k) .illegalOperand
  | setdfZero : Raises s (.setdf 0#24) .illegalOperand
  | hybOverflow {k : BitVec 16} (hk : 2 ^ 64 ≤ hyb s.df.toNat k.toNat) : Raises s (.hyb k) .overflow
  | decodeNoPayload {i : Instr} {v : VariantKind} (hi : DecodesAs i s v) (hbst : s.bst = .noPayload) : Raises s i .empty
  | decodeBad {i : Instr} {v : VariantKind} (hi : DecodesAs i s v) (hbst : s.bst = .bad) : Raises s i .malformed
  | decodeShort {i : Instr} {v : VariantKind} (hi : DecodesAs i s v) (hbst : s.bst = .valid)
      (hlen : 8 * s.len.toNat < layoutBits v) : Raises s i .truncated
  | decodeOverflow {i : Instr} (hi : DecodesAs i s .pgram) (hbst : s.bst = .valid) (hlen : 1 ≤ s.len.toNat)
      (hhyb : 2 ^ 64 ≤ hyb s.df.toNat (s.len.toNat - 1)) : Raises s i .overflow
  | dvarNone (hvar : s.var = none) : Raises s .dvar .empty
  | getNoRegister {r : BitVec 8} (hr : readRegister s r = .noRegister) : Raises s (.get r) .illegalOperand
  | getHoldsNothing {r : BitVec 8} (hr : readRegister s r = .holdsNothing) : Raises s (.get r) .empty
  | getrecOutside {j : BitVec 8} {k : BitVec 16}
      (hjk : s.record.recn.toNat ≤ k.toNat ∨ s.record.recw.toNat < j.toNat) : Raises s (.getrec j k) .illegalOperand

/-- The state a fault of the command is taken in: the prologue of a record decode has been performed (R176). -/
def State.beforeFault (s : State) (i : Instr) : State := if runsPrologue i s then s.prologue else s

/-- The two ways a command completes: with `OK`, whatever it wrote, or with a fault for one of its causes. -/
inductive Completes (i : Instr) (s : State) : State → Prop where
  | ok {u : State} {v : BitVec 64} (hout : u.out = s.out) : Completes i s (u.respond v)
  | fault {c : FaultCode} (h : Raises s i c) : Completes i s ((s.beforeFault i).raise c)

section
variable {s t : State} {i : Instr} {c : FaultCode} {v : VariantKind}

@[simp] theorem State.beforeFault_out : (s.beforeFault i).out = s.out := by
  unfold State.beforeFault
  split <;> rfl

@[simp] theorem State.beforeFault_flt : (s.beforeFault i).flt = s.flt := by
  unfold State.beforeFault
  split <;> rfl

theorem State.beforeFault_of_decodesAs (h : DecodesAs i s v) : s.beforeFault i = s.prologue :=
  if_pos (runsPrologue_of_decodesAs h)

theorem State.beforeFault_dvar_of_none (h : s.var = none) : s.beforeFault .dvar = s := by
  simp [State.beforeFault, runsPrologue, h]

/-! ## A cause leads to its fault -/

/-- The converse of `exec_completes`: each cause is met in a test of its command, the tests before it having passed. -/
theorem exec_of_raises (h : Raises s i c) : exec i s = fail (s.beforeFault i) c := by
  cases h with
  | loadPad hwf hpad =>
    show execLoad _ _ s = fail s _
    simp [execLoad, hwf, hpad]
  | loadCapacity hwf hpad hlen =>
    show execLoad _ _ s = fail s _
    simp [execLoad, hwf, hpad, hlen]
  | rdbWidth hn => exact if_pos hn
  | rdbNoPayload hn hbst =>
    show execRdb _ s = fail s _
    simp only [execRdb, Nat.not_lt.2 hn, hbst, if_false]
  | rdbBad hn hbst =>
    show execRdb _ s = fail s _
    simp only [execRdb, Nat.not_lt.2 hn, hbst, if_false]
  | rdbPastEnd hn hbst hend =>
    show execRdb _ s = fail s _
    simp only [execRdb, Nat.not_lt.2 hn, hbst, State.readBits_eq_outOfRange.2 hend, if_false]
  | deqWidth hb => exact if_pos hb
  | deqNoRaw hb hb' hraw =>
    show execDeq _ s = fail s _
    simp only [execDeq, hraw, ite_eq_right_iff]
    omega
  | deqRawTooWide _ _ hraw hwide =>
    show execDeq _ s = fail s _
    simp only [execDeq, hraw, ge_iff_le, hwide, if_true, ite_self]
  | ansiIndex hk => exact if_pos hk
  | setdfZero => rfl
  | hybOverflow hk => exact if_pos hk
  | decodeNoPayload hi hbst =>
    rw [exec_of_decodesAs hi, State.beforeFault_of_decodesAs hi, decodePayload, macroDecode_of_noPayload hbst]
  | decodeBad hi hbst =>
    rw [exec_of_decodesAs hi, State.beforeFault_of_decodesAs hi, decodePayload, macroDecode_of_bad hbst]
  | decodeShort hi hbst hlen =>
    rw [exec_of_decodesAs hi, State.beforeFault_of_decodesAs hi, decodePayload, macroDecode_of_short hbst hlen]
  | decodeOverflow hi hbst hlen hhyb =>
    have hov : decodeOverflows .pgram s = true := decodeOverflows_iff.2 ⟨rfl, hlen, hhyb⟩
    rw [exec_of_decodesAs hi, State.beforeFault_of_decodesAs hi, decodePayload, hov]
    exact macroDecode_of_overflow hbst (Nat.zero_le _)
  | dvarNone hvar =>
    rw [State.beforeFault_dvar_of_none hvar]
    simp only [exec, execDvar, hvar]
  | getNoRegister hr =>
    show execGet _ s = fail s _
    simp only [execGet, hr]
  | getHoldsNothing hr =>
    show execGet _ s = fail s _
    simp only [execGet, hr]
  | getrecOutside hjk => exact if_pos hjk

/-! ## A command completes with `OK` or for a cause -/

theorem decode_completes (hi : DecodesAs i s v) (h : decodePayload v s = .next t) : Completes i s t := by
  have faulted {c : FaultCode} (hc : Raises s i c) : Completes i s (s.prologue.raise c) :=
    State.beforeFault_of_decodesAs hi ▸ .fault hc
  obtain ⟨hb, rfl⟩ | ⟨hb, rfl⟩ | ⟨hb, hlen, rfl⟩ | ⟨hb, -, hov, rfl⟩ | ⟨-, -, -, bytes, -, rfl⟩ := macroDecode_next h
  · exact faulted (.decodeNoPayload hi hb)
  · exact faulted (.decodeBad hi hb)
  · exact faulted (.decodeShort hi hb hlen)
  · obtain ⟨rfl, hlen, hhyb⟩ := decodeOverflows_iff.1 hov
    exact faulted (.decodeOverflow hi hb hlen hhyb)
  · exact .ok (decodeBody_out v bytes s.prologue)

theorem execLoad_completes {len : BitVec 16} {ws : List Word} (h : execLoad len ws s = .next t) :
    Completes (.load len ws) s t := by
  obtain ⟨hwf, ⟨hpad, rfl⟩ | ⟨hpad, hlen, rfl⟩ | ⟨-, -, rfl⟩⟩ := execLoad_next h
  · exact .fault (.loadPad hwf hpad)
  · exact .fault (.loadCapacity hwf hpad hlen)
  · exact .ok rfl

theorem execRdb_completes {n : BitVec 8} (h : execRdb n s = .next t) : Completes (.rdb n) s t := by
  obtain ⟨hn, rfl⟩ | ⟨hn, hb, rfl⟩ | ⟨hn, hb, rfl⟩ | ⟨hn, hb, hend, rfl⟩ | ⟨-, -, -, bytes, -, rfl⟩ := execRdb_next h
  · exact .fault (.rdbWidth hn)
  · exact .fault (.rdbNoPayload hn hb)
  · exact .fault (.rdbBad hn hb)
  · exact .fault (.rdbPastEnd hn hb hend)
  · exact .ok rfl

theorem execDeq_completes {b : BitVec 8} (h : execDeq b s = .next t) : Completes (.deq b) s t := by
  obtain ⟨hb, rfl⟩ | ⟨hb, hb', hraw, rfl⟩ | ⟨hb, hb', raw, hraw, hwide, rfl⟩ | ⟨-, -, raw, -, -, rfl⟩ := execDeq_next h
  · exact .fault (.deqWidth hb)
  · exact .fault (.deqNoRaw hb hb' hraw)
  · exact .fault (.deqRawTooWide hb hb' hraw hwide)
  · exact .ok rfl

theorem execAnsi_completes {k : BitVec 8} (h : execAnsi k s = .next t) : Completes (.ansi k) s t := by
  obtain ⟨hk, rfl⟩ | ⟨-, rfl⟩ := execAnsi_next h
  · exact .fault (.ansiIndex hk)
  · exact .ok rfl

theorem execSetdf_completes {df : BitVec 24} (h : execSetdf df s = .next t) : Completes (.setdf df) s t := by
  obtain ⟨rfl, rfl⟩ | ⟨-, rfl⟩ := execSetdf_next h
  · exact .fault .setdfZero
  · exact .ok rfl

theorem execHyb_completes {k : BitVec 16} (h : execHyb k s = .next t) : Completes (.hyb k) s t := by
  obtain ⟨hk, rfl⟩ | ⟨-, rfl⟩ := execHyb_next h
  · exact .fault (.hybOverflow hk)
  · exact .ok rfl

theorem execDvar_completes (h : exec .dvar s = .next t) : Completes .dvar s t := by
  cases hvar : s.var with
  | none =>
    rw [exec_of_raises (.dvarNone hvar), fail_eq_next] at h
    exact h ▸ .fault (.dvarNone hvar)
  | some v =>
    have hi : DecodesAs .dvar s v := .inr ⟨rfl, hvar⟩
    exact decode_completes hi (exec_of_decodesAs hi ▸ h)

theorem execGet_completes {r : BitVec 8} (h : execGet r s = .next t) : Completes (.get r) s t := by
  obtain ⟨hr, rfl⟩ | ⟨hr, rfl⟩ | ⟨v, -, rfl⟩ := execGet_next h
  · exact .fault (.getNoRegister hr)
  · exact .fault (.getHoldsNothing hr)
  · exact .ok rfl

theorem execGetrec_completes {j : BitVec 8} {k : BitVec 16} (h : execGetrec j k s = .next t) :
    Completes (.getrec j k) s t := by
  obtain ⟨hjk, rfl⟩ | ⟨-, -, v, -, rfl⟩ := execGetrec_next h
  · exact .fault (.getrecOutside hjk)
  · exact .ok rfl

/-- Everything a command can do when it completes (R170). -/
theorem exec_completes (h : exec i s = .next t) : Completes i s t := by
  cases i with
  | nop => exact execNop_next h ▸ .ok rfl
  | load len ws => exact execLoad_completes h
  | markbad => exact execMarkbad_next h ▸ .ok rfl
  | rdb n => exact execRdb_completes h
  | deq b => exact execDeq_completes h
  | ansi k => exact execAnsi_completes h
  | setdf df => exact execSetdf_completes h
  | hyb k => exact execHyb_completes h
  | dspec => exact decode_completes (v := .spectrum) (.inl rfl) h
  | dstat => exact decode_completes (v := .statistics) (.inl rfl) h
  | dpgram => exact decode_completes (v := .pgram) (.inl rfl) h
  | vsel ev tlen => exact execVsel_next h ▸ .ok rfl
  | dvar => exact execDvar_completes h
  | get r => exact execGet_completes h
  | getrec j k => exact execGetrec_completes h
  | srst => exact execSrst_next h ▸ .ok rfl

/-- The response tells the cause: a command that answers (c, 0) had one of the causes of `c`. -/
theorem raises_of_response (h : exec i s = .next t) (hout : t.out = s.out ++ [⟨.fault c, 0#64⟩]) : Raises s i c := by
  cases exec_completes h with
  | ok hu => simp [hu] at hout
  | @fault d hd =>
    have hcode : d = c := by simpa using hout
    exact hcode ▸ hd

theorem endsWith_iff_raises : EndsWith i s c ↔ Raises s i c := by
  constructor
  · rintro ⟨t, h, hout⟩
    exact raises_of_response h hout
  · intro h
    exact ⟨_, exec_of_raises h, by simp⟩

end

/-! ## The causes of one code -/

/-- The operands of `DEQ` that are out of range, by themselves or with `RAW` (R102, R175). -/
theorem raises_deq_illegalOperand_iff (s : State) (b : BitVec 8) : Raises s (.deq b) .illegalOperand ↔
    b.toNat = 0 ∨ 32 < b.toNat ∨ ∃ raw, s.raw = some raw ∧ 2 ^ b.toNat ≤ raw.toNat := by
  constructor
  · intro h
    cases h with
    | deqWidth hb => exact hb.imp_right .inl
    | deqRawTooWide _ _ hraw hwide => exact .inr (.inr ⟨_, hraw, hwide⟩)
  · intro h
    by_cases hb : b.toNat = 0 ∨ 32 < b.toNat
    · exact .deqWidth hb
    · obtain ⟨raw, hraw, hwide⟩ := (h.resolve_left (hb ∘ .inl)).resolve_left (hb ∘ .inr)
      exact .deqRawTooWide (by omega) (by omega) hraw hwide

theorem raises_illegalCommand_iff (i : Instr) (s : State) : Raises s i .illegalCommand ↔
    ∃ len ws, i = .load len ws ∧ (Instr.load len ws).wellFormed = true ∧ padIsZero len ws = false := by
  constructor
  · intro h
    cases h with
    | loadPad hwf hpad => exact ⟨_, _, rfl, hwf, hpad⟩
  · rintro ⟨len, ws, rfl, hwf, hpad⟩
    exact .loadPad hwf hpad

/-! ## When each fault is raised, and what it does -/

/-- Settles O27: the payload that is missing for a read or a decode, and the registers that are empty. -/
theorem emptyRaisedExactlyWhen : Obligations.EmptyRaisedExactlyWhen := by
  intro i s
  rw [endsWith_iff_raises, ← exists_decodesAs_iff]
  constructor
  · intro h
    cases h with
    | rdbNoPayload hn hbst => exact .inl ⟨hbst, .inl ⟨_, rfl, hn⟩⟩
    | decodeNoPayload hi hbst => exact .inl ⟨hbst, .inr ⟨_, hi⟩⟩
    | deqNoRaw hb hb' hraw => exact .inr (.inl ⟨_, rfl, hb, hb', hraw⟩)
    | getHoldsNothing hr =>
      obtain ⟨rfl, hreg⟩ | ⟨rfl, hreg⟩ | ⟨rfl, hreg⟩ := (readRegister_eq_holdsNothing_iff s _).1 hr <;> simp [hreg]
    | dvarNone hvar => simp [hvar]
  · rintro (⟨hbst, ⟨n, rfl, hn⟩ | ⟨v, hi⟩⟩ | ⟨b, rfl, hb, hb', hraw⟩ | ⟨rfl, hraw⟩ | ⟨rfl, hspl⟩ | ⟨rfl, hfrq⟩ |
      ⟨rfl, hvar⟩)
    · exact .rdbNoPayload hn hbst
    · exact .decodeNoPayload hi hbst
    · exact .deqNoRaw hb hb' hraw
    · exact .getHoldsNothing (optionalRead_eq_holdsNothing_iff.2 hraw)
    · exact .getHoldsNothing (optionalRead_eq_holdsNothing_iff.2 hspl)
    · exact .getHoldsNothing (optionalRead_eq_holdsNothing_iff.2 hfrq)
    · exact .dvarNone hvar

/-- Settles O28: of the causes, one is a cause of `OutOfRange`. -/
theorem outOfRangeRaisedExactlyWhen : Obligations.OutOfRangeRaisedExactlyWhen := by
  intro i s
  rw [endsWith_iff_raises]
  constructor
  · intro h
    cases h with
    | rdbPastEnd hn hbst hend => exact ⟨_, rfl, hn, hbst, hend⟩
  · rintro ⟨n, rfl, hn, hbst, hend⟩
    exact .rdbPastEnd hn hbst hend

/-- Settles O29: a payload shorter than its layout, for the two variants that have a least length. -/
theorem truncatedRaisedExactlyWhen : Obligations.TruncatedRaisedExactlyWhen := by
  intro i s
  rw [endsWith_iff_raises]
  constructor
  · intro h
    cases h with
    | @decodeShort _ v hi hbst hlen =>
      cases v with
      | spectrum => exact ⟨hbst, .inl ⟨hi, hlen⟩⟩
      | statistics => exact ⟨hbst, .inr ⟨hi, hlen⟩⟩
      | pgram => exact absurd hlen (Nat.not_lt_zero _)
  · rintro ⟨hbst, ⟨hi, hlen⟩ | ⟨hi, hlen⟩⟩
    · exact .decodeShort (v := .spectrum) hi hbst hlen
    · exact .decodeShort (v := .statistics) hi hbst hlen

/-- Settles O33: the entry of `HYB`, or the last entry of a Pgram decode. -/
theorem overflowRaisedExactlyWhen : Obligations.OverflowRaisedExactlyWhen := by
  intro i s
  rw [endsWith_iff_raises]
  constructor
  · intro h
    cases h with
    | hybOverflow hk => exact .inl ⟨_, rfl, hk⟩
    | decodeOverflow hi hbst hlen hhyb => exact .inr ⟨hbst, hi, hlen, hhyb⟩
  · rintro (⟨k, rfl, hk⟩ | ⟨hbst, hi, hlen, hhyb⟩)
    · exact .hybOverflow hk
    · exact .decodeOverflow hi hbst hlen hhyb

/-- Settles O32: the operand ranges, the pad bytes of a `LOAD` being zero. -/
theorem illegalOperandRaisedExactlyWhen : Obligations.IllegalOperandRaisedExactlyWhen := by
  intro i s
  simp only [endsWith_iff_raises, ← padIsZero_iff, ← readRegister_eq_noRegister_iff s, ← raises_deq_illegalOperand_iff s]
  constructor
  · intro h
    cases h with
    | loadCapacity hwf hpad hlen => exact .inl ⟨_, _, rfl, hwf, hlen, hpad⟩
    | rdbWidth hn => exact .inr (.inl ⟨_, rfl, hn⟩)
    | deqWidth hb => exact .inr (.inr (.inl ⟨_, rfl, .deqWidth hb⟩))
    | deqRawTooWide hb hb' hraw hwide => exact .inr (.inr (.inl ⟨_, rfl, .deqRawTooWide hb hb' hraw hwide⟩))
    | ansiIndex hk => exact .inr (.inr (.inr (.inl ⟨_, rfl, hk⟩)))
    | setdfZero => simp
    | getNoRegister hr => simp [hr]
    | getrecOutside hjk => simp [hjk]
  · rintro (⟨len, ws, rfl, hwf, hlen, hpad⟩ | ⟨n, rfl, hn⟩ | ⟨b, rfl, hb⟩ | ⟨k, rfl, hk⟩ | rfl | ⟨r, rfl, hr⟩ |
      ⟨j, k, rfl, hjk⟩)
    · exact .loadCapacity hwf hpad hlen
    · exact .rdbWidth hn
    · exact hb
    · exact .ansiIndex hk
    · exact .setdfZero
    · exact .getNoRegister hr
    · exact .getrecOutside hjk

/-- Settles O34: a fault is taken in the state with the prologue performed, and `State.raise` writes `FLT` and the
response alone. -/
theorem faultChangesOnlyFltAndPrologue : Obligations.FaultChangesOnlyFltAndPrologue := by
  intro i s t c h hout
  have hraise : (s.beforeFault i).raise c = t := fail_eq_next.1 (exec_of_raises (raises_of_response h hout) ▸ h)
  subst hraise
  refine ⟨rfl, fun k hk => ?_⟩
  rw [State.raise_flt, State.beforeFault_flt, setFault_getLsbD _ _ _ hk]
  cases c <;> rfl

/-! ## Reachable states in which the same command ends differently (R174) -/

theorem reachable_reset : Reachable State.reset := .powerOn Config.suggested (by decide)

/-- What a reachable state does with the events that come next is reachable. -/
theorem reachable_of_step {s t : State} (events : List PortEvent) (h : Reachable s)
    (hs : step (s.deliver events) = .next t) : Reachable t :=
  .step _ _ (.deliver s events h) hs

theorem exists_reachable_bad : ∃ s, Reachable s ∧ s.bst = .bad := by
  refine ⟨_, reachable_of_step [.word 0x02000000#32] reachable_reset rfl, ?_⟩
  rfl

theorem exists_reachable_empty_payload : ∃ s, Reachable s ∧ s.bst = .valid ∧ s.len = 0#16 ∧ s.cur = 0#20 := by
  refine ⟨_, reachable_of_step [.word 0x01000000#32] reachable_reset rfl, ?_⟩
  exact ⟨rfl, rfl, rfl⟩

theorem exists_reachable_df_one : ∃ s, Reachable s ∧ s.df = 1#24 := by
  refine ⟨_, reachable_of_step [.word 0x21000001#32] reachable_reset rfl, ?_⟩
  rfl

theorem exists_reachable_record : ∃ s, Reachable s ∧ s.record.recn = 1#16 := by
  refine ⟨_, reachable_of_step [.word 0x32000000#32] (reachable_of_step [.word 0x01000001#32, .word 0x00000000#32]
    reachable_reset rfl) rfl, ?_⟩
  rfl

/-- For each other code a command and two reachable states, the fault taken in the first only. -/
theorem exists_reachable_states_that_differ : ∀ c : FaultCode, c ≠ .illegalCommand →
    ∃ (i : Instr) (s s' : State), Reachable s ∧ Reachable s' ∧ EndsWith i s c ∧ ¬ EndsWith i s' c := by
  obtain ⟨noText, hnoText, hbad⟩ := exists_reachable_bad
  obtain ⟨short, hshort, hvalid, hlen, hcur⟩ := exists_reachable_empty_payload
  obtain ⟨slow, hslow, hdf⟩ := exists_reachable_df_one
  obtain ⟨one, hone, hrecn⟩ := exists_reachable_record
  have noPayload : State.reset.bst = .noPayload := rfl
  rintro (_ | _ | _ | _ | _ | _ | _) hc
  case outOfRange =>
    refine ⟨.rdb 1#8, short, .reset, hshort, reachable_reset, ?_, ?_⟩ <;> rw [outOfRangeRaisedExactlyWhen]
    · exact ⟨1#8, rfl, by decide, hvalid, by simp [hcur, hlen]⟩
    · simp [noPayload]
  case truncated =>
    refine ⟨.dspec, short, .reset, hshort, reachable_reset, ?_, ?_⟩ <;> rw [truncatedRaisedExactlyWhen]
    · simp [hvalid, hlen]
    · simp [noPayload]
  case malformed =>
    refine ⟨.dspec, noText, .reset, hnoText, reachable_reset, ?_, ?_⟩ <;> rw [endsWith_iff_raises]
    · exact .decodeBad (v := .spectrum) (.inl rfl) hbad
    · intro h
      cases h with
      | decodeBad _ hbst => cases hbst
  case illegalCommand => exact absurd rfl hc
  case illegalOperand =>
    refine ⟨.getrec 0#8 0#16, .reset, one, reachable_reset, hone, ?_, ?_⟩ <;> rw [illegalOperandRaisedExactlyWhen]
    · simp [State.reset, Record.empty]
    · simp [hrecn]
  case empty =>
    refine ⟨.dspec, .reset, noText, reachable_reset, hnoText, ?_, ?_⟩ <;> rw [emptyRaisedExactlyWhen]
    · simp [noPayload]
    · simp [hbad]
  case overflow =>
    obtain ⟨-, -, -, -, overflows, -, -, -, -, fits, -⟩ := hybOverflowIndices
    refine ⟨.hyb 1137#16, .reset, slow, reachable_reset, hslow, ?_, ?_⟩ <;> rw [overflowRaisedExactlyWhen]
    · exact .inl ⟨1137#16, rfl, overflows⟩
    · rintro (⟨k, hk, hhyb⟩ | ⟨-, h | h, -⟩)
      · cases hk
        exact fits.not_ge (hyb_overflow_mono (by decide) (hdf ▸ hhyb) (by decide))
      · cases h
      · cases h.1

/-- Settles O31: the one cause of `IllegalCommand` in a command, the step on an illegal word, and, for the other codes,
reachable states that differ. -/
theorem illegalCommandRaisedExactlyWhen : Obligations.IllegalCommandRaisedExactlyWhen := by
  refine ⟨?commands, ?words, ?state, exists_reachable_states_that_differ⟩
  case commands =>
    intro i s
    simp only [endsWith_iff_raises, raises_illegalCommand_iff, padIsZero_eq_false_iff, exists_and_left]
  case words =>
    rintro s w p hport ⟨why, hw⟩
    exact step_of_illegal hport hw
  case state =>
    intro i s s' h
    rw [endsWith_iff_raises, raises_illegalCommand_iff] at h ⊢
    exact h

end Sys2Proof.Machine
end

section
/-! # The reset state (70_reset_and_hazards.md, R201)

The registers `LEN` to `REC` are fields of `State.reset`, each written there as R201 gives it (R12 to R22), so each clause
holds by the definition. `STATUS` is a view of them, and its value at reset is the reset column of R23
(`State.reset_statusWord`). -/

namespace Sys2Proof.Machine

/-- Settles O59: the registers from `LEN` to `RECW` by the definition of the reset state, and `STATUS` by its view. -/
theorem resetStateValues : Obligations.ResetStateValues := by
  unfold Obligations.ResetStateValues
  exact ⟨rfl, rfl, rfl, rfl, rfl, rfl, rfl, rfl, rfl, rfl, rfl, rfl, State.reset_statusWord⟩

end Sys2Proof.Machine
end

section
/-! # Encoding and decoding (30_encoding.md, R61 to R69)

A header word is a command of one word, a `LOAD` header, or illegal, and in the first two cases the command's encoding
gives the word back (`encode_of_decodeHeader_single`, `headerWord_of_decodeHeader_load`). The laws of `decode` are these
three cases of one header word. -/

namespace Sys2Proof

/-! ## A word from its fields -/

theorem headerWord_eq_of_fields {w : Word} {op a : BitVec 8} {imm : BitVec 16} (hop : (headerOp w).toNat = op.toNat)
    (ha : (headerA w).toNat = a.toNat) (himm : (headerImm w).toNat = imm.toNat) : headerWord op a imm = w := by
  rw [← headerWord_fields w, BitVec.eq_of_toNat_eq hop, BitVec.eq_of_toNat_eq ha, BitVec.eq_of_toNat_eq himm]

theorem headerWordW_eq_of_fields {w : Word} {op : BitVec 8} (hop : (headerOp w).toNat = op.toNat) :
    headerWordW op (headerImm24 w) = w := by
  apply BitVec.eq_of_toNat_eq
  have himm24 : (headerImm24 w).toNat = (headerA w).toNat * 2 ^ 16 + (headerImm w).toNat := by
    rw [← headerImm24_headerWord (headerOp w), headerWord_fields]
  rw [headerWordW_toNat, himm24, ← hop, ← Nat.add_assoc, ← headerWord_toNat, headerWord_fields]

/-- The field `a` of a `VSEL` whose upper six bits are zero is read and written as the explicit variant (R151). -/
theorem variantBits_of_upperSix_eq_zero : ∀ a : BitVec 8, (a.extractLsb' 2 6).toNat = 0 →
    (0#6 ++ encodeVariant (decodeVariant (a.extractLsb' 0 2)) : BitVec (6 + 2)) = a := by decide

theorem extractLsb'_variantBits (ev : Option VariantKind) :
    (0#6 ++ encodeVariant ev : BitVec (6 + 2)).extractLsb' 0 2 = encodeVariant ev ∧
      ((0#6 ++ encodeVariant ev : BitVec (6 + 2)).extractLsb' 2 6).toNat = 0 := by
  rcases ev with _ | _ | _ | _ <;> decide

/-! ## One header word -/

theorem whenZero_eq_single_iff {n : Nat} {h : Header} {i : Instr} :
    whenZero n h = .single i ↔ n = 0 ∧ h = .single i := by
  by_cases hn : n = 0
  · simp [hn, whenZero_zero]
  · simp [hn, whenZero_of_ne]

theorem whenZero_eq_load_iff {n : Nat} {h : Header} {len : BitVec 16} :
    whenZero n h = .load len ↔ n = 0 ∧ h = .load len := by
  by_cases hn : n = 0
  · simp [hn, whenZero_zero]
  · simp [hn, whenZero_of_ne]

/-- The header word of a command of one word is read back. -/
theorem exists_encode_eq_singleton {i : Instr} (hi : ∀ len ws, i ≠ .load len ws) :
    ∃ w, encode i = [w] ∧ decodeHeader w = .single i := by
  cases i with
  | load len ws => exact absurd rfl (hi len ws)
  | vsel ev tlen =>
    obtain ⟨hev, hzero⟩ := extractLsb'_variantBits ev
    refine ⟨_, rfl, ?_⟩
    simp only [decodeHeader, headerOp_headerWord, headerA_headerWord, headerImm_headerWord, hev, hzero]
    simp [whenZero]
  | _ => exact ⟨_, rfl, by simp [decodeHeader, whenZero]⟩

theorem decodeHeader_load (len : BitVec 16) : decodeHeader (headerWord 0x01 0 len) = .load len := by
  simp [decodeHeader, whenZero]

/-- No bit of the header word of a one-word command is ignored (D22); format by format, the fields its command does not
carry are zero. -/
theorem encode_of_decodeHeader_single {w : Word} {i : Instr} (h : decodeHeader w = .single i) :
    encode i = [w] ∧ ∀ len ws, i ≠ .load len ws := by
  unfold decodeHeader at h
  split at h <;> simp only [whenZero_eq_single_iff, headerImm24_eq_zero_iff, Header.single.injEq, reduceCtorEq,
    and_false] at h
  case h_1 _ hop | h_3 _ hop | h_9 _ hop | h_10 _ hop | h_11 _ hop | h_13 _ hop | h_16 _ hop =>
    obtain ⟨⟨ha, himm⟩, rfl⟩ := h
    exact ⟨congrArg (fun v => [v]) (headerWord_eq_of_fields hop ha himm), nofun⟩
  case h_4 _ hop | h_5 _ hop | h_6 _ hop | h_14 _ hop =>
    obtain ⟨himm, rfl⟩ := h
    exact ⟨congrArg (fun v => [v]) (headerWord_eq_of_fields hop rfl himm), nofun⟩
  case h_7 _ hop =>
    subst h
    exact ⟨congrArg (fun v => [v]) (headerWordW_eq_of_fields hop), nofun⟩
  case h_8 _ hop =>
    obtain ⟨ha, rfl⟩ := h
    exact ⟨congrArg (fun v => [v]) (headerWord_eq_of_fields hop ha rfl), nofun⟩
  case h_12 _ hop =>
    obtain ⟨hreserved, rfl⟩ := h
    have ha := congrArg BitVec.toNat (variantBits_of_upperSix_eq_zero _ hreserved).symm
    exact ⟨congrArg (fun v => [v]) (headerWord_eq_of_fields hop ha rfl), nofun⟩
  case h_15 _ hop =>
    subst h
    exact ⟨congrArg (fun v => [v]) (headerWord_eq_of_fields hop rfl rfl), nofun⟩

theorem headerWord_of_decodeHeader_load {w : Word} {len : BitVec 16} (h : decodeHeader w = .load len) :
    headerWord 0x01 0 len = w := by
  unfold decodeHeader at h
  split at h <;> simp only [whenZero_eq_load_iff, reduceCtorEq, and_false] at h
  case h_2 _ hop =>
    obtain ⟨ha, hlen⟩ := h
    cases hlen
    exact headerWord_eq_of_fields hop ha rfl

/-! ## The words of one command -/

section
variable {w : Word}

theorem decode_of_single {i : Instr} (h : decodeHeader w = .single i) (ws : List Word) :
    decode (w :: ws) = .command i ws := by
  simp only [decode, h]

theorem decode_of_illegal {why : IllegalWord} (h : decodeHeader w = .illegal why) (ws : List Word) :
    decode (w :: ws) = .illegal why ws := by
  simp only [decode, h]

theorem decode_of_load {len : BitVec 16} (h : decodeHeader w = .load len) (ws : List Word) :
    decode (w :: ws) =
      if payloadWordCount len ≤ ws.length then
        .command (.load len (ws.take (payloadWordCount len))) (ws.drop (payloadWordCount len))
      else .incomplete := by
  simp only [decode, h]

/-- The words after the header of a `LOAD`, cut where its length says, are its payload (R67). -/
theorem wellFormed_load_take {len : BitVec 16} {ws : List Word} (h : payloadWordCount len ≤ ws.length) :
    (Instr.load len (ws.take (payloadWordCount len))).wellFormed = true := by
  rw [wellFormed_load_iff, List.length_take, Nat.min_eq_left h]

theorem wellFormed_of_ne_load {i : Instr} (hi : ∀ len ws, i ≠ .load len ws) : i.wellFormed = true := by
  cases i with
  | load len ws => exact absurd rfl (hi len ws)
  | _ => rfl

/-- A header word longer than one word is one of the `LOAD` row (R68). -/
theorem commandLength_of_mnemonic_ne (h : (decodeHeader w).mnemonic ≠ some "LOAD") : commandLength w = 1 := by
  have hrow : (⟨"LOAD", 0x01000000#32, 0xFFFF0000#32⟩ : OpcodeRow) ∈ opcodeTable := by decide
  refine if_neg fun hmask => h ((selects_iff_mnemonic w _ hrow).1 ?_)
  exact beq_iff_eq.2 hmask

theorem commandLength_of_single {i : Instr} (h : decodeHeader w = .single i) : commandLength w = 1 := by
  refine commandLength_of_mnemonic_ne ?_
  have hi := (encode_of_decodeHeader_single h).2
  rw [h, Header.mnemonic_single]
  cases i with
  | load len ws => exact absurd rfl (hi len ws)
  | _ => simp [Instr.mnemonic]

theorem commandLength_of_illegal {why : IllegalWord} (h : decodeHeader w = .illegal why) : commandLength w = 1 :=
  commandLength_of_mnemonic_ne (by rw [h, Header.mnemonic_illegal]; exact nofun)

theorem commandLength_of_load {len : BitVec 16} (h : decodeHeader w = .load len) :
    commandLength w = 1 + payloadWordCount len := by
  rw [← headerWord_of_decodeHeader_load h, Laws.EncodedLength.loadHeader]

end

/-! ## The obligations -/

/-- Settles O1: a command of one word is its header word, and a `LOAD` is cut where its length says. -/
theorem decodeOfEncodedCommand : Obligations.DecodeOfEncodedCommand := by
  intro i rest hwf
  by_cases hi : ∃ len ws, i = .load len ws
  · obtain ⟨len, ws, rfl⟩ := hi
    have hlen : ws.length = payloadWordCount len := (wellFormed_load_iff len ws).1 hwf
    show decode (headerWord 0x01 0 len :: (ws ++ rest)) = _
    rw [decode_of_load (decodeHeader_load len), ← hlen, if_pos (by simp), List.take_left, List.drop_left]
  · push Not at hi
    obtain ⟨w, hencode, hw⟩ := exists_encode_eq_singleton hi
    rw [hencode]
    exact decode_of_single hw rest

/-- Settles O2, by what the first word says. -/
theorem encodeOfDecodedCommand : Obligations.EncodeOfDecodedCommand := by
  intro words rest i h
  cases words with
  | nil => cases h
  | cons w ws =>
    cases hw : decodeHeader w with
    | single j =>
      rw [decode_of_single hw] at h
      cases h
      obtain ⟨hencode, hi⟩ := encode_of_decodeHeader_single hw
      exact ⟨wellFormed_of_ne_load hi, by rw [hencode]; rfl⟩
    | load len =>
      rw [decode_of_load hw] at h
      split at h
      next hlen =>
        cases h
        refine ⟨wellFormed_load_take hlen, ?_⟩
        rw [encode, headerWord_of_decodeHeader_load hw, List.cons_append, List.take_append_drop]
      next => cases h
    | illegal why =>
      rw [decode_of_illegal hw] at h
      cases h

/-- Two rows of the table with one mnemonic are one row. -/
theorem eq_of_mnemonic_eq : ∀ r ∈ opcodeTable, ∀ r' ∈ opcodeTable, r.mnemonic = r'.mnemonic → r = r' := by decide

/-- Settles O3: the decoder names the row a word selects, and two rows of one name are one. -/
theorem decoderFollowsMaskAndMatch : Obligations.DecoderFollowsMaskAndMatch := by
  refine ⟨selects_iff_mnemonic, ?overlap⟩
  case overlap =>
    intro w r hr r' hr' hsel hsel'
    have hname := (selects_iff_mnemonic w r hr).1 hsel
    have hname' := (selects_iff_mnemonic w r' hr').1 hsel'
    exact eq_of_mnemonic_eq r hr r' hr' (Option.some.inj (hname.symm.trans hname'))

/-- Settles O6, by what the header word says; only the words of a `LOAD` can be incomplete. -/
theorem headerWordTellsCommandLength : Obligations.HeaderWordTellsCommandLength := by
  intro w ws
  cases hw : decodeHeader w with
  | single i =>
    rw [decode_of_single hw, commandLength_of_single hw]
    refine ⟨by simp, ?_, nofun⟩
    rintro _ _ ⟨⟩
    exact ⟨(encode_of_decodeHeader_single hw).1, rfl⟩
  | illegal why =>
    rw [decode_of_illegal hw, commandLength_of_illegal hw]
    refine ⟨by simp, nofun, ?_⟩
    rintro _ _ ⟨⟩
    exact ⟨rfl, rfl⟩
  | load len =>
    rw [decode_of_load hw, commandLength_of_load hw]
    split
    next hlen =>
      refine ⟨iff_of_false nofun (by omega), ?_, nofun⟩
      rintro _ _ ⟨⟩
      rw [encode, headerWord_of_decodeHeader_load hw, Nat.add_comm, List.take_succ_cons, List.drop_succ_cons]
      exact ⟨rfl, rfl⟩
    next hlen => exact ⟨iff_of_true rfl (by omega), nofun, nofun⟩

/-- Settles O5: nine words, decoded by evaluation. -/
theorem writtenOutWordsDecode : Obligations.WrittenOutWordsDecode := by
  unfold Obligations.WrittenOutWordsDecode
  decide

end Sys2Proof
end

section
/-! # The step at the ports (30_encoding.md, R68; 70_reset_and_hazards.md, R200)

What a command's words are followed by, words or a reset, does not matter to the fetch, since a command is read back from
its encoding whatever comes after it (`decodeOfEncodedCommand`). -/

namespace Sys2Proof.Machine

section
variable {s : State} {p : List PortEvent}

/-- A command whose words are at the front of the port is fetched, and what comes after them is left. -/
theorem State.fetch_of_encode {i : Instr} (hport : s.port = (encode i).map .word ++ p) (hwf : i.wellFormed = true) :
    s.fetch = .command i { s with port := p } := by
  have hdecode : decode (wordsBeforeReset s.port) = .command i (wordsBeforeReset p) := by
    rw [hport, wordsBeforeReset_words, decodeOfEncodedCommand i _ hwf]
  have hrest : portAfter s.port (wordsBeforeReset p) = p := hport ▸ portAfter_words (encode i) p
  simp only [State.fetch, hdecode, hrest]

theorem State.fetch_of_incomplete {ws : List Word} (hport : s.port = ws.map .word) (h : decode ws = .incomplete) :
    s.fetch = .waiting := by
  have hwords : wordsBeforeReset s.port = ws := by
    rw [hport, ← List.append_nil (ws.map _), wordsBeforeReset_words, wordsBeforeReset_nil, List.append_nil]
  have hreset : afterReset s.port = none := by
    rw [hport, ← List.append_nil (ws.map _), afterReset_words, afterReset_nil]
  simp only [State.fetch, hwords, h, hreset]

theorem State.fetch_of_incomplete_reset {ws : List Word} (hport : s.port = ws.map .word ++ .reset :: p)
    (h : decode ws = .incomplete) : s.fetch = .reset { s with port := p } := by
  simp only [State.fetch, hport, wordsBeforeReset_words, afterReset_words, wordsBeforeReset_reset, afterReset_reset,
    List.append_nil, h]

/-- Everything the ports can hold next (R68, R200); a command that is fetched is well-formed, and nothing but the port
has changed. -/
theorem State.fetch_cases (s : State) :
    (∃ i p, i.wellFormed = true ∧ s.fetch = .command i { s with port := p }) ∨
    (∃ p, s.fetch = .illegal { s with port := p }) ∨ (∃ p, s.fetch = .reset { s with port := p }) ∨
    s.fetch = .waiting := by
  unfold State.fetch
  cases hdecode : decode (wordsBeforeReset s.port) with
  | command i rest => exact .inl ⟨i, _, (encodeOfDecodedCommand _ _ _ hdecode).1, rfl⟩
  | illegal why rest => exact .inr (.inl ⟨_, rfl⟩)
  | incomplete =>
    cases afterReset s.port with
    | some p => exact .inr (.inr (.inl ⟨p, rfl⟩))
    | none => exact .inr (.inr (.inr rfl))

end

/-- Settles O7: the words that decode to `i` are its encoding and what follows it. -/
theorem stepRunsDecodedCommand : Obligations.StepRunsDecodedCommand := by
  intro s ws rest p i hport hdecode
  obtain ⟨hwf, rfl⟩ := encodeOfDecodedCommand ws rest i hdecode
  rw [List.map_append, List.append_assoc] at hport
  simp only [step, State.fetch_of_encode hport hwf]

/-- Settles O8: the block waits. -/
theorem incompleteCommandChangesNothing : Obligations.IncompleteCommandChangesNothing := by
  intro s ws hport hdecode
  simp only [step, State.fetch_of_incomplete hport hdecode, wait]

/-- Settles O9: the reset is fetched with the port behind it, and `State.resetRegisters` keeps `BUF`, the parameter and
the two ports. -/
theorem resetInputDiscardsPartialCommand : Obligations.ResetInputDiscardsPartialCommand := by
  intro s ws p hport hdecode
  simp only [step, State.fetch_of_incomplete_reset hport hdecode, takeReset]
  rfl

end Sys2Proof.Machine
end

section
/-! # The payload buffer (40_bit_reader.md, R81)

A memory in canonical form is determined by what is read from it (`Memory.eq_of_read_eq`), so that the block update of
`LOAD` and the loop of byte writes need only be compared byte by byte. -/

namespace Sys2Proof.Machine

/-! ## Canonical memories -/

/-- Below the first address of a canonical memory nothing is read. -/
theorem Memory.read_eq_none_of_lt_head {a i : Nat} {b : Byte} {m : Memory} (hw : Memory.wf ((a, b) :: m) = true)
    (h : i < a) : Memory.read ((a, b) :: m) i = none := by
  refine Memory.read_none_of_forall_ne fun c hc => ?_
  obtain rfl | hc := List.mem_cons.1 hc
  · exact Nat.ne_of_gt h
  · have := ((Memory.wf_cons a b m).1 hw).1 c hc
    omega

theorem Memory.read_head (a : Nat) (b : Byte) (m : Memory) : Memory.read ((a, b) :: m) a = some b := if_pos rfl

/-- Two canonical memories from which the same is read at every address are one. -/
theorem Memory.eq_of_read_eq {m m' : Memory} (hw : m.wf = true) (hw' : m'.wf = true)
    (h : ∀ a, m.read a = m'.read a) : m = m' := by
  induction m generalizing m' with
  | nil =>
    cases m' with
    | nil => rfl
    | cons c m' =>
      have := h c.1
      rw [Memory.read_nil, Memory.read_head] at this
      cases this
  | cons c m ih =>
    obtain ⟨a, b⟩ := c
    cases m' with
    | nil =>
      have := h a
      rw [Memory.read_nil, Memory.read_head] at this
      cases this
    | cons c' m' =>
      obtain ⟨a', b'⟩ := c'
      have haa' : a = a' := by
        have hhead := h a
        have hhead' := h a'
        rw [Memory.read_head] at hhead hhead'
        rcases Nat.lt_trichotomy a a' with hlt | heq | hgt
        · rw [Memory.read_eq_none_of_lt_head hw' hlt] at hhead
          cases hhead
        · exact heq
        · rw [Memory.read_eq_none_of_lt_head hw hgt] at hhead'
          cases hhead'
      subst haa'
      have hbb' : b = b' := by simpa only [Memory.read_head, Option.some.injEq] using h a
      rw [Memory.wf_cons] at hw hw'
      have htail : ∀ i, Memory.read m i = Memory.read m' i := by
        intro i
        by_cases hi : a = i
        · subst hi
          rw [Memory.read_none_of_forall_ne fun c hc => (hw.1 c hc).ne',
            Memory.read_none_of_forall_ne fun c hc => (hw'.1 c hc).ne']
        · simpa only [Memory.read_cons, if_neg hi] using h i
      rw [hbb', ih hw.2 hw'.2 htail]

/-! ## The loop of byte writes -/

/-- The first `n` rounds of R81's loop. -/
def Memory.writeLoop (m : Memory) (bytes : List Byte) (n : Nat) : Memory :=
  (List.range n).foldl (fun m t => m.write t (bytes.getD t 0#8)) m

theorem Memory.writeLoop_succ (m : Memory) (bytes : List Byte) (n : Nat) :
    m.writeLoop bytes (n + 1) = (m.writeLoop bytes n).write n (bytes.getD n 0#8) := by
  rw [Memory.writeLoop, List.range_succ, List.foldl_append]
  rfl

theorem Memory.writeLoop_wf {m : Memory} (hw : m.wf = true) (bytes : List Byte) (n : Nat) :
    (m.writeLoop bytes n).wf = true := by
  induction n with
  | zero => exact hw
  | succ n ih =>
    rw [Memory.writeLoop_succ]
    exact Memory.write_wf ih _ _

theorem Memory.read_writeLoop (m : Memory) (bytes : List Byte) (n a : Nat) :
    (m.writeLoop bytes n).read a = if a < n then some (bytes.getD a 0#8) else m.read a := by
  induction n with
  | zero => rfl
  | succ n ih =>
    rw [Memory.writeLoop_succ]
    by_cases ha : a = n
    · rw [ha, Memory.read_write_same, if_pos (Nat.lt_succ_self n)]
    · rw [Memory.read_write_other _ _ ha, ih]
      simp only [show a < n + 1 ↔ a < n by omega]

/-- Settles O54: both memories are canonical and hold the same at every address. -/
theorem blockWriteIsLoopOfByteWrites : Obligations.BlockWriteIsLoopOfByteWrites := by
  intro m bytes hw
  show m.writeBlock bytes = m.writeLoop bytes bytes.length
  refine Memory.eq_of_read_eq (Memory.writeBlock_wf hw bytes) (Memory.writeLoop_wf hw bytes bytes.length) fun a => ?_
  rw [Memory.read_writeBlock, Memory.read_writeLoop]
  split
  next h => rw [List.getD_eq_getElem _ _ h, List.getElem?_eq_getElem h]
  next => rfl

end Sys2Proof.Machine
end

section
/-! # What each command does (R81 to R85, R102, R112 to R117, R151 to R159)

One lemma for each command inside its domain, as the completion it is; the faults are those of `exec_of_raises`, and
where the model itself stops is said beside the command. -/

namespace Sys2Proof.Machine

/-! ## `LOAD` and `MARKBAD` (R81, R83) -/

/-- Byte `t` of the payload is lane `t mod 4` of word `t div 4` (R67, R81). -/
theorem payloadBytes_getElem? {len : BitVec 16} {ws : List Word} (hlen : len.toNat ≤ 4 * ws.length) {k : Nat}
    (hk : k < len.toNat) : (payloadBytes len ws)[k]? =
      some (BitVec.ofNat 8 ((ws.getD (k / 4) 0#32).toNat / 2 ^ (24 - 8 * (k % 4)))) := by
  have hlane : k < (laneBytes ws).length := by rw [laneBytes_length]; omega
  rw [payloadBytes, List.getElem?_take_of_lt hk, List.getElem?_eq_getElem hlane]
  congr 1
  apply BitVec.eq_of_toNat_eq
  rw [laneBytes_getElem_toNat, BitVec.toNat_ofNat]

theorem length_le_of_wellFormed {len : BitVec 16} {ws : List Word} (hwf : (Instr.load len ws).wellFormed = true) :
    len.toNat ≤ 4 * ws.length :=
  (of_decide_eq_true hwf).1

section
variable {s : State}

theorem exec_load_of_fits {len : BitVec 16} {ws : List Word} (hwf : (Instr.load len ws).wellFormed = true)
    (hpad : padIsZero len ws = true) (hlen : len.toNat ≤ s.cfg.bufcap) : exec (.load len ws) s = finish
      { s.clearLine with buf := s.buf.writeBlock (payloadBytes len ws), len := len, bst := .valid } (zext64 len) := by
  show execLoad len ws s = _
  simp only [execLoad, hwf, hpad, Nat.not_lt.2 hlen, Bool.true_eq_false, if_false]

theorem exec_load_of_not_wellFormed {len : BitVec 16} {ws : List Word}
    (hwf : (Instr.load len ws).wellFormed = false) : exec (.load len ws) s = .refused .illFormedLoad :=
  if_pos hwf

/-! ## `RDB` (R85) -/

theorem State.readBits_of_absent {c n : Nat} (h : c + n ≤ 8 * s.len.toNat) (hp : s.payload = none) :
    s.readBits c n = .absent := by
  simp only [State.readBits, Nat.not_lt.2 h, hp, if_false]

theorem exec_rdb_of_absent {n : BitVec 8} (hn : n.toNat ≤ 32) (hbst : s.bst = .valid)
    (hend : s.cur.toNat + n.toNat ≤ 8 * s.len.toNat) (hp : s.payload = none) :
    exec (.rdb n) s = .fault .payloadByteAbsent := by
  show execRdb n s = _
  simp only [execRdb, Nat.not_lt.2 hn, hbst, State.readBits_of_absent hend hp, if_false]

theorem exec_rdb_of_fits {n : BitVec 8} {bytes : List Byte} (hn : n.toNat ≤ 32) (hbst : s.bst = .valid)
    (hp : s.payload = some bytes) (hend : s.cur.toNat + n.toNat ≤ 8 * s.len.toNat) : exec (.rdb n) s = finish
      { s with
        raw := some (BitVec.ofNat 32 (memRead bytes s.cur.toNat n.toNat))
        cur := BitVec.ofNat 20 (s.cur.toNat + n.toNat) }
      (BitVec.ofNat 64 (memRead bytes s.cur.toNat n.toNat)) := by
  have hfield := State.readBits_eq_field.2 ⟨hend, rfl, bytes, hp, rfl⟩
  show execRdb n s = _
  simp only [execRdb, Nat.not_lt.2 hn, hbst, hfield, if_false]

/-- A bit address inside the payload, or at its end, fits `CUR` (R14). -/
theorem cursor_toNat {c : Nat} {len : BitVec 16} (h : c ≤ 8 * len.toNat) : (BitVec.ofNat 20 c).toNat = c := by
  rw [BitVec.toNat_ofNat]
  omega

/-! ## `DEQ`, `ANSI`, `SETDF` and `HYB` (R102, R112, R114, R117) -/

theorem exec_deq_of_fits {b : BitVec 8} {raw : BitVec 32} (hb : 1 ≤ b.toNat) (hb' : b.toNat ≤ 32)
    (hraw : s.raw = some raw) (hwide : raw.toNat < 2 ^ b.toNat) : exec (.deq b) s = finish
      { s with spl := some (level raw.toNat b.toNat) } (sext64 (level raw.toNat b.toNat)) := by
  have hwidth : ¬(b.toNat = 0 ∨ 32 < b.toNat) := by omega
  show execDeq b s = _
  simp only [execDeq, hwidth, hraw, Nat.not_le.2 hwide, if_false]

theorem exec_ansi_of_le {k : BitVec 8} (hk : k.toNat ≤ 27) : exec (.ansi k) s = finish
    { s with frq := some (BitVec.ofNat 64 (ansiFreq k.toNat)) } (BitVec.ofNat 64 (ansiFreq k.toNat)) :=
  if_neg (Nat.not_lt.2 hk)

theorem exec_setdf_of_ne {df : BitVec 24} (hdf : df ≠ 0#24) :
    exec (.setdf df) s = finish { s with df := df, dfu := true } (zext64 df) :=
  if_neg hdf

theorem exec_hyb_of_lt {k : BitVec 16} (h : hyb s.df.toNat k.toNat < 2 ^ 64) : exec (.hyb k) s = finish
    { s with frq := some (BitVec.ofNat 64 (hyb s.df.toNat k.toNat)) } (BitVec.ofNat 64 (hyb s.df.toNat k.toNat)) :=
  if_neg (Nat.not_le.2 h)

/-! ## The decoders (R131) -/

section
variable {need : Nat} {body : List Byte → State → State}

theorem macroDecode_of_absent (hbst : s.bst = .valid) (hlen : need ≤ 8 * s.len.toNat) (hp : s.payload = none) :
    macroDecode need false body s = .fault .payloadByteAbsent := by
  simp [macroDecode, hbst, Nat.not_lt.2 hlen, hp]

theorem macroDecode_of_payload {bytes : List Byte} (hbst : s.bst = .valid) (hlen : need ≤ 8 * s.len.toNat)
    (hp : s.payload = some bytes) : macroDecode need false body s =
      finish (body bytes s.prologue) (zext64 (body bytes s.prologue).record.recn) := by
  simp [macroDecode, hbst, Nat.not_lt.2 hlen, hp]

end

section
variable {i : Instr} {v : VariantKind}

theorem exec_of_decodesAs_absent (hi : DecodesAs i s v) (hbst : s.bst = .valid)
    (hlen : layoutBits v ≤ 8 * s.len.toNat) (hov : decodeOverflows v s = false) (hp : s.payload = none) :
    exec i s = .fault .payloadByteAbsent := by
  rw [exec_of_decodesAs hi, decodePayload, hov, macroDecode_of_absent hbst hlen hp]

/-- A decode whose checks pass is its body, after the prologue (R131). -/
theorem exec_of_decodesAs_payload {bytes : List Byte} (hi : DecodesAs i s v) (hbst : s.bst = .valid)
    (hlen : layoutBits v ≤ 8 * s.len.toNat) (hov : decodeOverflows v s = false) (hp : s.payload = some bytes) :
    exec i s = finish (decodeBody v bytes s.prologue) (zext64 (decodeBody v bytes s.prologue).record.recn) := by
  rw [exec_of_decodesAs hi, decodePayload, hov, macroDecode_of_payload hbst hlen hp]

theorem decodeOverflows_of_ne_pgram (hv : v ≠ .pgram) : decodeOverflows v s = false := by
  simp [decodeOverflows, hv]

theorem decodeOverflows_pgram_eq_false (h : s.len.toNat = 0 ∨ hyb s.df.toNat (s.len.toNat - 1) < 2 ^ 64) :
    decodeOverflows .pgram s = false := by
  rw [← Bool.not_eq_true, decodeOverflows_iff]
  rintro ⟨-, hlen, hhyb⟩
  omega

end

/-! ## `GETREC` (R159) -/

theorem exec_getrec_of_field {j : BitVec 8} {i : BitVec 16} {x : BitVec 64} (hi : i.toNat < s.record.recn.toNat)
    (hj : j.toNat ≤ s.record.recw.toNat) (hfield : s.record.field i.toNat j.toNat = some x) :
    exec (.getrec j i) s = finish s x := by
  have hinside : ¬(i.toNat ≥ s.record.recn.toNat ∨ j.toNat > s.record.recw.toNat) := by omega
  show execGetrec j i s = _
  simp only [execGetrec, hinside, hfield, if_false]

theorem exec_getrec_of_absent {j : BitVec 8} {i : BitVec 16} (hi : i.toNat < s.record.recn.toNat)
    (hj : j.toNat ≤ s.record.recw.toNat) (hfield : s.record.field i.toNat j.toNat = none) :
    exec (.getrec j i) s = .fault .recordFieldAbsent := by
  have hinside : ¬(i.toNat ≥ s.record.recn.toNat ∨ j.toNat > s.record.recw.toNat) := by omega
  show execGetrec j i s = _
  simp only [execGetrec, hinside, hfield, if_false]

theorem Record.field_of_entry {r : Record} {e : Entry} {i : Nat} (h : r.entries[i]? = some e) (j : Nat) :
    r.field i j = e.field j := by
  simp only [Record.field, h]

end

/-! ## The obligations -/

/-- Settles O11: what is read after the block write, and the payload read back. -/
theorem loadStoresPayload : Obligations.LoadStoresPayload := by
  intro s len ws hwf hlen hpad
  have hcount := length_le_of_wellFormed hwf
  have hbytes := payloadBytes_length hcount
  refine ⟨_, exec_load_of_fits hwf ((padIsZero_iff len ws).2 hpad) hlen, ?registers, ?read, ?payload⟩
  case registers =>
    rw [BitVec.ofNat_toNat]
    rfl
  case read =>
    intro a
    show (s.buf.writeBlock (payloadBytes len ws)).read a = _
    rw [Memory.read_writeBlock, hbytes]
    split
    next ha => exact payloadBytes_getElem? hcount ha
    next => rfl
  case payload =>
    intro hw
    refine ⟨Memory.writeBlock_wf hw _, payloadBytes len ws, ?_, hbytes, ?_⟩
    · show (s.buf.writeBlock (payloadBytes len ws)).readBytes 0 len.toNat = _
      rw [← hbytes]
      exact Memory.readBytes_writeBlock hw _
    · intro a ha
      show (s.buf.writeBlock (payloadBytes len ws)).read a = _
      rw [Memory.read_writeBlock, if_pos (hbytes ▸ ha)]

/-- Settles O12: the two causes of a fault of `LOAD`, neither of which performs a prologue. -/
theorem loadFaultsLoadNothing : Obligations.LoadFaultsLoadNothing := by
  refine ⟨?pad, ?capacity⟩
  case pad =>
    intro s len ws k hwf hk hk' hlane
    exact exec_of_raises (.loadPad hwf ((padIsZero_eq_false_iff len ws).2 ⟨k, hk, hk', hlane⟩))
  case capacity =>
    intro s len ws hwf hlen hpad
    exact exec_of_raises (.loadCapacity hwf ((padIsZero_iff len ws).2 hpad) hlen)

/-- Settles O13, command by command. -/
theorem modelStopsByName : Obligations.ModelStopsByName := by
  refine ⟨fun s n => exec_rdb_of_absent, ?spectrum, ?statistics, ?pgram, fun s j i => exec_getrec_of_absent,
    fun s len ws => exec_load_of_not_wellFormed⟩
  case spectrum =>
    intro s i hi hbst hlen hp
    have hbits : 336 ≤ 8 * s.len.toNat := by omega
    exact exec_of_decodesAs_absent (v := .spectrum) hi hbst hbits (decodeOverflows_of_ne_pgram nofun) hp
  case statistics =>
    intro s i hi hbst hlen hp
    have hbits : 896 ≤ 8 * s.len.toNat := by omega
    exact exec_of_decodesAs_absent (v := .statistics) hi hbst hbits (decodeOverflows_of_ne_pgram nofun) hp
  case pgram =>
    intro s i hi hbst hfits hp
    exact exec_of_decodesAs_absent (v := .pgram) hi hbst (Nat.zero_le _) (decodeOverflows_pgram_eq_false hfits) hp

/-- Settles O14: `MARKBAD` has one way to complete. -/
theorem markbadEmptiesTheLine : Obligations.MarkbadEmptiesTheLine := fun _ => rfl

/-- Settles O15: the cursor stays within the payload, so it does not wrap. -/
theorem rdbReadsFieldAndAdvances : Obligations.RdbReadsFieldAndAdvances := by
  intro s n bytes hn hbst hp hend
  exact ⟨_, exec_rdb_of_fits hn hbst hp hend, rfl, cursor_toNat hend, memRead_lt bytes _ _⟩

/-- Settles O16: `DEQ` inside its domain. -/
theorem deqConvertsRaw : Obligations.DeqConvertsRaw :=
  fun _ _ _ hb hb' hraw hwide => exec_deq_of_fits hb hb' hraw hwide

/-- Settles O17: the document's list is the band ROM. -/
theorem ansiReadsBandRom : Obligations.AnsiReadsBandRom := by
  intro s k hz hentry
  change ansiTable[k.toNat]? = some hz at hentry
  obtain ⟨hk, -⟩ := List.getElem?_eq_some_iff.1 hentry
  rw [ansiTable_length] at hk
  have hfreq : ansiFreq k.toNat = 1000 * hz := by rw [ansiFreq, List.getD_eq_getElem?_getD, hentry]; rfl
  rw [exec_ansi_of_le (by omega), hfreq]
  rfl

/-- Settles O18: a positive `df` is not the zero that `SETDF` refuses. -/
theorem setdfSetsDfAndDfu : Obligations.SetdfSetsDfAndDfu := by
  intro s df hdf
  have hne : df ≠ 0#24 := by
    rintro rfl
    exact absurd hdf (by decide)
  rw [exec_setdf_of_ne hne, BitVec.ofNat_toNat]
  rfl

/-- Settles O19: `HYB` with an entry that fits. -/
theorem hybComputesEntry : Obligations.HybComputesEntry := fun _ _ h => exec_hyb_of_lt h

/-- Without an explicit variant the text length selects (R151). -/
theorem selectVariant_none (tlen : BitVec 16) : selectVariant none tlen =
    if tlen.toNat < 100 then .spectrum else if tlen.toNat < 200 then .statistics else .pgram := rfl

theorem exec_vsel (ev : Option VariantKind) (tlen : BitVec 16) (s : State) : exec (.vsel ev tlen) s = finish
    { s with var := some (selectVariant ev tlen) } (zext64 (variantCode (some (selectVariant ev tlen)))) := rfl

/-- Settles O23: the selection, case by case; its code is the response. -/
theorem vselSelectsVariant : Obligations.VselSelectsVariant := by
  refine ⟨?explicit, ?short, ?medium, ?long⟩
  case explicit =>
    intro s v tlen
    cases v <;> rfl
  case short =>
    intro s tlen h
    rw [exec_vsel, selectVariant_none, if_pos h]
    rfl
  case medium =>
    intro s tlen h h'
    rw [exec_vsel, selectVariant_none, if_neg (by omega), if_pos h']
    rfl
  case long =>
    intro s tlen h
    rw [exec_vsel, selectVariant_none, if_neg (by omega), if_neg (by omega)]
    rfl

theorem exec_get_of_value {r : BitVec 8} {s : State} {x : BitVec 64} (h : readRegister s r = .value x) :
    exec (.get r) s = finish s x :=
  execGet_of_value h

/-- `GET` of a register that can be empty, and is not. -/
theorem exec_get_of_some {r : BitVec 8} {s : State} {w : Nat} {extend : BitVec w → BitVec 64}
    {register : Option (BitVec w)} {x : BitVec w} (hread : readRegister s r = optionalRead extend register)
    (hx : register = some x) : exec (.get r) s = finish s (extend x) :=
  exec_get_of_value (by rw [hread, hx]; rfl)

/-- Settles O24: each register by its number (R24); `FRQ` has 64 bits already. -/
theorem getReadsRegister : Obligations.GetReadsRegister := by
  intro s
  refine ⟨exec_get_zero s, exec_get_of_value rfl, exec_get_of_value rfl, exec_get_of_value rfl,
    fun _ h => exec_get_of_some rfl h, fun _ h => exec_get_of_some rfl h, ?frq, exec_get_of_value rfl,
    exec_get_of_value rfl, exec_get_of_value rfl⟩
  case frq =>
    intro f h
    rw [exec_get_of_some rfl h, zext64, BitVec.setWidth_eq]
    rfl

/-- Settles O25: a field of an entry that is held. -/
theorem getrecReadsField : Obligations.GetrecReadsField := by
  refine ⟨?frequency, ?level⟩
  case frequency =>
    intro s i e hi he
    have hfield : s.record.field i.toNat (0#8).toNat = some e.f := by
      rw [Record.field_of_entry he]
      show some (zext64 e.f) = _
      rw [zext64, BitVec.setWidth_eq]
    exact exec_getrec_of_field hi (Nat.zero_le _) hfield
  case level =>
    intro s j i e x hi hj hj' he hx
    have hfield : s.record.field i.toNat j.toNat = some (sext64 x) := by
      rw [Record.field_of_entry he, show j.toNat = j.toNat - 1 + 1 by omega, Entry.field_succ, hx]
      rfl
    exact exec_getrec_of_field hi hj' hfield

/-- Settles O26: `SRST` has one way to complete. -/
theorem srstResetsRegisters : Obligations.SrstResetsRegisters := fun _ => rfl

end Sys2Proof.Machine
end

section
/-! # How a command ends: `OK`, a fault, or a stop

Beside `Raises`, the causes of a fault, stand `Performs`, what a command does when it ends with `OK`, and `Stops`, the
states in which the model itself stops. A command meets one of the three (`exec_trichotomy`), and each determines what
`exec` answers, so that a statement about every command is a case analysis of the three. -/

namespace Sys2Proof.Machine

/-! ## Success and stop -/

/-- A command that ends with `OK`: the state it leaves, before the response, and the data of the response. -/
inductive Performs (s : State) : Instr → State → BitVec 64 → Prop where
  | nop : Performs s .nop s 0#64
  | load {len : BitVec 16} {ws : List Word} (hwf : (Instr.load len ws).wellFormed = true)
      (hpad : padIsZero len ws = true) (hlen : len.toNat ≤ s.cfg.bufcap) : Performs s (.load len ws)
        { s.clearLine with buf := s.buf.writeBlock (payloadBytes len ws), len := len, bst := .valid } (zext64 len)
  | markbad : Performs s .markbad { s.clearLine with len := 0#16, bst := .bad } 0#64
  | rdb {n : BitVec 8} {bytes : List Byte} (hn : n.toNat ≤ 32) (hbst : s.bst = .valid) (hp : s.payload = some bytes)
      (hend : s.cur.toNat + n.toNat ≤ 8 * s.len.toNat) : Performs s (.rdb n)
        { s with
          raw := some (BitVec.ofNat 32 (memRead bytes s.cur.toNat n.toNat))
          cur := BitVec.ofNat 20 (s.cur.toNat + n.toNat) }
        (BitVec.ofNat 64 (memRead bytes s.cur.toNat n.toNat))
  | deq {b : BitVec 8} {raw : BitVec 32} (hb : 1 ≤ b.toNat) (hb' : b.toNat ≤ 32) (hraw : s.raw = some raw)
      (hwide : raw.toNat < 2 ^ b.toNat) : Performs s (.deq b) { s with spl := some (level raw.toNat b.toNat) }
        (sext64 (level raw.toNat b.toNat))
  | ansi {k : BitVec 8} (hk : k.toNat ≤ 27) : Performs s (.ansi k)
      { s with frq := some (BitVec.ofNat 64 (ansiFreq k.toNat)) } (BitVec.ofNat 64 (ansiFreq k.toNat))
  | setdf {df : BitVec 24} (hdf : df ≠ 0#24) : Performs s (.setdf df) { s with df := df, dfu := true } (zext64 df)
  | hyb {k : BitVec 16} (hk : hyb s.df.toNat k.toNat < 2 ^ 64) : Performs s (.hyb k)
      { s with frq := some (BitVec.ofNat 64 (hyb s.df.toNat k.toNat)) } (BitVec.ofNat 64 (hyb s.df.toNat k.toNat))
  | decode {i : Instr} {v : VariantKind} {bytes : List Byte} (hi : DecodesAs i s v) (hbst : s.bst = .valid)
      (hlen : layoutBits v ≤ 8 * s.len.toNat) (hov : decodeOverflows v s = false) (hp : s.payload = some bytes) :
      Performs s i (decodeBody v bytes s.prologue) (zext64 (decodeBody v bytes s.prologue).record.recn)
  | vsel {ev : Option VariantKind} {tlen : BitVec 16} : Performs s (.vsel ev tlen)
      { s with var := some (selectVariant ev tlen) } (zext64 (variantCode (some (selectVariant ev tlen))))
  | get {r : BitVec 8} {x : BitVec 64} (hread : readRegister s r = .value x) : Performs s (.get r) s x
  | getrec {j : BitVec 8} {k : BitVec 16} {x : BitVec 64} (hk : k.toNat < s.record.recn.toNat)
      (hj : j.toNat ≤ s.record.recw.toNat) (hfield : s.record.field k.toNat j.toNat = some x) :
      Performs s (.getrec j k) s x
  | srst : Performs s .srst s.resetRegisters 0#64

/-- Where the model stops: a term that no words decode to, and a byte or a field that the state does not hold (log
entries 4, 6 and 8). -/
inductive Stops (s : State) : Instr → Prop where
  | load {len : BitVec 16} {ws : List Word} (hwf : (Instr.load len ws).wellFormed = false) : Stops s (.load len ws)
  | rdb {n : BitVec 8} (hn : n.toNat ≤ 32) (hbst : s.bst = .valid) (hp : s.payload = none)
      (hend : s.cur.toNat + n.toNat ≤ 8 * s.len.toNat) : Stops s (.rdb n)
  | decode {i : Instr} {v : VariantKind} (hi : DecodesAs i s v) (hbst : s.bst = .valid)
      (hlen : layoutBits v ≤ 8 * s.len.toNat) (hov : decodeOverflows v s = false) (hp : s.payload = none) : Stops s i
  | getrec {j : BitVec 8} {k : BitVec 16} (hk : k.toNat < s.record.recn.toNat)
      (hj : j.toNat ≤ s.record.recw.toNat) (hfield : s.record.field k.toNat j.toNat = none) : Stops s (.getrec j k)

section
variable {s t u : State} {i : Instr} {x : BitVec 64} {v : VariantKind}

theorem exec_of_performs (h : Performs s i u x) : exec i s = finish u x := by
  cases h with
  | nop => rfl
  | load hwf hpad hlen => exact exec_load_of_fits hwf hpad hlen
  | markbad => rfl
  | rdb hn hbst hp hend => exact exec_rdb_of_fits hn hbst hp hend
  | deq hb hb' hraw hwide => exact exec_deq_of_fits hb hb' hraw hwide
  | ansi hk => exact exec_ansi_of_le hk
  | setdf hdf => exact exec_setdf_of_ne hdf
  | hyb hk => exact exec_hyb_of_lt hk
  | decode hi hbst hlen hov hp => exact exec_of_decodesAs_payload hi hbst hlen hov hp
  | vsel => rfl
  | get hread => exact exec_get_of_value hread
  | getrec hk hj hfield => exact exec_getrec_of_field hk hj hfield
  | srst => rfl

theorem exec_ne_next_of_stops (h : Stops s i) : exec i s ≠ .next t := by
  cases h with
  | load hwf => rw [exec_load_of_not_wellFormed hwf]; exact nofun
  | rdb hn hbst hp hend => rw [exec_rdb_of_absent hn hbst hend hp]; exact nofun
  | decode hi hbst hlen hov hp => rw [exec_of_decodesAs_absent hi hbst hlen hov hp]; exact nofun
  | getrec hk hj hfield => rw [exec_getrec_of_absent hk hj hfield]; exact nofun

/-! ## One of the three -/

theorem decode_trichotomy (hi : DecodesAs i s v) :
    (∃ c, Raises s i c) ∨ (∃ u x, Performs s i u x) ∨ Stops s i := by
  cases hbst : s.bst with
  | noPayload => exact .inl ⟨_, .decodeNoPayload hi hbst⟩
  | bad => exact .inl ⟨_, .decodeBad hi hbst⟩
  | valid =>
    by_cases hlen : 8 * s.len.toNat < layoutBits v
    · exact .inl ⟨_, .decodeShort hi hbst hlen⟩
    have hlen := Nat.not_lt.1 hlen
    cases hov : decodeOverflows v s with
    | true =>
      obtain ⟨rfl, hpos, hhyb⟩ := decodeOverflows_iff.1 hov
      exact .inl ⟨_, .decodeOverflow hi hbst hpos hhyb⟩
    | false =>
      cases hp : s.payload with
      | none => exact .inr (.inr (.decode hi hbst hlen hov hp))
      | some bytes => exact .inr (.inl ⟨_, _, .decode hi hbst hlen hov hp⟩)

theorem load_trichotomy (len : BitVec 16) (ws : List Word) (s : State) :
    (∃ c, Raises s (.load len ws) c) ∨ (∃ u x, Performs s (.load len ws) u x) ∨ Stops s (.load len ws) := by
  cases hwf : (Instr.load len ws).wellFormed with
  | false => exact .inr (.inr (.load hwf))
  | true =>
    cases hpad : padIsZero len ws with
    | false => exact .inl ⟨_, .loadPad hwf hpad⟩
    | true =>
      by_cases hlen : len.toNat ≤ s.cfg.bufcap
      · exact .inr (.inl ⟨_, _, .load hwf hpad hlen⟩)
      · exact .inl ⟨_, .loadCapacity hwf hpad (Nat.not_le.1 hlen)⟩

theorem rdb_trichotomy (n : BitVec 8) (s : State) :
    (∃ c, Raises s (.rdb n) c) ∨ (∃ u x, Performs s (.rdb n) u x) ∨ Stops s (.rdb n) := by
  by_cases hn : 32 < n.toNat
  · exact .inl ⟨_, .rdbWidth hn⟩
  have hn := Nat.not_lt.1 hn
  cases hbst : s.bst with
  | noPayload => exact .inl ⟨_, .rdbNoPayload hn hbst⟩
  | bad => exact .inl ⟨_, .rdbBad hn hbst⟩
  | valid =>
    by_cases hend : 8 * s.len.toNat < s.cur.toNat + n.toNat
    · exact .inl ⟨_, .rdbPastEnd hn hbst hend⟩
    have hend := Nat.not_lt.1 hend
    cases hp : s.payload with
    | none => exact .inr (.inr (.rdb hn hbst hp hend))
    | some bytes => exact .inr (.inl ⟨_, _, .rdb hn hbst hp hend⟩)

theorem deq_trichotomy (b : BitVec 8) (s : State) :
    (∃ c, Raises s (.deq b) c) ∨ (∃ u x, Performs s (.deq b) u x) ∨ Stops s (.deq b) := by
  by_cases hb : b.toNat = 0 ∨ 32 < b.toNat
  · exact .inl ⟨_, .deqWidth hb⟩
  obtain ⟨hb, hb'⟩ : 1 ≤ b.toNat ∧ b.toNat ≤ 32 := by omega
  cases hraw : s.raw with
  | none => exact .inl ⟨_, .deqNoRaw hb hb' hraw⟩
  | some raw =>
    by_cases hwide : raw.toNat < 2 ^ b.toNat
    · exact .inr (.inl ⟨_, _, .deq hb hb' hraw hwide⟩)
    · exact .inl ⟨_, .deqRawTooWide hb hb' hraw (Nat.not_lt.1 hwide)⟩

theorem get_trichotomy (r : BitVec 8) (s : State) :
    (∃ c, Raises s (.get r) c) ∨ (∃ u x, Performs s (.get r) u x) ∨ Stops s (.get r) := by
  cases hr : readRegister s r with
  | noRegister => exact .inl ⟨_, .getNoRegister hr⟩
  | holdsNothing => exact .inl ⟨_, .getHoldsNothing hr⟩
  | value x => exact .inr (.inl ⟨_, _, .get hr⟩)

theorem getrec_trichotomy (j : BitVec 8) (k : BitVec 16) (s : State) :
    (∃ c, Raises s (.getrec j k) c) ∨ (∃ u x, Performs s (.getrec j k) u x) ∨ Stops s (.getrec j k) := by
  by_cases hjk : s.record.recn.toNat ≤ k.toNat ∨ s.record.recw.toNat < j.toNat
  · exact .inl ⟨_, .getrecOutside hjk⟩
  obtain ⟨hk, hj⟩ : k.toNat < s.record.recn.toNat ∧ j.toNat ≤ s.record.recw.toNat := by omega
  cases hfield : s.record.field k.toNat j.toNat with
  | none => exact .inr (.inr (.getrec hk hj hfield))
  | some x => exact .inr (.inl ⟨_, _, .getrec hk hj hfield⟩)

/-- Every command in every state has a cause of a fault, does its work, or meets a stop of the model. -/
theorem exec_trichotomy (i : Instr) (s : State) :
    (∃ c, Raises s i c) ∨ (∃ u x, Performs s i u x) ∨ Stops s i := by
  cases i with
  | nop => exact .inr (.inl ⟨_, _, .nop⟩)
  | load len ws => exact load_trichotomy len ws s
  | markbad => exact .inr (.inl ⟨_, _, .markbad⟩)
  | rdb n => exact rdb_trichotomy n s
  | deq b => exact deq_trichotomy b s
  | ansi k =>
    by_cases hk : k.toNat ≤ 27
    · exact .inr (.inl ⟨_, _, .ansi hk⟩)
    · exact .inl ⟨_, .ansiIndex (Nat.not_le.1 hk)⟩
  | setdf df =>
    by_cases hdf : df = 0#24
    · subst hdf
      exact .inl ⟨_, .setdfZero⟩
    · exact .inr (.inl ⟨_, _, .setdf hdf⟩)
  | hyb k =>
    by_cases hk : Machine.hyb s.df.toNat k.toNat < 2 ^ 64
    · exact .inr (.inl ⟨_, _, .hyb hk⟩)
    · exact .inl ⟨_, .hybOverflow (Nat.not_lt.1 hk)⟩
  | dspec => exact decode_trichotomy (v := .spectrum) (.inl rfl)
  | dstat => exact decode_trichotomy (v := .statistics) (.inl rfl)
  | dpgram => exact decode_trichotomy (v := .pgram) (.inl rfl)
  | vsel ev tlen => exact .inr (.inl ⟨_, _, .vsel⟩)
  | dvar =>
    cases hvar : s.var with
    | none => exact .inl ⟨_, .dvarNone hvar⟩
    | some v => exact decode_trichotomy (.inr ⟨rfl, hvar⟩)
  | get r => exact get_trichotomy r s
  | getrec j k => exact getrec_trichotomy j k s
  | srst => exact .inr (.inl ⟨_, _, .srst⟩)

/-- The two ways a command completes, each with the state it leaves. -/
theorem exec_next (h : exec i s = .next t) :
    (∃ u x, Performs s i u x ∧ t = u.respond x) ∨ (∃ c, Raises s i c ∧ t = (s.beforeFault i).raise c) := by
  obtain ⟨c, hc⟩ | ⟨u, x, hu⟩ | hstop := exec_trichotomy i s
  · exact .inr ⟨c, hc, (fail_eq_next.1 (exec_of_raises hc ▸ h)).symm⟩
  · exact .inl ⟨u, x, hu, (finish_eq_next.1 (exec_of_performs hu ▸ h)).symm⟩
  · exact absurd h (exec_ne_next_of_stops hstop)

/-! ## What `OK` leaves unchanged -/

/-- The body of a decode writes the record and the registers of its last field alone (R132 to R134). -/
theorem decodeBody_frame (v : VariantKind) (bytes : List Byte) (s : State) : decodeBody v bytes s =
    { s with
      record := (decodeBody v bytes s).record
      cur := (decodeBody v bytes s).cur
      raw := (decodeBody v bytes s).raw
      spl := (decodeBody v bytes s).spl
      frq := (decodeBody v bytes s).frq } := by
  cases v with
  | spectrum | statistics => rfl
  | pgram =>
    simp only [decodeBody, pgramBody]
    split <;> rfl

@[simp] theorem decodeBody_cfg (v : VariantKind) (bytes : List Byte) (s : State) :
    (decodeBody v bytes s).cfg = s.cfg := by rw [decodeBody_frame]

@[simp] theorem decodeBody_buf (v : VariantKind) (bytes : List Byte) (s : State) :
    (decodeBody v bytes s).buf = s.buf := by rw [decodeBody_frame]

@[simp] theorem decodeBody_len (v : VariantKind) (bytes : List Byte) (s : State) :
    (decodeBody v bytes s).len = s.len := by rw [decodeBody_frame]

@[simp] theorem decodeBody_bst (v : VariantKind) (bytes : List Byte) (s : State) :
    (decodeBody v bytes s).bst = s.bst := by rw [decodeBody_frame]

@[simp] theorem decodeBody_df (v : VariantKind) (bytes : List Byte) (s : State) :
    (decodeBody v bytes s).df = s.df := by rw [decodeBody_frame]

@[simp] theorem decodeBody_dfu (v : VariantKind) (bytes : List Byte) (s : State) :
    (decodeBody v bytes s).dfu = s.dfu := by rw [decodeBody_frame]

@[simp] theorem decodeBody_var (v : VariantKind) (bytes : List Byte) (s : State) :
    (decodeBody v bytes s).var = s.var := by rw [decodeBody_frame]

@[simp] theorem decodeBody_flt (v : VariantKind) (bytes : List Byte) (s : State) :
    (decodeBody v bytes s).flt = s.flt := by rw [decodeBody_frame]

@[simp] theorem decodeBody_port (v : VariantKind) (bytes : List Byte) (s : State) :
    (decodeBody v bytes s).port = s.port := by rw [decodeBody_frame]

/-- No command writes the parameter or takes from the port or the responses (log entries 1 to 3). -/
theorem Performs.keeps_ports (h : Performs s i u x) : u.cfg = s.cfg ∧ u.port = s.port ∧ u.out = s.out := by
  cases h with
  | decode => exact ⟨decodeBody_cfg _ _ _, decodeBody_port _ _ _, decodeBody_out _ _ _⟩
  | _ => exact ⟨rfl, rfl, rfl⟩

/-- Only `SRST` writes `FLT` when it ends with `OK` (R21). -/
theorem Performs.flt_eq (h : Performs s i u x) (hi : i ≠ .srst) : u.flt = s.flt := by
  cases h with
  | decode => exact decodeBody_flt _ _ _
  | srst => exact absurd rfl hi
  | _ => rfl

end

/-! ## The obligations -/

/-- Settles O30: a buffer reported bad, for a read or a decode. -/
theorem malformedRaisedExactlyWhen : Obligations.MalformedRaisedExactlyWhen := by
  intro i s
  rw [endsWith_iff_raises, ← exists_decodesAs_iff]
  constructor
  · intro h
    cases h with
    | rdbBad hn hbst => exact ⟨hbst, .inl ⟨_, rfl, hn⟩⟩
    | decodeBad hi hbst => exact ⟨hbst, .inr ⟨_, hi⟩⟩
  · rintro ⟨hbst, ⟨n, rfl, hn⟩ | ⟨v, hi⟩⟩
    · exact .rdbBad hn hbst
    · exact .decodeBad hi hbst

/-- Settles O35: both completions add their response to those already given. -/
theorem eachCommandGivesOneResponse : Obligations.EachCommandGivesOneResponse := by
  refine ⟨?response, rfl, fun c => by cases c <;> rfl⟩
  case response =>
    intro i s t h
    cases exec_completes h with
    | @ok u x hout => exact ⟨⟨.ok, x⟩, by rw [State.respond_out, hout], nofun⟩
    | fault hc => exact ⟨_, by rw [State.raise_out, State.beforeFault_out], fun _ _ => rfl⟩

theorem setFault_keeps_set {flt : BitVec 8} {k : Nat} (h : flt.getLsbD k = true) (c : FaultCode) :
    (setFault flt c).getLsbD k = true := by
  rw [setFault, BitVec.getLsbD_or, h, Bool.true_or]

/-- A command other than `SRST` clears no bit of `FLT` (R21). -/
theorem exec_keeps_fault_bits {i : Instr} {s t : State} (hi : i ≠ .srst) (h : exec i s = .next t) {k : Nat}
    (hk : s.flt.getLsbD k = true) : t.flt.getLsbD k = true := by
  obtain ⟨u, x, hu, rfl⟩ | ⟨c, -, rfl⟩ := exec_next h
  · rwa [State.respond_flt, hu.flt_eq hi]
  · rw [State.raise_flt, State.beforeFault_flt]
    exact setFault_keeps_set hk c

/-- Settles O37, by what stands at the ports; the fetch writes the port alone. -/
theorem faultBitsAreSticky : Obligations.FaultBitsAreSticky := by
  intro s t h
  refine ⟨fun hsrst hreset k hk => ?sticky, ?cleared⟩
  case sticky =>
    unfold step at h
    obtain ⟨i, p, -, hf⟩ | ⟨p, hf⟩ | ⟨p, hf⟩ | hf := s.fetch_cases <;> rw [hf] at h
    · have hi : i ≠ .srst := by
        rintro rfl
        exact hsrst _ hf
      exact exec_keeps_fault_bits hi h hk
    · cases fail_eq_next.1 h
      exact setFault_keeps_set hk _
    · exact absurd hf (hreset _)
    · cases h
      exact hk
  case cleared =>
    unfold step at h
    rintro (⟨u, hf⟩ | ⟨u, hf⟩) <;> rw [hf] at h <;> cases h <;> rfl

end Sys2Proof.Machine
end

section
/-! # What the ports and the fault mask decide (10_state.md, R21 and R28)

Nothing: the causes of a fault and what a command does when it succeeds are the same over another port, other responses
and another mask, but that `GET 1` reads the mask. -/

namespace Sys2Proof.Machine

/-- The state with other events, other responses and another fault mask. -/
def State.withPorts (s : State) (p : List PortEvent) (o : List Response) (f : BitVec 8) : State :=
  { s with port := p, out := o, flt := f }

section
variable {s t u : State} {i : Instr} {x : BitVec 64} {c : FaultCode}
variable {p : List PortEvent} {o : List Response} {f : BitVec 8}

theorem readRegister_withPorts {r : BitVec 8} (hf : r = 1#8 → f = s.flt) :
    readRegister (s.withPorts p o f) r = readRegister s r := by
  by_cases hr : r = 1#8
  · rw [hf hr]
    rfl
  · have hr : r.toNat ≠ 1 := fun h => hr (BitVec.eq_of_toNat_eq h)
    unfold readRegister
    split
    case h_2 h => exact absurd h hr
    all_goals rfl

theorem decodeBody_withPorts (v : VariantKind) (bytes : List Byte) (s : State) :
    decodeBody v bytes (s.withPorts p o f) = (decodeBody v bytes s).withPorts p o f := by
  cases v with
  | spectrum | statistics => rfl
  | pgram =>
    show pgramBody bytes (s.withPorts p o f) = (pgramBody bytes s).withPorts p o f
    have hlen : (s.withPorts p o f).len = s.len := rfl
    cases hn : s.len.toNat <;> simp only [pgramBody, hlen, hn] <;> rfl

theorem Raises.withPorts (h : Raises s i c) : Raises (s.withPorts p o f) i c := by
  cases h with
  | loadPad hwf hpad => exact .loadPad hwf hpad
  | loadCapacity hwf hpad hlen => exact .loadCapacity hwf hpad hlen
  | rdbWidth hn => exact .rdbWidth hn
  | rdbNoPayload hn hbst => exact .rdbNoPayload hn hbst
  | rdbBad hn hbst => exact .rdbBad hn hbst
  | rdbPastEnd hn hbst hend => exact .rdbPastEnd hn hbst hend
  | deqWidth hb => exact .deqWidth hb
  | deqNoRaw hb hb' hraw => exact .deqNoRaw hb hb' hraw
  | deqRawTooWide hb hb' hraw hwide => exact .deqRawTooWide hb hb' hraw hwide
  | ansiIndex hk => exact .ansiIndex hk
  | setdfZero => exact .setdfZero
  | hybOverflow hk => exact .hybOverflow hk
  | @decodeNoPayload _ v hi hbst => exact .decodeNoPayload (v := v) hi hbst
  | @decodeBad _ v hi hbst => exact .decodeBad (v := v) hi hbst
  | @decodeShort _ v hi hbst hlen => exact .decodeShort (v := v) hi hbst hlen
  | decodeOverflow hi hbst hlen hhyb => exact .decodeOverflow hi hbst hlen hhyb
  | dvarNone hvar => exact .dvarNone hvar
  | getNoRegister hr =>
    rw [readRegister_eq_noRegister_iff] at hr
    exact .getNoRegister ((readRegister_eq_noRegister_iff _ _).2 hr)
  | getHoldsNothing hr =>
    rw [readRegister_eq_holdsNothing_iff] at hr
    exact .getHoldsNothing ((readRegister_eq_holdsNothing_iff _ _).2 hr)
  | getrecOutside hjk => exact .getrecOutside hjk

/-- What a command writes is the same; the mask it leaves is the one before, or, after `SRST`, zero. -/
theorem Performs.withPorts (hf : i = .get 1#8 → f = s.flt) (h : Performs s i u x) :
    ∃ f', Performs (s.withPorts p o f) i (u.withPorts p o f') x ∧ (f = s.flt → f' = u.flt) := by
  cases h with
  | nop => exact ⟨f, .nop, id⟩
  | load hwf hpad hlen => exact ⟨f, .load hwf hpad hlen, id⟩
  | markbad => exact ⟨f, .markbad, id⟩
  | rdb hn hbst hp hend => exact ⟨f, .rdb hn hbst hp hend, id⟩
  | deq hb hb' hraw hwide => exact ⟨f, .deq hb hb' hraw hwide, id⟩
  | ansi hk => exact ⟨f, .ansi hk, id⟩
  | setdf hdf => exact ⟨f, .setdf hdf, id⟩
  | hyb hk => exact ⟨f, .hyb hk, id⟩
  | @decode _ v bytes hi hbst hlen hov hp =>
    refine ⟨f, ?_, by rw [decodeBody_flt, State.prologue_flt]; exact id⟩
    have hbody := decodeBody_withPorts (p := p) (o := o) (f := f) v bytes s.prologue
    rw [← hbody]
    have hrecord : (decodeBody v bytes s.prologue).record =
        (decodeBody v bytes (s.prologue.withPorts p o f)).record := by rw [hbody]; rfl
    rw [hrecord]
    exact .decode (s := s.withPorts p o f) hi hbst hlen hov hp
  | vsel => exact ⟨f, .vsel, id⟩
  | get hread =>
    refine ⟨f, .get ?_, id⟩
    rw [readRegister_withPorts fun hr => hf (hr ▸ rfl), hread]
  | getrec hk hj hfield => exact ⟨f, .getrec hk hj hfield, id⟩
  | srst => exact ⟨0#8, .srst, fun _ => rfl⟩

theorem State.beforeFault_withPorts (i : Instr) (s : State) :
    (s.withPorts p o f).beforeFault i = (s.beforeFault i).withPorts p o f := by
  have hruns : runsPrologue i (s.withPorts p o f) = runsPrologue i s := by cases i <;> rfl
  unfold State.beforeFault
  rw [hruns]
  split <;> rfl

theorem State.beforeFault_port (i : Instr) (s : State) : (s.beforeFault i).port = s.port := by
  unfold State.beforeFault
  split <;> rfl

/-- A command over other ports and another mask: it answers the same, and but for the mask leaves the same registers. -/
theorem exec_withPorts (hf : i = .get 1#8 → f = s.flt) (h : exec i s = .next t) :
    ∃ r f', exec i (s.withPorts p o f) = .next (t.withPorts p (o ++ [r]) f') ∧ t.out = s.out ++ [r] ∧
      t.port = s.port ∧ (f = s.flt → f' = t.flt) := by
  obtain ⟨u, x, hu, rfl⟩ | ⟨c, hc, rfl⟩ := exec_next h
  · obtain ⟨f', hu', hflt⟩ := hu.withPorts (p := p) (o := o) hf
    obtain ⟨-, hport, hout⟩ := hu.keeps_ports
    exact ⟨⟨.ok, x⟩, f', exec_of_performs hu', by rw [State.respond_out, hout], hport, hflt⟩
  · refine ⟨⟨.fault c, 0#64⟩, setFault f c, ?_, by simp, State.beforeFault_port i s, ?_⟩
    · rw [exec_of_raises hc.withPorts, State.beforeFault_withPorts]
      rfl
    · rintro rfl
      rw [State.raise_flt, State.beforeFault_flt]

end

/-- Settles O38: `GET 1` keeps its mask in the first clause, and is left out in the second. -/
theorem faultMaskAndPortsDecideNothing : Obligations.FaultMaskAndPortsDecideNothing := by
  refine ⟨?ports, ?mask⟩
  case ports =>
    intro i s t p o h
    obtain ⟨r, f', h', hout, hport, hflt⟩ := exec_withPorts (p := p) (o := o) (f := s.flt) (fun _ => rfl) h
    obtain rfl := hflt rfl
    exact ⟨_, r, h', hout, rfl, hport, rfl, rfl⟩
  case mask =>
    intro i s t p o f hi h
    obtain ⟨r, f', h', hout, hport, -⟩ := exec_withPorts (p := p) (o := o) (f := f) (fun hget => absurd hget hi) h
    exact ⟨_, r, h', hout, rfl, hport, rfl, rfl⟩

end Sys2Proof.Machine
end

section
/-! # The law of the Dequantizer rises (41_dequantizer.md, R104)

`N` rises by 192000 from one sample to the next, and a hundredth is `10 * M`; up to 14 bits 192000 is at least `10 * M`, so
that no two samples share a level. -/

namespace Sys2Proof.Machine

section
variable {raw raw' b : Nat}

/-- The formula of R103 with its division by two carried out. -/
theorem deq_eq_ediv_half (raw b : Nat) :
    deq raw b = (exactNumerator raw b + 5 * fullScale b) / (10 * fullScale b) := by
  have twice_dividend : 2 * exactNumerator raw b + 10 * fullScale b = 2 * (exactNumerator raw b + 5 * fullScale b) := by
    ring
  have twice_divisor : 20 * fullScale b = 2 * (10 * fullScale b) := by ring
  rw [deq_eq_ediv, twice_dividend, twice_divisor, Int.mul_ediv_mul_of_pos _ _ two_pos]

theorem exactNumerator_sub (raw raw' b : Nat) :
    exactNumerator raw' b - exactNumerator raw b = 192000 * ((raw' : ℤ) - raw) := by
  rw [exactNumerator, exactNumerator]
  ring

theorem hundredth_pos (hb : 1 ≤ b) : 0 < 10 * fullScale b := mul_pos (by decide) (fullScale_pos hb)

theorem deq_mono (hb : 1 ≤ b) (h : raw ≤ raw') : deq raw b ≤ deq raw' b := by
  rw [deq_eq_ediv_half, deq_eq_ediv_half]
  have := exactNumerator_sub raw raw' b
  exact Int.ediv_le_ediv (hundredth_pos hb) (by omega)

theorem fullScale_le_of_le_fourteen (hb : b ≤ 14) : fullScale b ≤ 16383 :=
  Int.sub_le_sub_right (pow_le_pow_right₀ (by decide) hb) 1

/-- Up to 14 bits two samples are at least a hundredth apart. -/
theorem deq_strictMono (hb : 1 ≤ b) (hb' : b ≤ 14) (h : raw < raw') : deq raw b < deq raw' b := by
  have hscale := fullScale_le_of_le_fourteen hb'
  have hdiff := exactNumerator_sub raw raw' b
  have hpos := hundredth_pos hb
  rw [deq_eq_ediv_half, deq_eq_ediv_half]
  have hquotient := Int.ediv_mul_le (exactNumerator raw b + 5 * fullScale b) hpos.ne'
  refine Int.lt_of_add_one_le (Int.le_ediv_of_mul_le hpos ?_)
  rw [add_mul, one_mul]
  omega

/-- A level whose exact value in mdB is `k`, whatever the width. -/
theorem deq_eq_of_exactNumerator_eq {k : ℤ} (hb : 1 ≤ b) (h : exactNumerator raw b = k * fullScale b) :
    deq raw b = (k + 5) / 10 := by
  rw [deq_eq_ediv_half, h, ← add_mul, Int.mul_ediv_mul_of_pos_left _ _ (fullScale_pos hb)]

/-- The smallest sample is the document's -6.358 dB, rounded. -/
theorem deq_zero (hb : 1 ≤ b) : deq 0 b = -636 := by
  rw [deq_eq_of_exactNumerator_eq (k := -6358) hb (by rw [exactNumerator]; ring)]
  rfl

/-- The largest sample is 192 dB above it. -/
theorem deq_fullScale (hb : 1 ≤ b) : deq (2 ^ b - 1) b = 18564 := by
  have hcast : ((2 ^ b - 1 : ℕ) : ℤ) = fullScale b := by
    rw [Nat.cast_sub Nat.one_le_two_pow]
    simp [fullScale]
  rw [deq_eq_of_exactNumerator_eq (k := 185642) hb (by rw [exactNumerator, hcast]; ring)]
  rfl

end

/-- Settles O49: the two monotonicity laws, and the exact levels at the two ends. -/
theorem deqIsMonotonicBetweenBoundaries : Obligations.DeqIsMonotonicBetweenBoundaries :=
  ⟨fun _ _ _ hb h _ => deq_mono hb h.le, fun _ _ _ hb hb' h _ => deq_strictMono hb hb' h,
    fun _ hb => ⟨deq_zero hb, deq_fullScale hb⟩⟩

end Sys2Proof.Machine
end

section
/-! # The emitted sequence rises (42_band_tables.md, R121)

At a whole number of octaves the radicand is a 24th power. Between two neighbours of the logarithmic region the root
rises by at least 2, since it is at least 70 there and `(72 / 70) ^ 24 < 2`; halved and rounded, the entry rises. -/

namespace Sys2Proof.Machine

/-- A number of at least 70 raised by 2 stays within one step of the sequence. -/
theorem add_two_pow_le {m : Nat} (hm : 70 ≤ m) : (m + 2) ^ 24 ≤ m ^ 24 * 2 := by
  have ratio_lt_two : 72 ^ 24 ≤ 2 * 70 ^ 24 := by norm_num
  have scaled : 70 ^ 24 * (m + 2) ^ 24 ≤ 70 ^ 24 * (m ^ 24 * 2) :=
    calc 70 ^ 24 * (m + 2) ^ 24 = (70 * (m + 2)) ^ 24 := (mul_pow 70 (m + 2) 24).symm
      _ ≤ (72 * m) ^ 24 := Nat.pow_le_pow_left (by omega) 24
      _ = 72 ^ 24 * m ^ 24 := mul_pow 72 m 24
      _ ≤ 2 * 70 ^ 24 * m ^ 24 := Nat.mul_le_mul_right _ ratio_lt_two
      _ = 70 ^ 24 * (m ^ 24 * 2) := by rw [Nat.mul_comm 2, Nat.mul_assoc, Nat.mul_comm 2]
  exact le_of_mul_le_mul_left scaled (by positivity)

section
variable {df : Nat} (hdf : df < 2 ^ 24)
include hdf

theorem hybRoot_of_octaves (q : Nat) : hybRoot df (24 * q) = 2 * (35 * df) * 2 ^ q := by
  refine eq_of_forall_le_iff fun m => ?_
  rw [le_hybRoot_iff hdf, hybRadicand, Nat.mul_comm 24 q, pow_mul, ← mul_pow]
  exact Nat.pow_le_pow_iff_left (by decide)

theorem hyb_of_octaves (q : Nat) : hyb df (33 + 24 * q) = 35 * df * 2 ^ q := by
  rw [hyb_log_eq_hybRoot, hybRoot_of_octaves hdf, Nat.mul_assoc 2]
  omega

theorem hyb_first_log : hyb df 33 = 35 * df := by
  simpa using hyb_of_octaves hdf 0

theorem le_hybRoot (hpos : 1 ≤ df) (n : Nat) : 70 ≤ hybRoot df n := by
  rw [le_hybRoot_iff hdf]
  calc 70 ^ 24 ≤ (2 * (35 * df)) ^ 24 := Nat.pow_le_pow_left (by omega) 24
    _ ≤ hybRadicand df n := Nat.le_mul_of_pos_right _ (Nat.two_pow_pos n)

theorem hybRoot_add_two_le (hpos : 1 ≤ df) (n : Nat) : hybRoot df n + 2 ≤ hybRoot df (n + 1) := by
  rw [le_hybRoot_iff hdf]
  calc (hybRoot df n + 2) ^ 24 ≤ hybRoot df n ^ 24 * 2 := add_two_pow_le (le_hybRoot hdf hpos n)
    _ ≤ hybRadicand df n * 2 := Nat.mul_le_mul_right 2 ((le_hybRoot_iff hdf n _).1 le_rfl)
    _ = hybRadicand df (n + 1) := by rw [hybRadicand, hybRadicand, pow_succ 2 n, Nat.mul_assoc]

/-- Each entry is below the next: in the linear region by `DF`, at its end too, and in the logarithmic one by the root. -/
theorem hyb_lt_succ (hpos : 1 ≤ df) (k : Nat) : hyb df k < hyb df (k + 1) := by
  rcases Nat.lt_trichotomy k 32 with hlt | rfl | hgt
  · rw [hyb_linear df k hlt.le, hyb_linear df (k + 1) hlt, Nat.add_right_comm]
    exact Nat.mul_lt_mul_of_pos_right (Nat.lt_succ_self _) hpos
  · rw [hyb_linear df 32 le_rfl, hyb_first_log hdf]
    omega
  · obtain ⟨n, rfl⟩ := Nat.exists_eq_add_of_le (show 33 ≤ k from hgt)
    have := hybRoot_add_two_le hdf hpos n
    rw [hyb_log_eq_hybRoot, Nat.add_assoc, hyb_log_eq_hybRoot]
    omega

theorem hyb_strictMono (hpos : 1 ≤ df) : StrictMono (hyb df) := strictMono_nat_of_lt_succ (hyb_lt_succ hdf hpos)

end

/-- Settles O52: the linear entries, the octaves, and the rise from each entry to the next. -/
theorem hybSequenceRises : Obligations.HybSequenceRises := by
  intro df hdf
  exact ⟨hyb_linear df 0 (by decide), hyb_linear df 32 le_rfl, hyb_first_log hdf, hyb_of_octaves hdf,
    fun hpos _ _ h => hyb_strictMono hdf hpos h⟩

end Sys2Proof.Machine
end

section
/-! # The record decoders (43_record_decoders.md, R131 to R138)

Every decode that succeeds leaves the record of `decodedEntries`, `RECW` being that of its variant
(`decodeBody_record`). Which way a decode ends, and what it leaves in the record and the field registers, is a matter of
`BUF`, `LEN`, `BST` and `DF` (`State.SameLine`). -/

namespace Sys2Proof.Machine

/-! ## The record of a decode -/

/-- The levels of one entry, `RECW` (R132 to R134). -/
def decodedWidth : VariantKind → BitVec 3
  | .spectrum => 1#3
  | .statistics => 4#3
  | .pgram => 1#3

/-- The entries of a decode (R132 to R134). -/
def decodedEntries (v : VariantKind) (bytes : List Byte) (s : State) : List Entry :=
  match v with
  | .spectrum => (List.range 28).map (spectrumEntry bytes)
  | .statistics => (List.range 28).map (statisticsEntry bytes)
  | .pgram => (List.range s.len.toNat).map (pgramEntry s.df.toNat bytes)

theorem decodeBody_record (v : VariantKind) (bytes : List Byte) (s : State) : (decodeBody v bytes s).record =
    ⟨BitVec.ofNat 16 (decodedEntries v bytes s).length, decodedWidth v, decodedEntries v bytes s⟩ := by
  cases v with
  | spectrum | statistics => rfl
  | pgram =>
    simp only [decodeBody, pgramBody, decodedEntries]
    cases s.len.toNat <;> rfl

/-- The number of entries of a decode. -/
def decodedCount (v : VariantKind) (s : State) : BitVec 16 :=
  match v with
  | .spectrum => 28#16
  | .statistics => 28#16
  | .pgram => s.len

theorem decodedEntries_length (v : VariantKind) (bytes : List Byte) (s : State) :
    (decodedEntries v bytes s).length = (decodedCount v s).toNat := by
  cases v <;> simp [decodedEntries, decodedCount]

theorem decodeBody_recn (v : VariantKind) (bytes : List Byte) (s : State) :
    (decodeBody v bytes s).record.recn = decodedCount v s := by
  rw [decodeBody_record, decodedEntries_length, BitVec.ofNat_toNat, BitVec.setWidth_eq]

theorem decodedEntries_levels (v : VariantKind) (bytes : List Byte) (s : State) :
    ∀ e ∈ decodedEntries v bytes s, e.v.length = (decodedWidth v).toNat := by
  cases v <;> simp [decodedEntries, decodedWidth, spectrumEntry, statisticsEntry, pgramEntry]

theorem statisticsEntry_eq (bytes : List Byte) (k : Nat) : statisticsEntry bytes k =
    ⟨BitVec.ofNat 64 (ansiFreq k),
      [level (bytes.getD (4 * k) 0#8).toNat 8, level (bytes.getD (4 * k + 1) 0#8).toNat 8,
       level (bytes.getD (4 * k + 2) 0#8).toNat 8, level (bytes.getD (4 * k + 3) 0#8).toNat 8]⟩ := by
  have hbyte (j : Nat) : memRead bytes (32 * k + 8 * j) 8 = (bytes.getD (4 * k + j) 0#8).toNat := by
    rw [← memRead_byte]
    congr 1
    omega
  simp only [statisticsEntry, hbyte]
  rfl

theorem pgramEntry_eq (df : Nat) (bytes : List Byte) (k : Nat) :
    pgramEntry df bytes k = ⟨BitVec.ofNat 64 (hyb df k), [level (bytes.getD k 0#8).toNat 8]⟩ := by
  rw [pgramEntry, memRead_byte]

theorem getElem?_map_range {α : Type} (f : Nat → α) {k n : Nat} (hk : k < n) :
    ((List.range n).map f)[k]? = some (f k) := by
  rw [List.getElem?_map, List.getElem?_range hk, Option.map_some]

/-! ## The registers after the last field -/

theorem pgramBody_of_empty {s : State} (bytes : List Byte) (h : s.len.toNat = 0) :
    pgramBody bytes s = s.storeRecord 1#3 [] := by
  simp only [pgramBody, h]

theorem pgramBody_of_pos {s : State} {n : Nat} (bytes : List Byte) (h : s.len.toNat = n + 1) : pgramBody bytes s =
    (s.storeRecord 1#3 (decodedEntries .pgram bytes s)).afterField (8 * (n + 1)) (bytes.getD n 0#8).toNat 8
      (hyb s.df.toNat n) := by
  simp only [pgramBody, h, decodedEntries, memRead_byte]

/-- The last byte of a payload that is not empty. -/
theorem getLast?_eq_getD {bytes : List Byte} {n : Nat} (h : bytes.length = n + 1) :
    bytes.getLast? = some (bytes.getD n 0#8) := by
  have hn : n < bytes.length := by omega
  rw [List.getLast?_eq_getElem?, h, Nat.add_sub_cancel, List.getD_eq_getElem _ _ hn, List.getElem?_eq_getElem hn]

/-- The registers after a Pgram decode, empty with an empty payload (R134). -/
theorem pgramBody_registers {s : State} {bytes : List Byte} (hcount : bytes.length = s.len.toNat) :
    decodeBody .pgram bytes s.prologue =
      { s with
        record := (decodeBody .pgram bytes s.prologue).record
        cur := BitVec.ofNat 20 (8 * s.len.toNat)
        raw := bytes.getLast?.map fun b => BitVec.ofNat 32 b.toNat
        spl := bytes.getLast?.map fun b => BitVec.ofInt 16 (deq b.toNat 8)
        frq := if s.len.toNat = 0 then none else some (BitVec.ofNat 64 (hyb s.df.toNat (s.len.toNat - 1))) } := by
  simp only [decodeBody]
  cases hn : s.len.toNat with
  | zero =>
    rw [pgramBody_of_empty (s := s.prologue) bytes hn, List.eq_nil_of_length_eq_zero (hcount.trans hn)]
    rfl
  | succ n =>
    rw [pgramBody_of_pos (s := s.prologue) bytes hn, getLast?_eq_getD (hcount.trans hn)]
    rfl

/-- Settles O20: the body of the decode, field by field. -/
theorem dspecDecodesSpectrum : Obligations.DspecDecodesSpectrum := by
  intro s i bytes hi hbst hp hlen
  have hbits : 336 ≤ 8 * s.len.toNat := by omega
  refine ⟨_, exec_of_decodesAs_payload (v := .spectrum) hi hbst hbits (decodeOverflows_of_ne_pgram nofun) hp, rfl, rfl,
    rfl, decodedEntries_length .spectrum bytes s, ?entries⟩
  case entries =>
    intro k hk
    exact getElem?_map_range (spectrumEntry bytes) hk

/-- Settles O21: the body of the decode, field by field; each field is a byte. -/
theorem dstatDecodesStatistics : Obligations.DstatDecodesStatistics := by
  intro s i bytes hi hbst hp hlen
  have hbits : 896 ≤ 8 * s.len.toNat := by omega
  have hlast : memRead bytes 888 8 = (bytes.getD 111 0#8).toNat := memRead_byte bytes 111
  refine ⟨_, exec_of_decodesAs_payload (v := .statistics) hi hbst hbits (decodeOverflows_of_ne_pgram nofun) hp,
    ?registers, rfl, rfl, decodedEntries_length .statistics bytes s, ?entries⟩
  case registers =>
    rw [← hlast]
    rfl
  case entries =>
    intro k hk
    exact (getElem?_map_range (statisticsEntry bytes) hk).trans (congrArg some (statisticsEntry_eq bytes k))

/-- Settles O22: the body of the decode, for an empty payload and for one with a last byte. -/
theorem dpgramDecodesPgram : Obligations.DpgramDecodesPgram := by
  intro s i bytes hi hbst hp hfits
  refine ⟨_, exec_of_decodesAs_payload (v := .pgram) hi hbst (Nat.zero_le _) (decodeOverflows_pgram_eq_false hfits) hp,
    ?registers, decodeBody_recn .pgram bytes s.prologue, ?width, ?count, ?entries⟩
  case registers =>
    rw [decodeBody_recn, BitVec.ofNat_toNat]
    exact congrArg (fun u => u.respond (zext64 s.len)) (pgramBody_registers (State.payload_length hp))
  case width =>
    show (decodeBody .pgram bytes s.prologue).record.recw = _
    rw [decodeBody_record]
    rfl
  case count =>
    show (decodeBody .pgram bytes s.prologue).record.entries.length = _
    rw [decodeBody_record]
    exact decodedEntries_length .pgram bytes s.prologue
  case entries =>
    intro k hk
    show (decodeBody .pgram bytes s.prologue).record.entries[k]? = _
    rw [decodeBody_record]
    exact (getElem?_map_range (pgramEntry s.df.toNat bytes) hk).trans (congrArg some (pgramEntry_eq s.df.toNat bytes k))

end Sys2Proof.Machine
end

section
/-! # What a record decode depends on (43_record_decoders.md, R135, R136, R138)

How a decode ends, and what it leaves in the record and the field registers, depends on `BUF`, `LEN`, `BST` and `DF`
(`State.SameLine`), none of which a decode writes; so a second decode of the same line does what the first did. -/

namespace Sys2Proof.Machine

/-! ## The inputs of a decode -/

/-- The two states hold the same line: its payload, the buffer status and `DF`. -/
structure State.SameLine (s s' : State) : Prop where
  buf : s'.buf = s.buf
  len : s'.len = s.len
  bst : s'.bst = s.bst
  df : s'.df = s.df

/-- The two states agree in the record and the field registers, all that a decode writes but `FLT`. -/
structure State.SameFields (t t' : State) : Prop where
  record : t'.record = t.record
  cur : t'.cur = t.cur
  raw : t'.raw = t.raw
  spl : t'.spl = t.spl
  frq : t'.frq = t.frq

section
variable {s s' t : State} {i : Instr} {v v' : VariantKind}

theorem State.SameLine.payload (h : s.SameLine s') : s'.payload = s.payload := by
  rw [State.payload, State.payload, h.buf, h.len]

theorem State.SameLine.decodeOverflows (h : s.SameLine s') : decodeOverflows v s' = decodeOverflows v s := by
  simp only [Machine.decodeOverflows, pgramOverflows, h.len, h.df]

theorem State.SameLine.decodeBody (h : s.SameLine s') (bytes : List Byte) :
    (decodeBody v bytes s.prologue).SameFields (decodeBody v bytes s'.prologue) := by
  cases v with
  | spectrum | statistics => exact ⟨rfl, rfl, rfl, rfl, rfl⟩
  | pgram =>
    simp only [Machine.decodeBody, pgramBody, State.prologue_len, State.prologue_df, h.len, h.df]
    cases s.len.toNat <;> exact ⟨rfl, rfl, rfl, rfl, rfl⟩

/-- The first clause of R138: over the same line a decode leaves the same and answers the same. -/
theorem decodePayload_sameLine (hline : s.SameLine s') (h : decodePayload v s = .next t) :
    ∃ t' r, decodePayload v s' = .next t' ∧ t.SameFields t' ∧ t.out = s.out ++ [r] ∧ t'.out = s'.out ++ [r] := by
  have faulted {c : FaultCode} (h' : decodePayload v s' = fail s'.prologue c) :
      ∃ t' r, decodePayload v s' = .next t' ∧ (s.prologue.raise c).SameFields t' ∧
        (s.prologue.raise c).out = s.out ++ [r] ∧ t'.out = s'.out ++ [r] :=
    ⟨_, _, h', ⟨rfl, rfl, rfl, rfl, rfl⟩, rfl, rfl⟩
  obtain ⟨hb, rfl⟩ | ⟨hb, rfl⟩ | ⟨hb, hlen, rfl⟩ | ⟨hb, hlen, hov, rfl⟩ | ⟨hb, hlen, hov, bytes, hp, rfl⟩ :=
    macroDecode_next h <;> rw [← hline.bst] at hb
  · exact faulted (macroDecode_of_noPayload hb)
  · exact faulted (macroDecode_of_bad hb)
  · exact faulted (macroDecode_of_short hb (hline.len.symm ▸ hlen))
  · rw [← hline.decodeOverflows] at hov
    refine faulted ?_
    rw [decodePayload, hov, macroDecode_of_overflow hb (hline.len.symm ▸ hlen)]
  · rw [← hline.decodeOverflows] at hov
    rw [← hline.payload] at hp
    obtain ⟨hrecord, hcur, hraw, hspl, hfrq⟩ := hline.decodeBody (v := v) bytes
    have hexec : decodePayload v s' =
        finish (decodeBody v bytes s'.prologue) (zext64 (decodeBody v bytes s'.prologue).record.recn) := by
      rw [decodePayload, hov, macroDecode_of_payload hb (hline.len.symm ▸ hlen) hp]
    refine ⟨_, ⟨.ok, zext64 (decodeBody v bytes s.prologue).record.recn⟩, hexec, ⟨hrecord, hcur, hraw, hspl, hfrq⟩,
      ?_, ?_⟩
    · rw [State.respond_out, decodeBody_out, State.prologue_out]
    · rw [State.respond_out, decodeBody_out, State.prologue_out, hrecord]

/-- A decode does not write what it depends on, nor `VAR`. -/
theorem decodePayload_keeps_line (h : decodePayload v s = .next t) : s.SameLine t ∧ t.var = s.var := by
  obtain ⟨-, rfl⟩ | ⟨-, rfl⟩ | ⟨-, -, rfl⟩ | ⟨-, -, -, rfl⟩ | ⟨-, -, -, bytes, -, rfl⟩ := macroDecode_next h
  case inr.inr.inr.inr =>
    exact ⟨⟨decodeBody_buf _ _ _, decodeBody_len _ _ _, decodeBody_bst _ _ _, decodeBody_df _ _ _⟩, decodeBody_var _ _ _⟩
  all_goals exact ⟨⟨rfl, rfl, rfl, rfl⟩, rfl⟩

/-! ## The command -/

theorem DecodesAs.of_var_eq (h : DecodesAs i s v) (hvar : s'.var = s.var) : DecodesAs i s' v := by
  obtain rfl | ⟨rfl, hv⟩ := h
  · exact .inl rfl
  · exact .inr ⟨rfl, hvar.trans hv⟩

theorem DecodesAs.unique (h : DecodesAs i s v) (h' : DecodesAs i s v') : v' = v := by
  obtain rfl | ⟨rfl, hv⟩ := h
  · cases v <;> cases v' <;> simp [DecodesAs, decoderCommand] at h' ⊢
  · obtain h' | ⟨-, hv'⟩ := h'
    · cases v' <;> cases h'
    · exact Option.some.inj (hv'.symm.trans hv)

theorem exists_decodesAs_of_runsPrologue (h : runsPrologue i s = true) : ∃ v, DecodesAs i s v := by
  cases i with
  | dspec => exact ⟨.spectrum, .inl rfl⟩
  | dstat => exact ⟨.statistics, .inl rfl⟩
  | dpgram => exact ⟨.pgram, .inl rfl⟩
  | dvar =>
    obtain ⟨v, hv⟩ := Option.isSome_iff_exists.1 h
    exact ⟨v, .inr ⟨rfl, hv⟩⟩
  | _ => cases h

theorem exec_dvar_of_none (h : s.var = none) : exec .dvar s = fail s .empty := by
  rw [exec_of_raises (.dvarNone h), State.beforeFault_dvar_of_none h]

/-- A second decode of the same line does what the first did. -/
theorem exec_decodesAs_twice (hi : DecodesAs i s v) (h : exec i s = .next t) :
    ∃ u r, exec i t = .next u ∧ t.SameFields u ∧ t.out = s.out ++ [r] ∧ u.out = t.out ++ [r] := by
  rw [exec_of_decodesAs hi] at h
  obtain ⟨hline, hvar⟩ := decodePayload_keeps_line h
  obtain ⟨u, r, hu, hfields⟩ := decodePayload_sameLine hline h
  exact ⟨u, r, by rw [exec_of_decodesAs (hi.of_var_eq hvar), hu], hfields⟩

/-! ## The bytes a layout covers -/

section
variable {bytes bytes' : List Byte} {n : Nat}

theorem getD_eq_of_take_eq (h : bytes.take n = bytes'.take n) {k : Nat} (hk : k < n) :
    bytes.getD k 0#8 = bytes'.getD k 0#8 := by
  rw [List.getD_eq_getElem?_getD, List.getD_eq_getElem?_getD, ← List.getElem?_take_of_lt hk, h,
    List.getElem?_take_of_lt hk]

/-- A field inside the first `n` bytes depends on them alone. -/
theorem memRead_eq_of_take_eq (h : bytes.take n = bytes'.take n) {p m : Nat} (hend : p + m ≤ 8 * n) :
    memRead bytes p m = memRead bytes' p m :=
  memRead_congr fun j hj => bitAt_congr (getD_eq_of_take_eq h (by omega))

/-- The entries of a layout of `n` bytes depend on its bytes alone. -/
theorem decodedEntries_eq_of_take_eq (hv : v ≠ .pgram) (hn : layoutBits v = 8 * n) (h : bytes.take n = bytes'.take n)
    (s s' : State) : decodedEntries v bytes s = decodedEntries v bytes' s' := by
  cases v with
  | spectrum =>
    refine List.map_congr_left fun k hk => ?_
    have hend : 12 * k + 12 ≤ 336 := by have := List.mem_range.1 hk; omega
    rw [spectrumEntry, spectrumEntry, memRead_eq_of_take_eq h (hn ▸ hend)]
  | statistics =>
    refine List.map_congr_left fun k hk => ?_
    refine congrArg (Entry.mk _) (List.map_congr_left fun j hj => ?_)
    have hend : 32 * k + 8 * j + 8 ≤ 896 := by
      have := List.mem_range.1 hk
      have := List.mem_range.1 hj
      omega
    rw [memRead_eq_of_take_eq h (hn ▸ hend)]
  | pgram => exact absurd rfl hv

theorem decodeBody_cur (hv : v ≠ .pgram) (bytes : List Byte) (s : State) :
    (decodeBody v bytes s).cur.toNat = layoutBits v := by
  cases v with
  | spectrum | statistics => rfl
  | pgram => exact absurd rfl hv

/-- R136: a longer payload gives the record of the bytes of its layout. -/
theorem decode_ignores_excess (hv : v ≠ .pgram) (hn : layoutBits v = 8 * n) (hi : DecodesAs i s v)
    (hi' : DecodesAs i s' v) (hbst : s.bst = .valid) (hbst' : s'.bst = .valid) (hp : s.payload = some bytes)
    (hp' : s'.payload = some bytes') (hlen : n ≤ s.len.toNat) (hlen' : n ≤ s'.len.toNat)
    (htake : bytes.take n = bytes'.take n) :
    ∃ t t', exec i s = .next t ∧ exec i s' = .next t' ∧ t.record = t'.record ∧ t.cur.toNat = 8 * n ∧
      t'.cur.toNat = 8 * n := by
  refine ⟨_, _, exec_of_decodesAs_payload hi hbst (by omega) (decodeOverflows_of_ne_pgram hv) hp,
    exec_of_decodesAs_payload hi' hbst' (by omega) (decodeOverflows_of_ne_pgram hv) hp', ?_,
    (decodeBody_cur hv _ _).trans hn, (decodeBody_cur hv _ _).trans hn⟩
  rw [State.respond_record, State.respond_record, decodeBody_record, decodeBody_record,
    decodedEntries_eq_of_take_eq hv hn htake s.prologue s'.prologue]

end

end

/-! ## The obligations -/

/-- Settles O39: a decode depends on its line, it does not write it, and it reads no byte beyond its layout. -/
theorem macroDecodeDependsOnPayloadAndDf : Obligations.MacroDecodeDependsOnPayloadAndDf := by
  refine ⟨?line, ?noVariant, ?twice, ?excess⟩
  case line =>
    intro i s s' t hi hbuf hlen hbst hdf h
    obtain ⟨v, hv, hv'⟩ : ∃ v, DecodesAs i s v ∧ DecodesAs i s' v := by
      obtain rfl | rfl | rfl | ⟨rfl, hvar, hvar'⟩ := hi
      · exact ⟨.spectrum, .inl rfl, .inl rfl⟩
      · exact ⟨.statistics, .inl rfl, .inl rfl⟩
      · exact ⟨.pgram, .inl rfl, .inl rfl⟩
      · obtain ⟨v, hv⟩ := Option.ne_none_iff_exists'.1 hvar
        exact ⟨v, .inr ⟨rfl, hv⟩, .inr ⟨rfl, hvar'.trans hv⟩⟩
    rw [exec_of_decodesAs hv] at h
    obtain ⟨t', r, h', ⟨hrecord, hcur, hraw, hspl, hfrq⟩, hout, hout'⟩ :=
      decodePayload_sameLine ⟨hbuf, hlen, hbst, hdf⟩ h
    exact ⟨t', r, by rw [exec_of_decodesAs hv', h'], hrecord, hcur, hraw, hspl, hfrq, hout, hout'⟩
  case noVariant =>
    intro s s' t hvar hvar' h
    rw [exec_dvar_of_none hvar, fail_eq_next] at h
    subst h
    exact ⟨_, _, exec_dvar_of_none hvar', rfl, rfl, rfl⟩
  case twice =>
    intro i s t hi h
    obtain ⟨v, hv⟩ | ⟨rfl, hvar⟩ : (∃ v, DecodesAs i s v) ∨ i = .dvar ∧ s.var = none := by
      rw [exists_decodesAs_iff]
      tauto
    · obtain ⟨u, r, hu, hfields, hout, hout'⟩ := exec_decodesAs_twice hv h
      exact ⟨u, r, hu, hfields.record, hout, hout'⟩
    · rw [exec_dvar_of_none hvar, fail_eq_next] at h
      subst h
      exact ⟨_, _, exec_dvar_of_none hvar, rfl, rfl, rfl⟩
  case excess =>
    rintro i n s s' bytes bytes' (⟨hi, rfl⟩ | ⟨hi, rfl⟩) hbst hbst' hp hp' hlen hlen' htake
    · exact decode_ignores_excess (v := .spectrum) nofun rfl (hi.imp_right fun h => ⟨h.1, h.2.1⟩)
        (hi.imp_right fun h => ⟨h.1, h.2.2⟩) hbst hbst' hp hp' hlen hlen' htake
    · exact decode_ignores_excess (v := .statistics) nofun rfl (hi.imp_right fun h => ⟨h.1, h.2.1⟩)
        (hi.imp_right fun h => ⟨h.1, h.2.2⟩) hbst hbst' hp hp' hlen hlen' htake

/-- Settles O40: the five ways a decode ends. -/
theorem macroDecodeIsAllOrNothing : Obligations.MacroDecodeIsAllOrNothing := by
  intro i s t hruns h
  obtain ⟨v, hv⟩ := exists_decodesAs_of_runsPrologue hruns
  rw [exec_of_decodesAs hv] at h
  obtain ⟨-, rfl⟩ | ⟨-, rfl⟩ | ⟨-, -, rfl⟩ | ⟨-, -, -, rfl⟩ | ⟨-, -, -, bytes, -, rfl⟩ := macroDecode_next h
  case inr.inr.inr.inr =>
    have hrecn := decodeBody_recn v bytes s.prologue
    have hentries := decodedEntries_length v bytes s.prologue
    rw [← hrecn] at hentries
    have shape {v' : VariantKind} (hv' : DecodesAs i s v') :
        (decodeBody v bytes s.prologue).record.recn = decodedCount v' s.prologue ∧
          (decodeBody v bytes s.prologue).record.recw = decodedWidth v' := by
      rw [hv.unique hv', hrecn, decodeBody_record]
      exact ⟨rfl, rfl⟩
    refine .inl ⟨?_, ?_, ?_, fun h => shape (v' := .spectrum) h, fun h => shape (v' := .statistics) h,
      fun h => shape (v' := .pgram) h⟩
    · rw [State.respond_out, decodeBody_out]
      rfl
    · rw [State.respond_record, ← hentries, decodeBody_record]
    · rw [State.respond_record, decodeBody_record]
      exact decodedEntries_levels v bytes s.prologue
  all_goals exact .inr ⟨_, rfl, rfl, rfl, rfl, rfl, rfl⟩

end Sys2Proof.Machine
end

section
/-! # Reads one after the other (40_bit_reader.md, R86)

A read that answers `OK` had its bits, and its answer is the field (`rdb_of_ok`); with `exec_rdb_of_fits`, its converse, the
two laws of R86 become laws of `memRead`. -/

namespace Sys2Proof.Machine

/-! ## Commands one after the other -/

theorem execAll_cons_of_next {i : Instr} {is : List Instr} {s t : State} (h : exec i s = .next t) :
    execAll (i :: is) s = execAll is t := by
  simp only [execAll, h]

theorem execAll_append_of_next {is js : List Instr} {s t : State} (h : execAll is s = .next t) :
    execAll (is ++ js) s = execAll js t := by
  induction is generalizing s with
  | nil =>
    cases h
    rfl
  | cons i is ih =>
    cases hi : exec i s with
    | next u =>
      rw [execAll_cons_of_next hi] at h
      rw [List.cons_append, execAll_cons_of_next hi, ih h]
    | fault r => simp [execAll, hi] at h
    | refused r => simp [execAll, hi] at h

theorem ofNat_injOn {n x y : Nat} (hx : x < 2 ^ n) (hy : y < 2 ^ n) (h : BitVec.ofNat n x = BitVec.ofNat n y) :
    x = y := by
  have htoNat := congrArg BitVec.toNat h
  rwa [BitVec.toNat_ofNat, BitVec.toNat_ofNat, Nat.mod_eq_of_lt hx, Nat.mod_eq_of_lt hy] at htoNat

/-! ## One read -/

/-- The state after a read of `n` bits that were there (R85). -/
def State.afterRead (s : State) (bytes : List Byte) (n : Nat) : State :=
  State.respond
    { s with
      raw := some (BitVec.ofNat 32 (memRead bytes s.cur.toNat n))
      cur := BitVec.ofNat 20 (s.cur.toNat + n) }
    (BitVec.ofNat 64 (memRead bytes s.cur.toNat n))

/-- The read finds its bits in the payload `bytes`. -/
structure State.HasBits (s : State) (bytes : List Byte) (n : Nat) : Prop where
  width : n ≤ 32
  valid : s.bst = .valid
  payload : s.payload = some bytes
  inside : s.cur.toNat + n ≤ 8 * s.len.toNat

section
variable {s t : State} {bytes : List Byte} {n : BitVec 8}

theorem exec_rdb (h : s.HasBits bytes n.toNat) : exec (.rdb n) s = .next (s.afterRead bytes n.toNat) :=
  exec_rdb_of_fits h.width h.valid h.payload h.inside

theorem State.HasBits.cur_afterRead {n : Nat} (h : s.HasBits bytes n) :
    (s.afterRead bytes n).cur.toNat = s.cur.toNat + n :=
  cursor_toNat h.inside

/-- A read that answers `OK` had its bits. -/
theorem rdb_of_ok {x : BitVec 64} (h : exec (.rdb n) s = .next t) (hout : t.out = s.out ++ [⟨.ok, x⟩]) :
    ∃ bytes, s.HasBits bytes n.toNat ∧ t = s.afterRead bytes n.toNat ∧
      x = BitVec.ofNat 64 (memRead bytes s.cur.toNat n.toNat) := by
  obtain ⟨-, rfl⟩ | ⟨-, -, rfl⟩ | ⟨-, -, rfl⟩ | ⟨-, -, -, rfl⟩ | ⟨hn, hb, hend, bytes, hp, rfl⟩ := execRdb_next h
  case inr.inr.inr.inr =>
    refine ⟨bytes, ⟨hn, hb, hp, hend⟩, rfl, ?_⟩
    simpa [eq_comm] using hout
  all_goals simp at hout

theorem memRead_lt_two_pow_64 (h : s.HasBits bytes n.toNat) (p : Nat) : memRead bytes p n.toNat < 2 ^ 64 :=
  (memRead_lt bytes p _).trans (Nat.pow_lt_pow_right (by decide) (by have := h.width; omega))

/-- The response of a read determines its field. -/
theorem rdb_of_ok_ofNat {x : Nat} (hx : x < 2 ^ n.toNat) (h : exec (.rdb n) s = .next t)
    (hout : t.out = s.out ++ [⟨.ok, BitVec.ofNat 64 x⟩]) :
    ∃ bytes, s.HasBits bytes n.toNat ∧ t = s.afterRead bytes n.toNat ∧ x = memRead bytes s.cur.toNat n.toNat := by
  obtain ⟨bytes, hbits, ht, hdata⟩ := rdb_of_ok h hout
  have hx64 : x < 2 ^ 64 := hx.trans (Nat.pow_lt_pow_right (by decide) (by have := hbits.width; omega))
  exact ⟨bytes, hbits, ht, ofNat_injOn hx64 (memRead_lt_two_pow_64 hbits _) hdata⟩

end

/-! ## The laws -/

/-- A number is its high and its low part in one way. -/
theorem high_low_unique {x x' y y' m : Nat} (hy : y < m) (hy' : y' < m) (h : x * m + y = x' * m + y') :
    x = x' ∧ y = y' := by
  have hpos : 0 < m := Nat.zero_lt_of_lt hy
  have hdivMod := (Nat.div_mod_unique hpos).2 ⟨show y + m * x = x * m + y by ring, hy⟩
  have hdivMod' := (Nat.div_mod_unique hpos).2 ⟨show y' + m * x' = x' * m + y' by ring, hy'⟩
  rw [h] at hdivMod
  exact ⟨hdivMod.1.symm.trans hdivMod'.1, hdivMod.2.symm.trans hdivMod'.2⟩

/-- Two reads that answer `x` and `y` have found the bits of one wider read. -/
theorem reads_join {s t u : State} {a b : BitVec 8} {x y : Nat} (hab : a.toNat + b.toNat ≤ 32) (hx : x < 2 ^ a.toNat)
    (hy : y < 2 ^ b.toNat) (ht : exec (.rdb a) s = .next t) (hu : exec (.rdb b) t = .next u)
    (hout : u.out = s.out ++ [⟨.ok, BitVec.ofNat 64 x⟩, ⟨.ok, BitVec.ofNat 64 y⟩]) :
    ∃ v, exec (.rdb (a + b)) s = .next v ∧ v.out = s.out ++ [⟨.ok, BitVec.ofNat 64 (x * 2 ^ b.toNat + y)⟩] := by
  have hsum : (a + b).toNat = a.toNat + b.toNat := by rw [BitVec.toNat_add]; omega
  obtain ⟨r, hr, -⟩ := eachCommandGivesOneResponse.1 _ _ _ ht
  obtain ⟨r', hr', -⟩ := eachCommandGivesOneResponse.1 _ _ _ hu
  obtain ⟨rfl, rfl⟩ : r = ⟨.ok, BitVec.ofNat 64 x⟩ ∧ r' = ⟨.ok, BitVec.ofNat 64 y⟩ := by
    simpa [hr', hr] using hout
  obtain ⟨bytes, hbits, rfl, rfl⟩ := rdb_of_ok_ofNat hx ht hr
  obtain ⟨bytes', hbits', -, rfl⟩ := rdb_of_ok_ofNat hy hu hr'
  have hbytes : bytes' = bytes := Option.some.inj (hbits'.payload.symm.trans hbits.payload)
  have hend := hbits'.inside
  rw [hbits.cur_afterRead] at hend
  have hwide : s.HasBits bytes (a + b).toNat :=
    ⟨hsum ▸ hab, hbits.valid, hbits.payload, by rw [hsum, ← Nat.add_assoc]; exact hend⟩
  refine ⟨_, exec_rdb hwide, ?_⟩
  rw [hbits.cur_afterRead, hbytes, ← memRead_add, ← hsum]
  rfl

/-- The bits of one read, read in two. -/
theorem read_splits {s v : State} {a b : BitVec 8} {x y : Nat} (hab : a.toNat + b.toNat ≤ 32) (hx : x < 2 ^ a.toNat)
    (hy : y < 2 ^ b.toNat) (hv : exec (.rdb (a + b)) s = .next v)
    (hout : v.out = s.out ++ [⟨.ok, BitVec.ofNat 64 (x * 2 ^ b.toNat + y)⟩]) :
    ∃ t u, exec (.rdb a) s = .next t ∧ exec (.rdb b) t = .next u ∧
      u.out = s.out ++ [⟨.ok, BitVec.ofNat 64 x⟩, ⟨.ok, BitVec.ofNat 64 y⟩] := by
  have hsum : (a + b).toNat = a.toNat + b.toNat := by rw [BitVec.toNat_add]; omega
  have hxy : x * 2 ^ b.toNat + y < 2 ^ (a + b).toNat :=
    calc x * 2 ^ b.toNat + y < (x + 1) * 2 ^ b.toNat := by rw [Nat.succ_mul]; omega
      _ ≤ 2 ^ a.toNat * 2 ^ b.toNat := Nat.mul_le_mul_right _ hx
      _ = 2 ^ (a + b).toNat := by rw [hsum, Nat.pow_add]
  obtain ⟨bytes, hbits, rfl, hfield⟩ := rdb_of_ok_ofNat hxy hv hout
  have hend := hbits.inside
  rw [hsum] at hend
  have hfirst : s.HasBits bytes a.toNat := ⟨by omega, hbits.valid, hbits.payload, by omega⟩
  have hsecond : (s.afterRead bytes a.toNat).HasBits bytes b.toNat :=
    ⟨by omega, hbits.valid, hbits.payload, by rw [hfirst.cur_afterRead, Nat.add_assoc]; exact hend⟩
  rw [hsum, memRead_add] at hfield
  obtain ⟨rfl, rfl⟩ := high_low_unique hy (memRead_lt bytes (s.cur.toNat + a.toNat) b.toNat) hfield
  refine ⟨_, _, exec_rdb hfirst, exec_rdb hsecond, ?_⟩
  simp [State.afterRead, cursor_toNat hfirst.inside]

/-- Settles O44: the two directions are `reads_join` and `read_splits`. -/
theorem consecutiveReadsJoin : Obligations.ConsecutiveReadsJoin := by
  intro s a b x y hab hx hy
  constructor
  · rintro ⟨t, u, ht, hu, hout⟩
    exact reads_join hab hx hy ht hu hout
  · rintro ⟨v, hv, hout⟩
    exact read_splits hab hx hy hv hout

/-- Reads from any cursor on (R86, law 1). -/
theorem execAll_rdb {s : State} {bytes : List Byte} (ns : List (BitVec 8)) (hbst : s.bst = .valid)
    (hp : s.payload = some bytes) (hns : ∀ n ∈ ns, n.toNat ≤ 32)
    (hend : s.cur.toNat + (ns.map BitVec.toNat).sum ≤ 8 * s.len.toNat) :
    ∃ t, execAll (ns.map .rdb) s = .next t ∧ t.cur.toNat = s.cur.toNat + (ns.map BitVec.toNat).sum ∧
      t.out = s.out ++ (List.range ns.length).map fun k =>
        ⟨.ok, BitVec.ofNat 64
          (memRead bytes (s.cur.toNat + ((ns.take k).map BitVec.toNat).sum) (ns.getD k 0#8).toNat)⟩ := by
  induction ns generalizing s with
  | nil => exact ⟨s, rfl, rfl, (List.append_nil _).symm⟩
  | cons n ns ih =>
    rw [List.map_cons, List.sum_cons, ← Nat.add_assoc] at hend
    have hbits : s.HasBits bytes n.toNat := ⟨hns n List.mem_cons_self, hbst, hp, by omega⟩
    have hcur := hbits.cur_afterRead
    obtain ⟨t, ht, hcur', hout⟩ := ih (s := s.afterRead bytes n.toNat) hbst hp
      (fun m hm => hns m (List.mem_cons_of_mem n hm)) (by rw [hcur]; exact hend)
    rw [hcur] at hcur' hout
    refine ⟨t, ?_, ?_, ?_⟩
    · rw [List.map_cons, execAll_cons_of_next (exec_rdb hbits), ht]
    · rw [hcur', List.map_cons, List.sum_cons, Nat.add_assoc]
    · rw [hout, List.length_cons, List.range_succ_eq_map]
      simp [State.afterRead, Nat.add_assoc, Function.comp_def]

/-- Settles O45: the reads start at bit 0. -/
theorem readSequenceWalksPayload : Obligations.ReadSequenceWalksPayload := by
  intro s bytes ns hbst hp hcur hns hend
  have hzero : s.cur.toNat = 0 := by rw [hcur]; rfl
  simpa [hzero] using execAll_rdb ns hbst hp hns (by rw [hzero, Nat.zero_add]; exact hend)

end Sys2Proof.Machine
end

section
/-! # The record decoders and the primitives (43_record_decoders.md, R135)

A host's loop over the payload has rounds of `m` fields of `w` bits, each read and converted, and one command for the
frequency. `State.afterRounds` is the state after some rounds, written as `State.afterField` would write it, so that the
registers after the last round are those of the decode; its responses are `roundResponses`, from which the host's rows are
the entries of the decode. -/

namespace Sys2Proof.Machine

/-! ## One field and one round -/

/-- `RDB; DEQ` of field number `c` of the payload, fields of `w` bits. -/
def State.readField (s : State) (bytes : List Byte) (w c : Nat) : State :=
  { s with
    cur := BitVec.ofNat 20 (w * (c + 1))
    raw := some (BitVec.ofNat 32 (memRead bytes (w * c) w))
    spl := some (level (memRead bytes (w * c) w) w)
    out := s.out ++
      [⟨.ok, BitVec.ofNat 64 (memRead bytes (w * c) w)⟩, ⟨.ok, sext64 (level (memRead bytes (w * c) w) w)⟩] }

/-- The `n` fields from number `c` on. -/
def State.readFields (s : State) (bytes : List Byte) (w c : Nat) : Nat → State
  | 0 => s
  | n + 1 => (s.readFields bytes w c n).readField bytes w (c + n)

/-- `ANSI` or `HYB` with the frequency `f`. -/
def State.putFreq (s : State) (f : Nat) : State :=
  { s with frq := some (BitVec.ofNat 64 f), out := s.out ++ [⟨.ok, BitVec.ofNat 64 f⟩] }

/-- The first `n` rounds of `m` fields and a frequency. -/
def State.afterRounds (s : State) (bytes : List Byte) (m w : Nat) (freq : Nat → Nat) : Nat → State
  | 0 => s
  | n + 1 => ((s.afterRounds bytes m w freq n).readFields bytes w (m * n) m).putFreq (freq n)

/-- The commands that read and convert `m` fields. -/
def fieldCommands (wb : BitVec 8) (m : Nat) : List Instr := (List.range m).flatMap fun _ => [.rdb wb, .deq wb]

/-- The responses to the fields from number `c` on. -/
def fieldResponses (bytes : List Byte) (w c n : Nat) : List Response :=
  (List.range n).flatMap fun j =>
    [⟨.ok, BitVec.ofNat 64 (memRead bytes (w * (c + j)) w)⟩, ⟨.ok, sext64 (level (memRead bytes (w * (c + j)) w) w)⟩]

/-- The responses of round `k`. -/
def roundResponses (bytes : List Byte) (m w : Nat) (freq : Nat → Nat) (k : Nat) : List Response :=
  fieldResponses bytes w (m * k) m ++ [⟨.ok, BitVec.ofNat 64 (freq k)⟩]

section
variable (s : State) (bytes : List Byte) (w : Nat)

theorem flatMap_range_succ {α : Type} (f : Nat → List α) (n : Nat) :
    (List.range (n + 1)).flatMap f = (List.range n).flatMap f ++ f n := by
  rw [List.range_succ, List.flatMap_append, List.flatMap_singleton]

theorem State.readFields_sameLine (c n : Nat) : s.SameLine (s.readFields bytes w c n) := by
  induction n with
  | zero => exact ⟨rfl, rfl, rfl, rfl⟩
  | succ n ih => exact ⟨ih.buf, ih.len, ih.bst, ih.df⟩

theorem State.readFields_out (c n : Nat) :
    (s.readFields bytes w c n).out = s.out ++ fieldResponses bytes w c n := by
  induction n with
  | zero => exact (List.append_nil _).symm
  | succ n ih =>
    rw [fieldResponses, flatMap_range_succ, ← List.append_assoc, ← fieldResponses, ← ih]
    rfl

theorem State.readFields_cur {c : Nat} (n : Nat) (h : s.cur = BitVec.ofNat 20 (w * c)) :
    (s.readFields bytes w c n).cur = BitVec.ofNat 20 (w * (c + n)) := by
  cases n with
  | zero => exact h
  | succ n => rfl

variable (m : Nat) (freq : Nat → Nat)

theorem State.afterRounds_sameLine (n : Nat) : s.SameLine (s.afterRounds bytes m w freq n) := by
  induction n with
  | zero => exact ⟨rfl, rfl, rfl, rfl⟩
  | succ n ih =>
    have hfields := (s.afterRounds bytes m w freq n).readFields_sameLine bytes w (m * n) m
    exact ⟨hfields.buf.trans ih.buf, hfields.len.trans ih.len, hfields.bst.trans ih.bst, hfields.df.trans ih.df⟩

theorem State.afterRounds_out (n : Nat) : (s.afterRounds bytes m w freq n).out =
    s.out ++ (List.range n).flatMap (roundResponses bytes m w freq) := by
  induction n with
  | zero => exact (List.append_nil _).symm
  | succ n ih =>
    rw [flatMap_range_succ, ← List.append_assoc, ← ih, roundResponses, ← List.append_assoc, ← State.readFields_out]
    rfl

theorem State.afterRounds_cur (n : Nat) (h : s.cur = 0#20) :
    (s.afterRounds bytes m w freq n).cur = BitVec.ofNat 20 (w * (m * n)) := by
  induction n with
  | zero => exact h
  | succ n ih => exact (State.readFields_cur _ bytes w m ih).trans rfl

end

/-! ## The loops run -/

section
variable {s : State} {bytes : List Byte} {wb : BitVec 8} {w : Nat}

/-- `RDB w; DEQ w` at the start of a field. -/
theorem execAll_field {c : Nat} (hw : wb.toNat = w) (hw1 : 1 ≤ w) (hw32 : w ≤ 32) (hbst : s.bst = .valid)
    (hp : s.payload = some bytes) (hcur : s.cur = BitVec.ofNat 20 (w * c)) (hend : w * (c + 1) ≤ 8 * s.len.toNat) :
    execAll [.rdb wb, .deq wb] s = .next (s.readField bytes w c) := by
  subst hw
  rw [Nat.mul_succ] at hend
  have hstart : s.cur.toNat = wb.toNat * c := hcur ▸ cursor_toNat (len := s.len) (by omega)
  have hbits : s.HasBits bytes wb.toNat := ⟨hw32, hbst, hp, hstart ▸ hend⟩
  have hlt := memRead_lt bytes (wb.toNat * c) wb.toNat
  have hraw : (BitVec.ofNat 32 (memRead bytes (wb.toNat * c) wb.toNat)).toNat =
      memRead bytes (wb.toNat * c) wb.toNat := by
    rw [BitVec.toNat_ofNat, Nat.mod_eq_of_lt (hlt.trans_le (Nat.pow_le_pow_right two_pos hw32))]
  have hdeq := exec_deq_of_fits (s := s.afterRead bytes wb.toNat) hw1 hw32 rfl (by rw [hstart, hraw]; exact hlt)
  rw [execAll_cons_of_next (exec_rdb hbits), execAll_cons_of_next hdeq]
  simp [hstart, hraw, State.afterRead, State.readField, State.respond, execAll, Nat.mul_succ]

/-- The fields of one round. -/
theorem execAll_fields {c : Nat} (n : Nat) (hw : wb.toNat = w) (hw1 : 1 ≤ w) (hw32 : w ≤ 32) (hbst : s.bst = .valid)
    (hp : s.payload = some bytes) (hcur : s.cur = BitVec.ofNat 20 (w * c)) (hend : w * (c + n) ≤ 8 * s.len.toNat) :
    execAll (fieldCommands wb n) s = .next (s.readFields bytes w c n) := by
  induction n with
  | zero => rfl
  | succ n ih =>
    have hsame := s.readFields_sameLine bytes w c n
    have hfirst := ih ((Nat.mul_le_mul_left w (by omega)).trans hend)
    rw [fieldCommands, flatMap_range_succ, ← fieldCommands, execAll_append_of_next hfirst]
    exact execAll_field hw hw1 hw32 (hsame.bst.trans hbst) (hsame.payload.trans hp) (s.readFields_cur bytes w n hcur)
      (hsame.len.symm ▸ hend)

/-- The host's loop, for as many rounds as the payload has. -/
theorem execAll_rounds {m : Nat} {command : Nat → Instr} {freq : Nat → Nat} (n : Nat) (hw : wb.toNat = w) (hw1 : 1 ≤ w)
    (hw32 : w ≤ 32) (hbst : s.bst = .valid) (hp : s.payload = some bytes) (hcur : s.cur = 0#20)
    (hend : w * (m * n) ≤ 8 * s.len.toNat)
    (hcommand : ∀ k < n, ∀ u, s.SameLine u → exec (command k) u = .next (u.putFreq (freq k))) :
    execAll ((List.range n).flatMap fun k => fieldCommands wb m ++ [command k]) s =
      .next (s.afterRounds bytes m w freq n) := by
  induction n with
  | zero => rfl
  | succ n ih =>
    have hsame := s.afterRounds_sameLine bytes w m freq n
    have hbefore := ih ((Nat.mul_le_mul_left w (Nat.mul_le_mul_left m (Nat.le_succ n))).trans hend)
      fun k hk => hcommand k (Nat.lt_succ_of_lt hk)
    have hround := execAll_fields m hw hw1 hw32 (hsame.bst.trans hbst) (hsame.payload.trans hp)
      (s.afterRounds_cur bytes w m freq n hcur) (hsame.len.symm ▸ hend)
    have hfields := (s.afterRounds bytes m w freq n).readFields_sameLine bytes w (m * n) m
    have hlast := hcommand n (Nat.lt_succ_self n) _ ⟨hfields.buf.trans hsame.buf, hfields.len.trans hsame.len,
      hfields.bst.trans hsame.bst, hfields.df.trans hsame.df⟩
    rw [flatMap_range_succ, execAll_append_of_next hbefore, execAll_append_of_next hround, execAll_cons_of_next hlast]
    rfl

end

/-! ## The rows a host collects -/

theorem setWidth_sext64 (x : BitVec 16) : (sext64 x).setWidth 16 = x := by
  apply BitVec.eq_of_getLsbD_eq
  intro k hk
  have hk64 : k < 64 := by omega
  simp only [sext64, BitVec.getLsbD_setWidth, BitVec.getLsbD_signExtend, hk, hk64, decide_true, Bool.true_and, if_true]

theorem roundResponses_one (bytes : List Byte) (w : Nat) (freq : Nat → Nat) (k : Nat) :
    roundResponses bytes 1 w freq k =
      [⟨.ok, BitVec.ofNat 64 (memRead bytes (w * k) w)⟩, ⟨.ok, sext64 (level (memRead bytes (w * k) w) w)⟩,
       ⟨.ok, BitVec.ofNat 64 (freq k)⟩] := by
  simp [roundResponses, fieldResponses]

/-- One row from each round of one field. -/
theorem hostRows1_rounds (bytes : List Byte) (w : Nat) (freq : Nat → Nat) (ks : List Nat) :
    hostRows1 (ks.flatMap (roundResponses bytes 1 w freq)) =
      ks.map fun k => ⟨BitVec.ofNat 64 (freq k), [level (memRead bytes (w * k) w) w]⟩ := by
  induction ks with
  | nil => rfl
  | cons k ks ih =>
    rw [List.flatMap_cons, List.map_cons, ← ih, roundResponses_one]
    simp only [List.cons_append, List.nil_append, hostRows1, setWidth_sext64]

/-- One row from each round of four fields. -/
theorem hostRows4_rounds (bytes : List Byte) (w : Nat) (freq : Nat → Nat) (ks : List Nat) :
    hostRows4 (ks.flatMap (roundResponses bytes 4 w freq)) =
      ks.map fun k => ⟨BitVec.ofNat 64 (freq k),
        (List.range 4).map fun j => level (memRead bytes (w * (4 * k + j)) w) w⟩ := by
  induction ks with
  | nil => rfl
  | cons k ks ih =>
    rw [List.flatMap_cons, List.map_cons, ← ih]
    show (⟨BitVec.ofNat 64 (freq k), (List.range 4).map fun j =>
      (sext64 (level (memRead bytes (w * (4 * k + j)) w) w)).setWidth 16⟩ : Entry) ::
        hostRows4 (ks.flatMap (roundResponses bytes 4 w freq)) = _
    simp only [setWidth_sext64]

/-- `ANSI k` for a band index that is counted (R112). -/
theorem exec_ansi_ofNat {k : Nat} (hk : k < 28) (u : State) :
    exec (.ansi (BitVec.ofNat 8 k)) u = .next (u.putFreq (ansiFreq k)) := by
  have hband : (BitVec.ofNat 8 k).toNat = k := by rw [BitVec.toNat_ofNat]; omega
  rw [exec_ansi_of_le (by omega), hband]
  rfl

/-! ## The obligations -/

/-- Settles O41: 28 rounds of one field of 12 bits. -/
theorem dspecEqualsPrimitives : Obligations.DspecEqualsPrimitives := by
  intro s bytes hbst hp hcur hlen
  refine ⟨_, _, execAll_rounds (wb := 12#8) (w := 12) (m := 1) 28 rfl (by decide) (by decide) hbst hp hcur (by omega)
      fun k hk u _ => exec_ansi_ofNat hk u,
    exec_of_decodesAs_payload (v := .spectrum) (.inl rfl) hbst (by simp only [layoutBits]; omega)
      (decodeOverflows_of_ne_pgram nofun) hp, rfl, rfl, rfl, rfl, ?rows, decodedEntries_length .spectrum bytes s⟩
  case rows =>
    rw [State.afterRounds_out, List.drop_left, hostRows1_rounds]
    rfl

/-- Settles O42: 28 rounds of four fields of 8 bits. -/
theorem dstatEqualsPrimitives : Obligations.DstatEqualsPrimitives := by
  intro s bytes hbst hp hcur hlen
  refine ⟨_, _, execAll_rounds (wb := 8#8) (w := 8) (m := 4) 28 rfl (by decide) (by decide) hbst hp hcur (by omega)
      fun k hk u _ => exec_ansi_ofNat hk u,
    exec_of_decodesAs_payload (v := .statistics) (.inl rfl) hbst (by simp only [layoutBits]; omega)
      (decodeOverflows_of_ne_pgram nofun) hp, rfl, rfl, rfl, rfl, ?rows, decodedEntries_length .statistics bytes s⟩
  case rows =>
    rw [State.afterRounds_out, List.drop_left, hostRows4_rounds]
    refine List.map_congr_left fun k _ => congrArg (Entry.mk _) (List.map_congr_left fun j _ => ?_)
    rw [Nat.mul_add, ← Nat.mul_assoc]

/-- `HYB k` over the line of a Pgram decode that does not overflow: the last entry is the largest. -/
theorem exec_hyb_ofNat {s u : State} (hline : s.SameLine u)
    (hfits : s.len.toNat = 0 ∨ hyb s.df.toNat (s.len.toNat - 1) < 2 ^ 64) {k : Nat} (hk : k < s.len.toNat) :
    exec (.hyb (BitVec.ofNat 16 k)) u = .next (u.putFreq (hyb s.df.toNat k)) := by
  have hindex : (BitVec.ofNat 16 k).toNat = k := by rw [BitVec.toNat_ofNat]; omega
  have hlast := hfits.resolve_left (by omega)
  have hfreq : hyb u.df.toNat (BitVec.ofNat 16 k).toNat = hyb s.df.toNat k := by rw [hindex, hline.df]
  have hlt : hyb s.df.toNat k < 2 ^ 64 := by
    by_contra hoverflow
    exact hlast.not_ge (hyb_overflow_mono s.df.isLt (Nat.not_lt.1 hoverflow) (by omega))
  rw [exec_hyb_of_lt (hfreq.symm ▸ hlt), hfreq]
  rfl

/-- After rounds of one field the host has the registers of a Pgram decode. -/
theorem afterRounds_eq_pgramBody {s : State} (bytes : List Byte) (hcur : s.cur = 0#20) (hraw : s.raw = none)
    (hspl : s.spl = none) (hfrq : s.frq = none) :
    (s.afterRounds bytes 1 8 (hyb s.df.toNat) s.len.toNat).cur = (pgramBody bytes s.prologue).cur ∧
    (s.afterRounds bytes 1 8 (hyb s.df.toNat) s.len.toNat).raw = (pgramBody bytes s.prologue).raw ∧
    (s.afterRounds bytes 1 8 (hyb s.df.toNat) s.len.toNat).spl = (pgramBody bytes s.prologue).spl ∧
    (s.afterRounds bytes 1 8 (hyb s.df.toNat) s.len.toNat).frq = (pgramBody bytes s.prologue).frq := by
  cases hn : s.len.toNat with
  | zero =>
    rw [pgramBody_of_empty (s := s.prologue) bytes hn]
    exact ⟨hcur, hraw, hspl, hfrq⟩
  | succ n =>
    rw [pgramBody_of_pos (s := s.prologue) bytes hn, ← memRead_byte]
    simp [State.afterRounds, State.readFields, State.readField, State.putFreq]

/-- Settles O43: as many rounds of one byte as the payload has, none if it is empty. -/
theorem dpgramEqualsPrimitives : Obligations.DpgramEqualsPrimitives := by
  intro s bytes hbst hp hcur hraw hspl hfrq hfits
  have hrounds := execAll_rounds (wb := 8#8) (w := 8) (m := 1) s.len.toNat rfl (by decide) (by decide) hbst hp hcur
    (by omega) fun k hk u hline => exec_hyb_ofNat hline hfits hk
  have hdecode := exec_of_decodesAs_payload (v := .pgram) (.inl rfl) hbst (Nat.zero_le _)
    (decodeOverflows_pgram_eq_false hfits) hp
  obtain ⟨hcur', hraw', hspl', hfrq'⟩ := afterRounds_eq_pgramBody bytes hcur hraw hspl hfrq
  refine ⟨_, _, hrounds, hdecode, hcur', hraw', hspl', hfrq', ?rows, ?count⟩
  case rows =>
    rw [State.afterRounds_out, List.drop_left, hostRows1_rounds, State.respond_record, decodeBody_record]
    rfl
  case count =>
    rw [State.respond_record, decodeBody_record]
    exact decodedEntries_length .pgram bytes s.prologue

end Sys2Proof.Machine
end

section
/-! # The invariant (10_state.md, R27)

The invariant holds at reset, and each part of a step keeps it: the response, the fault, the prologue, the reset, and what
each command performs. What is new is the record of a decode, which is said apart (`Record.Complete`): its frequencies rise
since the band table and the emitted sequence do. A state with the invariant holds all that a command can read, so no
command stops there. -/

namespace Sys2Proof.Machine

/-! ## The record -/

/-- R27 item 5, R22, and the second half of item 6: what the invariant says of the record by itself. -/
structure Record.Complete (c : Config) (r : Record) : Prop where
  recwLegal : r.recw = 0#3 ∨ r.recw = 1#3 ∨ r.recw = 4#3
  recwZero : r.recw = 0#3 → r.recn = 0#16
  recwFour : r.recw = 4#3 → r.recn = 28#16
  recnLe : r.recn.toNat ≤ c.reccap
  recordsHeld : r.entries.length = r.recn.toNat
  levelsHeld : ∀ e ∈ r.entries, e.v.length = r.recw.toNat
  frequenciesRise : r.entries.Pairwise fun e e' => e.f.toNat < e'.f.toNat

theorem Record.empty_complete (c : Config) : Record.empty.Complete c where
  recwLegal := .inl rfl
  recwZero := fun _ => rfl
  recwFour := nofun
  recnLe := Nat.zero_le _
  recordsHeld := rfl
  levelsHeld := nofun
  frequenciesRise := .nil

/-- The band frequencies rise, as the record holds them (R111). -/
theorem ansiFreq_pairwise :
    (List.range 28).Pairwise fun k k' =>
      (BitVec.ofNat 64 (ansiFreq k)).toNat < (BitVec.ofNat 64 (ansiFreq k')).toNat := by
  decide

section
variable {s : State} {v : VariantKind} {bytes : List Byte}

/-- The frequencies of a Pgram record rise, since its last one fits (R121, R131). -/
theorem pgramEntries_pairwise (hdf : 1 ≤ s.df.toNat) (hov : decodeOverflows .pgram s = false) :
    (decodedEntries .pgram bytes s).Pairwise fun e e' => e.f.toNat < e'.f.toNat := by
  rw [decodedEntries, List.pairwise_map]
  refine List.pairwise_lt_range.imp_of_mem fun {k k'} _ hk' hlt => ?_
  have hk' := List.mem_range.1 hk'
  have hrise := hyb_strictMono s.df.isLt hdf
  have hlast : hyb s.df.toNat (s.len.toNat - 1) < 2 ^ 64 := by
    by_contra hlarge
    rw [decodeOverflows_iff.2 ⟨rfl, by omega, Nat.not_lt.1 hlarge⟩] at hov
    cases hov
  have hfits : hyb s.df.toNat k' < 2 ^ 64 := (hrise.monotone (by omega)).trans_lt hlast
  have hkk' := hrise hlt
  show (BitVec.ofNat 64 _).toNat < (BitVec.ofNat 64 _).toNat
  rw [BitVec.toNat_ofNat, BitVec.toNat_ofNat, Nat.mod_eq_of_lt hfits, Nat.mod_eq_of_lt (hkk'.trans hfits)]
  exact hkk'

theorem decodedEntries_pairwise (hdf : 1 ≤ s.df.toNat) (hov : decodeOverflows v s = false) :
    (decodedEntries v bytes s).Pairwise fun e e' => e.f.toNat < e'.f.toNat := by
  cases v with
  | spectrum => exact List.pairwise_map.2 ansiFreq_pairwise
  | statistics => exact List.pairwise_map.2 ansiFreq_pairwise
  | pgram => exact pgramEntries_pairwise hdf hov

theorem decodeBody_record_complete (hlen : s.len.toNat ≤ s.cfg.bufcap) (hdf : 1 ≤ s.df.toNat)
    (hov : decodeOverflows v s = false) : (decodeBody v bytes s).record.Complete s.cfg := by
  have hrecn := decodeBody_recn v bytes s
  have hentries := decodedEntries_length v bytes s
  rw [decodeBody_record] at hrecn ⊢
  refine ⟨?_, ?_, ?_, ?_, hentries.trans (congrArg BitVec.toNat hrecn.symm), decodedEntries_levels v bytes s,
    decodedEntries_pairwise hdf hov⟩
  · cases v <;> simp [decodedWidth]
  · cases v <;> simp [decodedWidth]
  · intro hfour
    cases v with
    | spectrum => cases hfour
    | statistics => exact hrecn
    | pgram => cases hfour
  · show (BitVec.ofNat 16 _).toNat ≤ _
    rw [show BitVec.ofNat 16 (decodedEntries v bytes s).length = decodedCount v s from hrecn]
    cases v with
    | spectrum => exact Nat.le_max_left _ _
    | statistics => exact Nat.le_max_left _ _
    | pgram => exact hlen.trans (Nat.le_max_right _ _)

end

/-! ## The registers -/

/-- R27 item 4: a level of a sample that fits its width. -/
theorem level_range {raw b : Nat} (hb : 1 ≤ b) (h : raw < 2 ^ b) :
    -636 ≤ (level raw b).toInt ∧ (level raw b).toInt ≤ 18564 := by
  rw [level, toInt_ofInt_deq hb h]
  exact deq_mem_Icc hb h

section
variable {s : State} {v : VariantKind} {bytes : List Byte}

/-- The level a decode leaves, if it leaves one, is that of its last field. -/
theorem decodeBody_spl_range (v : VariantKind) (bytes : List Byte) (s : State) :
    ∀ x, (decodeBody v bytes s.prologue).spl = some x → -636 ≤ x.toInt ∧ x.toInt ≤ 18564 := by
  intro x hx
  cases v with
  | spectrum =>
    cases hx
    exact level_range (by decide) (memRead_lt bytes 324 12)
  | statistics =>
    cases hx
    exact level_range (by decide) (memRead_lt bytes 888 8)
  | pgram =>
    cases hn : s.len.toNat with
    | zero =>
      rw [decodeBody, pgramBody_of_empty (s := s.prologue) bytes hn] at hx
      cases hx
    | succ n =>
      rw [decodeBody, pgramBody_of_pos (s := s.prologue) bytes hn] at hx
      cases hx
      exact level_range (by decide) (BitVec.isLt _)

/-- The cursor a decode leaves is inside the payload. -/
theorem decodeBody_cur_le (hp : s.payload = some bytes) (hlen : layoutBits v ≤ 8 * s.len.toNat) :
    (decodeBody v bytes s.prologue).cur.toNat ≤ 8 * s.len.toNat := by
  by_cases hv : v = .pgram
  · subst hv
    rw [pgramBody_registers (State.payload_length hp)]
    exact (cursor_toNat le_rfl).le
  · rw [decodeBody_cur hv]
    exact hlen

end

/-! ## Kept by each part of a step -/

theorem setFault_bit_zero (flt : BitVec 8) (c : FaultCode) : (setFault flt c).getLsbD 0 = flt.getLsbD 0 := by
  rw [setFault_getLsbD _ _ _ (by decide)]
  cases c <;> simp [FaultCode.code]

section
variable {s t u : State} {i : Instr} {x : BitVec 64}

theorem Inv.resetOf {c : Config} (hc : c.Admitted) : Inv (State.resetOf c) where
  admitted := hc
  bufCanonical := rfl
  bufWithinCapacity := nofun
  payloadHeld := ⟨[], rfl⟩
  lenLe := Nat.zero_le _
  curLe := Nat.zero_le _
  noPayloadEmpty := fun _ => rfl
  badEmpty := nofun
  dfPositive := show 1 ≤ (7629#24).toNat by decide
  dfDefault := fun _ => rfl
  splRange := nofun
  recwLegal := .inl rfl
  recwZero := fun _ => rfl
  recwFour := nofun
  recnLe := Nat.zero_le _
  recordsHeld := rfl
  levelsHeld := nofun
  recordsValid := fun h => absurd rfl h
  frequenciesRise := .nil
  fltBitZero := BitVec.getLsbD_zero

theorem Inv.withPort (h : Inv s) (p : List PortEvent) : Inv { s with port := p } := { h with }

theorem Inv.respond (h : Inv s) (x : BitVec 64) : Inv (s.respond x) := { h with }

theorem Inv.raise (h : Inv s) (c : FaultCode) : Inv (s.raise c) :=
  { h with fltBitZero := (setFault_bit_zero s.flt c).trans h.fltBitZero }

theorem Inv.prologue (h : Inv s) : Inv s.prologue :=
  { Record.empty_complete s.cfg, h with
    curLe := Nat.zero_le _
    badEmpty := fun hb => ⟨(h.badEmpty hb).1, rfl⟩
    splRange := nofun
    recordsValid := fun hn => absurd rfl hn }

/-- The reset of R200 while the block runs: `BUF` keeps its bytes, and holds an empty payload. -/
theorem Inv.resetRegisters (h : Inv s) : Inv s.resetRegisters :=
  { Inv.resetOf h.admitted with
    bufCanonical := h.bufCanonical
    bufWithinCapacity := h.bufWithinCapacity
    payloadHeld := ⟨[], Memory.readBytes_zero _ _⟩ }

/-- A new line: `BUF` holds the payload that was loaded (R81). -/
theorem Inv.load {len : BitVec 16} {ws : List Word} (h : Inv s) (hwf : (Instr.load len ws).wellFormed = true)
    (hlen : len.toNat ≤ s.cfg.bufcap) :
    Inv { s.clearLine with buf := s.buf.writeBlock (payloadBytes len ws), len := len, bst := .valid } := by
  have hbytes := payloadBytes_length (length_le_of_wellFormed hwf)
  have hpayload : (s.buf.writeBlock (payloadBytes len ws)).readBytes 0 len.toNat = some (payloadBytes len ws) := by
    rw [← hbytes]
    exact Memory.readBytes_writeBlock h.bufCanonical _
  exact { h.prologue with
    bufCanonical := Memory.writeBlock_wf h.bufCanonical _
    bufWithinCapacity := fun c hc => (Memory.mem_writeBlock hc).elim (fun hlt => hlt.trans_le (hbytes ▸ hlen))
      (h.bufWithinCapacity c)
    payloadHeld := ⟨_, hpayload⟩
    lenLe := hlen
    curLe := Nat.zero_le _
    noPayloadEmpty := nofun
    badEmpty := nofun
    recordsValid := fun _ => rfl }

theorem Inv.markbad (h : Inv s) : Inv { s.clearLine with len := 0#16, bst := .bad } :=
  { h.prologue with
    payloadHeld := ⟨[], Memory.readBytes_zero _ _⟩
    lenLe := Nat.zero_le _
    curLe := Nat.zero_le _
    noPayloadEmpty := fun _ => rfl
    badEmpty := fun _ => ⟨rfl, rfl⟩
    recordsValid := fun hn => absurd rfl hn }

/-- What a decode leaves: a complete record, of a payload that was valid. -/
theorem Inv.decode {v : VariantKind} {bytes : List Byte} (h : Inv s) (hbst : s.bst = .valid)
    (hlen : layoutBits v ≤ 8 * s.len.toNat) (hov : decodeOverflows v s = false) (hp : s.payload = some bytes) :
    Inv (decodeBody v bytes s.prologue) := by
  have hrecord := decodeBody_record_complete (s := s.prologue) (v := v) (bytes := bytes) h.lenLe h.dfPositive hov
  have hcur := decodeBody_cur_le hp hlen
  have hspl := decodeBody_spl_range v bytes s
  rw [decodeBody_frame]
  exact { hrecord, h.prologue with
    curLe := hcur
    badEmpty := fun hb => nomatch hbst.symm.trans hb
    splRange := hspl
    recordsValid := fun _ => hbst }

theorem Performs.keeps_inv (h : Inv s) (hu : Performs s i u x) : Inv u := by
  cases hu with
  | nop => exact h
  | load hwf hpad hlen => exact h.load hwf hlen
  | markbad => exact h.markbad
  | rdb hn hbst hp hend =>
    exact { h with
      curLe := (cursor_toNat hend).trans_le hend
      badEmpty := fun hb => nomatch hbst.symm.trans hb }
  | deq hb hb' hraw hwide =>
    refine { h with splRange := ?_ }
    rintro _ ⟨⟩
    exact level_range hb hwide
  | ansi hk => exact { h with }
  | setdf hdf =>
    exact { h with
      dfPositive := Nat.pos_of_ne_zero fun hzero => hdf (BitVec.eq_of_toNat_eq hzero)
      dfDefault := nofun }
  | hyb hk => exact { h with }
  | decode hi hbst hlen hov hp => exact h.decode hbst hlen hov hp
  | vsel => exact { h with }
  | get hread => exact h
  | getrec hk hj hfield => exact h
  | srst => exact h.resetRegisters

theorem exec_keeps_inv (h : Inv s) (hexec : exec i s = .next t) : Inv t := by
  obtain ⟨u, x, hu, rfl⟩ | ⟨c, -, rfl⟩ := exec_next hexec
  · exact (hu.keeps_inv h).respond x
  · unfold State.beforeFault
    split
    · exact h.prologue.raise c
    · exact h.raise c

theorem step_keeps_inv (h : Inv s) (hstep : step s = .next t) : Inv t := by
  unfold step at hstep
  obtain ⟨i, p, -, hf⟩ | ⟨p, hf⟩ | ⟨p, hf⟩ | hf := s.fetch_cases <;> rw [hf] at hstep
  · exact exec_keeps_inv (h.withPort p) hstep
  · cases hstep
    exact (h.withPort p).raise .illegalCommand
  · cases hstep
    exact (h.withPort p).resetRegisters
  · cases hstep
    exact h

/-! ## No stop -/

theorem Entry.field_ne_none {e : Entry} {j : Nat} (hj : j ≤ e.v.length) : e.field j ≠ none := by
  cases j with
  | zero => exact nofun
  | succ j => simpa using hj

/-- In a state with the invariant every byte and every field that a command can read is held. -/
theorem Inv.not_stops (h : Inv s) (hwf : i.wellFormed = true) : ¬ Stops s i := by
  obtain ⟨bytes, hheld⟩ := h.payloadHeld
  intro hstop
  cases hstop with
  | load hill => exact absurd hwf (Bool.eq_false_iff.1 hill)
  | rdb hn hbst hp hend => exact nomatch hheld.symm.trans hp
  | decode hi hbst hlen hov hp => exact nomatch hheld.symm.trans hp
  | @getrec j k hk hj hfield =>
    have hentry : k.toNat < s.record.entries.length := h.recordsHeld ▸ hk
    have hlevels := h.levelsHeld _ (List.getElem_mem hentry)
    rw [Record.field_of_entry (List.getElem?_eq_getElem hentry)] at hfield
    exact Entry.field_ne_none (hlevels ▸ hj) hfield

theorem exec_completes_of_inv (h : Inv s) (hwf : i.wellFormed = true) : ∃ t, exec i s = .next t := by
  obtain ⟨c, hc⟩ | ⟨u, x, hu⟩ | hstop := exec_trichotomy i s
  · exact ⟨_, exec_of_raises hc⟩
  · exact ⟨_, exec_of_performs hu⟩
  · exact absurd hstop (h.not_stops hwf)

theorem step_completes_of_inv (h : Inv s) : ∃ t, step s = .next t := by
  unfold step
  obtain ⟨i, p, hwf, hf⟩ | ⟨p, hf⟩ | ⟨p, hf⟩ | hf := s.fetch_cases <;> rw [hf]
  · exact exec_completes_of_inv (h.withPort p) hwf
  · exact ⟨_, rfl⟩
  · exact ⟨_, rfl⟩
  · exact ⟨_, rfl⟩

theorem Reachable.inv (h : Reachable s) : Inv s := by
  induction h with
  | powerOn c hc => exact Inv.resetOf hc
  | deliver s events _ ih => exact ih.withPort _
  | step s t _ hstep ih => exact step_keeps_inv ih hstep

end

/-! ## The obligations -/

/-- Settles O55: `State.reset` is the reset state of the suggested parameter. -/
theorem invariantHoldsAtReset : Obligations.InvariantHoldsAtReset :=
  ⟨Inv.resetOf (c := Config.suggested) (by decide), fun _ hc => Inv.resetOf hc⟩

/-- Settles O56: what is taken from the ports, command by command. -/
theorem invariantKeptByStep : Obligations.InvariantKeptByStep := fun _ _ h hstep => step_keeps_inv h hstep

/-- Settles O57: every reachable state has the invariant, and a state with it has a next step. -/
theorem reachableStatesNeverStop : Obligations.ReachableStatesNeverStop :=
  fun _ h => ⟨h.inv, step_completes_of_inv h.inv⟩

end Sys2Proof.Machine
end

section
/-! # A `LOAD` line (30_encoding.md, R67 and R71)

The text of a line `LOAD <hex>` has no comment and no blank at its ends, so the assembler takes the mnemonic and the
operand as they stand (`assemble_loadLine`); what is left is the operand's bytes, packed. -/

namespace Sys2Proof.Machine

section
variable (b : Byte) (more : List (Nat × Byte))

/-- A character of `<hex>` is one of a byte, or a space. -/
theorem mem_hexText {c : Char} (h : c ∈ hexText b more) : (∃ b', c ∈ hexByte b') ∨ c = ' ' := by
  rw [hexText, List.mem_append, List.mem_flatMap] at h
  obtain h | ⟨cell, -, h⟩ := h
  · exact .inl ⟨b, h⟩
  · rw [List.mem_append] at h
    obtain h | h := h
    · exact .inr (List.eq_of_mem_replicate h)
    · exact .inl ⟨cell.2, h⟩

/-- No character of the line begins a comment. -/
theorem ne_semicolon_of_mem_loadLine : ∀ c ∈ ['L', 'O', 'A', 'D', ' '] ++ hexText b more, (c != ';') = true := by
  intro c hc
  rw [List.mem_append] at hc
  obtain hc | hc := hc
  · fin_cases hc <;> rfl
  · obtain ⟨b', hb'⟩ | rfl := mem_hexText b more hc
    · exact (isBlank_hexByte b' c hb').2
    · decide

/-- `<hex>` ends with the text of a byte. -/
theorem hexText_eq_append_hexByte : ∃ cs b', hexText b more = cs ++ hexByte b' := by
  obtain rfl | ⟨cells, cell, rfl⟩ := List.eq_nil_or_concat more
  · exact ⟨[], b, List.append_nil _⟩
  · refine ⟨hexText b cells ++ List.replicate cell.1 ' ', cell.2, ?_⟩
    simp [hexText]

/-- Text that ends with a byte does not end with a blank. -/
theorem isBlank_getLast_append_hexText (pre : List Char) :
    ∀ c ∈ (pre ++ hexText b more).getLast?, isBlank c = false := by
  obtain ⟨cs, b', hcs⟩ := hexText_eq_append_hexByte b more
  intro c hc
  rw [hcs, hexByte, ← List.append_assoc, List.getLast?_append_of_ne_nil _ (List.cons_ne_nil _ _)] at hc
  have hmem : c ∈ hexByte b' := List.mem_of_getLast? hc
  exact (isBlank_hexByte b' c hmem).1

theorem isBlank_hexText_head : ∀ c ∈ (hexText b more).head?, isBlank c = false := by
  intro c hc
  rw [hexText, hexByte, List.head?_append_of_ne_nil _ (List.cons_ne_nil _ _)] at hc
  have hmem : c ∈ hexByte b := List.mem_of_head? hc
  exact (isBlank_hexByte b c hmem).1

/-- The whole line is left when the comment and the blanks at the ends are dropped. -/
theorem trimChars_loadLine : trimChars ((loadLine b more).toList.takeWhile fun c => c != ';') =
    ['L', 'O', 'A', 'D', ' '] ++ hexText b more := by
  have hkept := List.takeWhile_eq_self_iff.2 (ne_semicolon_of_mem_loadLine b more)
  rw [loadLine, String.toList_ofList, hkept]
  refine trimChars_of_ends ?_ (isBlank_getLast_append_hexText b more _)
  rintro _ ⟨⟩
  decide

/-- The operand, without the space before it. -/
theorem trimChars_operand : trimChars (' ' :: hexText b more) = hexText b more :=
  (show trimChars (' ' :: hexText b more) = trimChars (hexText b more) from rfl).trans
    (trimChars_of_ends (isBlank_hexText_head b more) (isBlank_getLast_append_hexText b more []))

/-- An operand of two characters or more is hexadecimal. -/
theorem loadOperand_cons_cons (c d : Char) (cs : List Char) :
    loadOperand (c :: d :: cs) = (hexBytes (c :: d :: cs)).bind loadOf := by
  unfold loadOperand
  split
  next h => cases h
  next h => cases h
  next => rfl

theorem loadOperand_hexText : loadOperand (hexText b more) = loadOf (b :: more.map Prod.snd) := by
  have hbytes : hexBytes (hexText b more) = some (b :: more.map Prod.snd) := by
    rw [hexText, hexBytes_hexByte, hexBytes_cells]
    rfl
  exact (loadOperand_cons_cons _ _ _).trans (congrArg (·.bind loadOf) hbytes)

/-- What the assembler makes of the line. -/
theorem assemble_loadLine : assemble (loadLine b more) =
    match loadOf (b :: more.map Prod.snd) with
    | some i => .command i
    | none => .rejected := by
  have hcommand := commandOf_load (' ' :: hexText b more)
  rw [trimChars_operand, loadOperand_hexText] at hcommand
  unfold assemble
  -- The mnemonic and the operand are found among the first five characters.
  rw [trimChars_loadLine, ← hcommand]
  rfl

end

/-- Settles O60: the bytes of the line, packed if their number fits the length field. -/
theorem assembledLoadCarriesPayload : Obligations.AssembledLoadCarriesPayload := by
  refine ⟨by decide, ?short, ?long⟩
  case short =>
    intro b more hlen
    obtain ⟨len, ws, hload, hwf, hcount, hbytes, hpad⟩ :=
      loadOf_short (bs := b :: more.map Prod.snd) (by simpa using hlen)
    refine ⟨len, ws, ?_, hwf, by simpa using hcount, hbytes, hpad⟩
    rw [assemble_loadLine, hload]
  case long =>
    intro b more hlen
    rw [assemble_loadLine, loadOf_long (by simpa using hlen)]

end Sys2Proof.Machine
end
